-- ==== Sys2Proof/Word.lean ====
section
/-! DEFINITION. The widths of the R128 CORE: values, scalars, bytes, command words, register numbers
(spec/00_scope.md R2; spec/10_state.md R20, R25; spec/30_encoding.md R80, R84). -/

namespace Sys2Proof

/-- A Q128.128 value pattern, 256 bits (10_state R20). -/
abbrev Value := BitVec 256

/-- A scalar register's pattern, 64 bits (10_state R25). -/
abbrev Scalar := BitVec 64

/-- One byte of DMEM (20_memory R60). -/
abbrev Byte := BitVec 8

/-- One command word, 32 bits (30_encoding R80). -/
abbrev Command := BitVec 32

/-- The number of a value register, V0 to V15 (30_encoding R84). -/
abbrev VReg := BitVec 4

/-- The number of a scalar register, X0 to X15 (30_encoding R84). -/
abbrev XReg := BitVec 4

end Sys2Proof
end

