-- ==== Sys2Proof/Syntax.lean ====
section
/-! DEFINITION. The 49 commands of the R128 CORE as syntax: one constructor per row of spec/opcode_table.json
(spec/30_encoding.md R85). Register numbers, halves, constants and control registers are typed; nothing here is a raw
encoding but the immediates, which the spec treats as bit fields. -/

namespace Sys2Proof

/-- Which 128-bit half of a value a half selector picks: 0 is lo, 1 is hi (30_encoding R84). -/
inductive Half where
  | lo
  | hi
deriving DecidableEq, Repr

/-- The constants CONST can load, k = 0 to 4 (10_state R22, 40_move_memory R102). -/
inductive ConstName where
  | zero
  | one
  | smallest
  | min
  | max
deriving DecidableEq, Repr

/-- The defined control registers (10_state R27). -/
inductive Csr where
  | cfg
  | status
  | dpchar
  | fmtctl
  | fmtwidth
  | fmtprec
  | fault
  | fcmd
  | faddr
deriving DecidableEq, Repr

/-- The commands (30_encoding R85). Operands stand in the order d, a, b, c, imm of that table. -/
inductive Instr where
  /-- 0x00, R100 -/
  | nop
  /-- 0x01, R101 -/
  | movv (d a : VReg)
  /-- 0x02, R102 -/
  | const (d : VReg) (k : ConstName)
  /-- 0x03, R103 -/
  | lix (d : XReg) (imm : BitVec 16)
  /-- 0x10, R105 -/
  | ldv (d : VReg) (a : XReg) (off : BitVec 16)
  /-- 0x11, R106; d is the source -/
  | stv (d : VReg) (a : XReg) (off : BitVec 16)
  /-- 0x12, R107 -/
  | ldx (d : XReg) (a : XReg) (off : BitVec 16)
  /-- 0x13, R108; d is the source -/
  | stx (d : XReg) (a : XReg) (off : BitVec 16)
  /-- 0x20, R120 -/
  | not (d a : VReg)
  /-- 0x21, R121 -/
  | and (d a b : VReg)
  /-- 0x22, R122 -/
  | or (d a b : VReg)
  /-- 0x23, R123 -/
  | xor (d a b : VReg)
  /-- 0x24, R125 -/
  | shl (d a : VReg) (b : XReg)
  /-- 0x25, R126 -/
  | shr (d a : VReg) (b : XReg)
  /-- 0x26, R127 -/
  | sar (d a : VReg) (b : XReg)
  /-- 0x27, R128 -/
  | shli (d a : VReg) (n : BitVec 8)
  /-- 0x28, R129 -/
  | shri (d a : VReg) (n : BitVec 8)
  /-- 0x29, R130 -/
  | sari (d a : VReg) (n : BitVec 8)
  /-- 0x2A, R132 -/
  | clz (d : XReg) (a : VReg) (h : Half)
  /-- 0x30, R140 -/
  | add (d a b : VReg)
  /-- 0x31, R141 -/
  | sub (d a b : VReg)
  /-- 0x32, R143 -/
  | neg (d a : VReg)
  /-- 0x33, R145 -/
  | abs (d a : VReg)
  /-- 0x34, R146 -/
  | nabs (d a : VReg)
  /-- 0x35, R147 -/
  | isneg (d : XReg) (a : VReg)
  /-- 0x36, R149 -/
  | cmp (d : XReg) (a b : VReg)
  /-- 0x37, R150 -/
  | ucmp (d : XReg) (a b : VReg)
  /-- 0x38, R151 -/
  | min (d a b : VReg)
  /-- 0x39, R152 -/
  | max (d a b : VReg)
  /-- 0x40, R161; ha is the half of V[a] (sel bit 0), hb that of V[b] (sel bit 1) -/
  | umul (d a b : VReg) (ha hb : Half)
  /-- 0x41, R163; h is the divisor half of V[b] -/
  | udiv (d a b : VReg) (h : Half)
  /-- 0x42, R167 -/
  | mul (d a b : VReg)
  /-- 0x43, R170 -/
  | div (d a b : VReg)
  /-- 0x44, R172 -/
  | mod (d a b : VReg)
  /-- 0x48, R191 -/
  | sqrt (d a : VReg)
  /-- 0x49, R196 -/
  | rsqrt (d a : VReg)
  /-- 0x50, R210 -/
  | floor (d a : VReg)
  /-- 0x51, R211 -/
  | ceil (d a : VReg)
  /-- 0x52, R212 -/
  | round (d a : VReg)
  /-- 0x60, R230; b is the address, c the capacity, d receives the length -/
  | fmt (d : XReg) (a : VReg) (b c : XReg)
  /-- 0x61, R231 -/
  | fmtd (d : XReg) (a : VReg) (b c : XReg)
  /-- 0x62, R233 -/
  | fmtparse (a : XReg)
  /-- 0x68, R258; b receives the end address -/
  | parse (d : VReg) (a b : XReg)
  /-- 0x70, R270 -/
  | fromint (d : VReg) (a : XReg)
  /-- 0x71, R271 -/
  | toint (d : XReg) (a : VReg)
  /-- 0x72, R274 -/
  | fromf (d : VReg) (a : XReg)
  /-- 0x73, R276 -/
  | tof (d : XReg) (a : VReg)
  /-- 0x7E, R290 -/
  | csrr (d : XReg) (c : Csr)
  /-- 0x7F, R291 -/
  | csrw (c : Csr) (a : XReg)
deriving DecidableEq, Repr

end Sys2Proof
end

