-- ==== Sys2Proof/WellFormed.lean ====
section
/-! DEFINITION. Which terms of the syntax are commands. The types carry every check of spec/30_encoding.md R86 but one:
a CSRW names a control register that commands may write (spec/10_state.md R27, spec/49_control.md R291). -/

namespace Sys2Proof

/-- The control registers a command may write: STATUS, DPCHAR, FMTCTL, FMTWIDTH, FMTPREC (10_state R27). -/
def Csr.writable : Csr → Bool
  | .status | .dpchar | .fmtctl | .fmtwidth | .fmtprec => true
  | .cfg | .fault | .fcmd | .faddr => false

/-- A command is well formed when its word passes the decode checks of 30_encoding R86. -/
def Instr.wellFormed : Instr → Bool
  | .csrw c _ => c.writable
  | _ => true

end Sys2Proof
end

