-- ==== Sys2Proof/Decode.lean ====
section
/-! DEFINITION. The decoder and the encoder of spec/30_encoding.md. Decoding is total on all words (R88): the opcode is
checked first (R87), then the fields (R86); a rejected word is rejected by name. -/

namespace Sys2Proof

/-- Why a word is no command (30_encoding R86, R87). -/
inductive IllegalWord where
  /-- The opcode is not in R85's table: ILLEGAL_OPCODE (R87). -/
  | opcode
  /-- An unused field or a selector bit is set, or a selector or control register number is undefined: ILLEGAL_FIELD (R86). -/
  | field
deriving DecidableEq, Repr

/-- The 49 defined opcodes, by the mnemonic of R85. -/
inductive Opcode where
  | nop
  | movv
  | const
  | lix
  | ldv
  | stv
  | ldx
  | stx
  | not
  | and
  | or
  | xor
  | shl
  | shr
  | sar
  | shli
  | shri
  | sari
  | clz
  | add
  | sub
  | neg
  | abs
  | nabs
  | isneg
  | cmp
  | ucmp
  | min
  | max
  | umul
  | udiv
  | mul
  | div
  | mod
  | sqrt
  | rsqrt
  | floor
  | ceil
  | round
  | fmt
  | fmtd
  | fmtparse
  | parse
  | fromint
  | toint
  | fromf
  | tof
  | csrr
  | csrw
deriving DecidableEq, Repr

namespace Opcode

/-- The opcode byte (30_encoding R85). -/
def code : Opcode → BitVec 8
  | .nop => 0x00#8
  | .movv => 0x01#8
  | .const => 0x02#8
  | .lix => 0x03#8
  | .ldv => 0x10#8
  | .stv => 0x11#8
  | .ldx => 0x12#8
  | .stx => 0x13#8
  | .not => 0x20#8
  | .and => 0x21#8
  | .or => 0x22#8
  | .xor => 0x23#8
  | .shl => 0x24#8
  | .shr => 0x25#8
  | .sar => 0x26#8
  | .shli => 0x27#8
  | .shri => 0x28#8
  | .sari => 0x29#8
  | .clz => 0x2A#8
  | .add => 0x30#8
  | .sub => 0x31#8
  | .neg => 0x32#8
  | .abs => 0x33#8
  | .nabs => 0x34#8
  | .isneg => 0x35#8
  | .cmp => 0x36#8
  | .ucmp => 0x37#8
  | .min => 0x38#8
  | .max => 0x39#8
  | .umul => 0x40#8
  | .udiv => 0x41#8
  | .mul => 0x42#8
  | .div => 0x43#8
  | .mod => 0x44#8
  | .sqrt => 0x48#8
  | .rsqrt => 0x49#8
  | .floor => 0x50#8
  | .ceil => 0x51#8
  | .round => 0x52#8
  | .fmt => 0x60#8
  | .fmtd => 0x61#8
  | .fmtparse => 0x62#8
  | .parse => 0x68#8
  | .fromint => 0x70#8
  | .toint => 0x71#8
  | .fromf => 0x72#8
  | .tof => 0x73#8
  | .csrr => 0x7E#8
  | .csrw => 0x7F#8

/-- Every defined opcode, in R85's order. -/
def all : List Opcode :=
  [.nop, .movv, .const, .lix, .ldv, .stv, .ldx, .stx, .not, .and,
   .or, .xor, .shl, .shr, .sar, .shli, .shri, .sari, .clz, .add,
   .sub, .neg, .abs, .nabs, .isneg, .cmp, .ucmp, .min, .max, .umul,
   .udiv, .mul, .div, .mod, .sqrt, .rsqrt, .floor, .ceil, .round, .fmt,
   .fmtd, .fmtparse, .parse, .fromint, .toint, .fromf, .tof, .csrr, .csrw]

/-- The opcode an opcode byte stands for, if it is defined (30_encoding R87). -/
def ofCode (c : BitVec 8) : Option Opcode :=
  all.find? fun o => o.code == c

end Opcode

/-- The opcode of a command. -/
def Instr.opcode : Instr → Opcode
  | .nop => .nop
  | .movv .. => .movv
  | .const .. => .const
  | .lix .. => .lix
  | .ldv .. => .ldv
  | .stv .. => .stv
  | .ldx .. => .ldx
  | .stx .. => .stx
  | .not .. => .not
  | .and .. => .and
  | .or .. => .or
  | .xor .. => .xor
  | .shl .. => .shl
  | .shr .. => .shr
  | .sar .. => .sar
  | .shli .. => .shli
  | .shri .. => .shri
  | .sari .. => .sari
  | .clz .. => .clz
  | .add .. => .add
  | .sub .. => .sub
  | .neg .. => .neg
  | .abs .. => .abs
  | .nabs .. => .nabs
  | .isneg .. => .isneg
  | .cmp .. => .cmp
  | .ucmp .. => .ucmp
  | .min .. => .min
  | .max .. => .max
  | .umul .. => .umul
  | .udiv .. => .udiv
  | .mul .. => .mul
  | .div .. => .div
  | .mod .. => .mod
  | .sqrt .. => .sqrt
  | .rsqrt .. => .rsqrt
  | .floor .. => .floor
  | .ceil .. => .ceil
  | .round .. => .round
  | .fmt .. => .fmt
  | .fmtd .. => .fmtd
  | .fmtparse .. => .fmtparse
  | .parse .. => .parse
  | .fromint .. => .fromint
  | .toint .. => .toint
  | .fromf .. => .fromf
  | .tof .. => .tof
  | .csrr .. => .csrr
  | .csrw .. => .csrw

/-- The name a half selector bit stands for (30_encoding R84); imm8[7:1] of CLZ and UDIV must be 0 (R86). -/
def Half.ofSel (n : BitVec 8) : Option Half :=
  if n = 0 then some .lo else if n = 1 then some .hi else none

/-- The selector of a half. -/
def Half.sel : Half → BitVec 8
  | .lo => 0
  | .hi => 1

/-- UMUL's selector: bit 0 picks the half of V[a], bit 1 the half of V[b]; imm8[7:2] must be 0 (43_muldiv R161, 30_encoding R86). -/
def umulHalves (n : BitVec 8) : Option (Half × Half) :=
  if n = 0 then some (.lo, .lo) else if n = 1 then some (.hi, .lo)
  else if n = 2 then some (.lo, .hi) else if n = 3 then some (.hi, .hi) else none

/-- UMUL's selector for the halves of V[a] and V[b] (43_muldiv R161). -/
def umulSel (ha hb : Half) : BitVec 8 := ha.sel + 2 * hb.sel

/-- CONST's selector k, 0 to 4 (40_move_memory R102). -/
def ConstName.k : ConstName → BitVec 8
  | .zero => 0
  | .one => 1
  | .smallest => 2
  | .min => 3
  | .max => 4

/-- The constant that k names; k of 5 or more names none (40_move_memory R102, 30_encoding R86). -/
def ConstName.ofK (n : BitVec 8) : Option ConstName :=
  [ConstName.zero, .one, .smallest, .min, .max].find? fun c => c.k == n

/-- The number of a control register (10_state R27). -/
def Csr.number : Csr → BitVec 8
  | .cfg => 0x00
  | .status => 0x01
  | .dpchar => 0x02
  | .fmtctl => 0x03
  | .fmtwidth => 0x04
  | .fmtprec => 0x05
  | .fault => 0x08
  | .fcmd => 0x09
  | .faddr => 0x0A

/-- The control register a number names; 0x06, 0x07 and 0x0B to 0xFF are undefined (10_state R27). -/
def Csr.ofNumber (n : BitVec 8) : Option Csr :=
  [Csr.cfg, .status, .dpchar, .fmtctl, .fmtwidth, .fmtprec, .fault, .fcmd, .faddr].find? fun c => c.number == n

/-! The fields of formats R, M and I (30_encoding R81 to R83). -/

/-- w[31:24], the opcode byte of every format (30_encoding R80). -/
def fieldOp (w : Command) : BitVec 8 := w.extractLsb' 24 8

/-- w[23:20]. -/
def fieldD (w : Command) : BitVec 4 := w.extractLsb' 20 4

/-- w[19:16]. -/
def fieldA (w : Command) : BitVec 4 := w.extractLsb' 16 4

/-- w[15:12]. -/
def fieldB (w : Command) : BitVec 4 := w.extractLsb' 12 4

/-- w[11:8]. -/
def fieldC (w : Command) : BitVec 4 := w.extractLsb' 8 4

/-- w[7:0]. -/
def fieldImm8 (w : Command) : BitVec 8 := w.extractLsb' 0 8

/-- w[15:0], off16 of format M and imm16 of format I. -/
def fieldImm16 (w : Command) : BitVec 16 := w.extractLsb' 0 16

/-- The command a word of opcode o stands for, or none when a field check of 30_encoding R86 fails. -/
def decodeFields (o : Opcode) (w : Command) : Option Instr :=
  match o with
  | .nop => if fieldD w = 0 ∧ fieldA w = 0 ∧ fieldB w = 0 ∧ fieldC w = 0 ∧ fieldImm8 w = 0 then some .nop else none
  | .movv => if fieldB w = 0 ∧ fieldC w = 0 ∧ fieldImm8 w = 0 then some (.movv (fieldD w) (fieldA w)) else none
  | .const => if fieldA w = 0 ∧ fieldB w = 0 ∧ fieldC w = 0 then (ConstName.ofK (fieldImm8 w)).map (.const (fieldD w)) else none
  | .lix => if fieldA w = 0 then some (.lix (fieldD w) (fieldImm16 w)) else none
  | .ldv => some (.ldv (fieldD w) (fieldA w) (fieldImm16 w))
  | .stv => some (.stv (fieldD w) (fieldA w) (fieldImm16 w))
  | .ldx => some (.ldx (fieldD w) (fieldA w) (fieldImm16 w))
  | .stx => some (.stx (fieldD w) (fieldA w) (fieldImm16 w))
  | .not => if fieldB w = 0 ∧ fieldC w = 0 ∧ fieldImm8 w = 0 then some (.not (fieldD w) (fieldA w)) else none
  | .and => if fieldC w = 0 ∧ fieldImm8 w = 0 then some (.and (fieldD w) (fieldA w) (fieldB w)) else none
  | .or => if fieldC w = 0 ∧ fieldImm8 w = 0 then some (.or (fieldD w) (fieldA w) (fieldB w)) else none
  | .xor => if fieldC w = 0 ∧ fieldImm8 w = 0 then some (.xor (fieldD w) (fieldA w) (fieldB w)) else none
  | .shl => if fieldC w = 0 ∧ fieldImm8 w = 0 then some (.shl (fieldD w) (fieldA w) (fieldB w)) else none
  | .shr => if fieldC w = 0 ∧ fieldImm8 w = 0 then some (.shr (fieldD w) (fieldA w) (fieldB w)) else none
  | .sar => if fieldC w = 0 ∧ fieldImm8 w = 0 then some (.sar (fieldD w) (fieldA w) (fieldB w)) else none
  | .shli => if fieldB w = 0 ∧ fieldC w = 0 then some (.shli (fieldD w) (fieldA w) (fieldImm8 w)) else none
  | .shri => if fieldB w = 0 ∧ fieldC w = 0 then some (.shri (fieldD w) (fieldA w) (fieldImm8 w)) else none
  | .sari => if fieldB w = 0 ∧ fieldC w = 0 then some (.sari (fieldD w) (fieldA w) (fieldImm8 w)) else none
  | .clz => if fieldB w = 0 ∧ fieldC w = 0 then (Half.ofSel (fieldImm8 w)).map (.clz (fieldD w) (fieldA w)) else none
  | .add => if fieldC w = 0 ∧ fieldImm8 w = 0 then some (.add (fieldD w) (fieldA w) (fieldB w)) else none
  | .sub => if fieldC w = 0 ∧ fieldImm8 w = 0 then some (.sub (fieldD w) (fieldA w) (fieldB w)) else none
  | .neg => if fieldB w = 0 ∧ fieldC w = 0 ∧ fieldImm8 w = 0 then some (.neg (fieldD w) (fieldA w)) else none
  | .abs => if fieldB w = 0 ∧ fieldC w = 0 ∧ fieldImm8 w = 0 then some (.abs (fieldD w) (fieldA w)) else none
  | .nabs => if fieldB w = 0 ∧ fieldC w = 0 ∧ fieldImm8 w = 0 then some (.nabs (fieldD w) (fieldA w)) else none
  | .isneg => if fieldB w = 0 ∧ fieldC w = 0 ∧ fieldImm8 w = 0 then some (.isneg (fieldD w) (fieldA w)) else none
  | .cmp => if fieldC w = 0 ∧ fieldImm8 w = 0 then some (.cmp (fieldD w) (fieldA w) (fieldB w)) else none
  | .ucmp => if fieldC w = 0 ∧ fieldImm8 w = 0 then some (.ucmp (fieldD w) (fieldA w) (fieldB w)) else none
  | .min => if fieldC w = 0 ∧ fieldImm8 w = 0 then some (.min (fieldD w) (fieldA w) (fieldB w)) else none
  | .max => if fieldC w = 0 ∧ fieldImm8 w = 0 then some (.max (fieldD w) (fieldA w) (fieldB w)) else none
  | .umul => if fieldC w = 0 then (umulHalves (fieldImm8 w)).map fun h => .umul (fieldD w) (fieldA w) (fieldB w) h.1 h.2 else none
  | .udiv => if fieldC w = 0 then (Half.ofSel (fieldImm8 w)).map (.udiv (fieldD w) (fieldA w) (fieldB w)) else none
  | .mul => if fieldC w = 0 ∧ fieldImm8 w = 0 then some (.mul (fieldD w) (fieldA w) (fieldB w)) else none
  | .div => if fieldC w = 0 ∧ fieldImm8 w = 0 then some (.div (fieldD w) (fieldA w) (fieldB w)) else none
  | .mod => if fieldC w = 0 ∧ fieldImm8 w = 0 then some (.mod (fieldD w) (fieldA w) (fieldB w)) else none
  | .sqrt => if fieldB w = 0 ∧ fieldC w = 0 ∧ fieldImm8 w = 0 then some (.sqrt (fieldD w) (fieldA w)) else none
  | .rsqrt => if fieldB w = 0 ∧ fieldC w = 0 ∧ fieldImm8 w = 0 then some (.rsqrt (fieldD w) (fieldA w)) else none
  | .floor => if fieldB w = 0 ∧ fieldC w = 0 ∧ fieldImm8 w = 0 then some (.floor (fieldD w) (fieldA w)) else none
  | .ceil => if fieldB w = 0 ∧ fieldC w = 0 ∧ fieldImm8 w = 0 then some (.ceil (fieldD w) (fieldA w)) else none
  | .round => if fieldB w = 0 ∧ fieldC w = 0 ∧ fieldImm8 w = 0 then some (.round (fieldD w) (fieldA w)) else none
  | .fmt => if fieldImm8 w = 0 then some (.fmt (fieldD w) (fieldA w) (fieldB w) (fieldC w)) else none
  | .fmtd => if fieldImm8 w = 0 then some (.fmtd (fieldD w) (fieldA w) (fieldB w) (fieldC w)) else none
  | .fmtparse => if fieldD w = 0 ∧ fieldB w = 0 ∧ fieldC w = 0 ∧ fieldImm8 w = 0 then some (.fmtparse (fieldA w)) else none
  | .parse => if fieldC w = 0 ∧ fieldImm8 w = 0 then some (.parse (fieldD w) (fieldA w) (fieldB w)) else none
  | .fromint => if fieldB w = 0 ∧ fieldC w = 0 ∧ fieldImm8 w = 0 then some (.fromint (fieldD w) (fieldA w)) else none
  | .toint => if fieldB w = 0 ∧ fieldC w = 0 ∧ fieldImm8 w = 0 then some (.toint (fieldD w) (fieldA w)) else none
  | .fromf => if fieldB w = 0 ∧ fieldC w = 0 ∧ fieldImm8 w = 0 then some (.fromf (fieldD w) (fieldA w)) else none
  | .tof => if fieldB w = 0 ∧ fieldC w = 0 ∧ fieldImm8 w = 0 then some (.tof (fieldD w) (fieldA w)) else none
  | .csrr => if fieldA w = 0 ∧ fieldB w = 0 ∧ fieldC w = 0 then (Csr.ofNumber (fieldImm8 w)).map (.csrr (fieldD w)) else none
  | .csrw => if fieldD w = 0 ∧ fieldB w = 0 ∧ fieldC w = 0 then ((Csr.ofNumber (fieldImm8 w)).filter (·.writable)).map (.csrw · (fieldA w)) else none

/-- The decoder: total on all 2^32 words (30_encoding R88), opcode first (R87), then fields (R86). -/
def decode (w : Command) : Except IllegalWord Instr :=
  match Opcode.ofCode (fieldOp w) with
  | none => .error .opcode
  | some o =>
    match decodeFields o w with
    | none => .error .field
    | some i => .ok i

/-- A word of format R (30_encoding R81). -/
def formatR (o : Opcode) (d a b c : BitVec 4) (imm8 : BitVec 8) : Command :=
  o.code ++ d ++ a ++ b ++ c ++ imm8

/-- A word of format M, and with a = 0 of format I (30_encoding R82, R83). -/
def formatM (o : Opcode) (d a : BitVec 4) (imm16 : BitVec 16) : Command :=
  o.code ++ d ++ a ++ imm16

/-- The word of a command (30_encoding R85): unused fields are 0 (R86). -/
def encode : Instr → Command
  | .nop => formatR .nop 0 0 0 0 0
  | .movv d a => formatR .movv d a 0 0 0
  | .const d k => formatR .const d 0 0 0 k.k
  | .lix d imm => formatM .lix d 0 imm
  | .ldv d a off => formatM .ldv d a off
  | .stv d a off => formatM .stv d a off
  | .ldx d a off => formatM .ldx d a off
  | .stx d a off => formatM .stx d a off
  | .not d a => formatR .not d a 0 0 0
  | .and d a b => formatR .and d a b 0 0
  | .or d a b => formatR .or d a b 0 0
  | .xor d a b => formatR .xor d a b 0 0
  | .shl d a b => formatR .shl d a b 0 0
  | .shr d a b => formatR .shr d a b 0 0
  | .sar d a b => formatR .sar d a b 0 0
  | .shli d a n => formatR .shli d a 0 0 n
  | .shri d a n => formatR .shri d a 0 0 n
  | .sari d a n => formatR .sari d a 0 0 n
  | .clz d a h => formatR .clz d a 0 0 h.sel
  | .add d a b => formatR .add d a b 0 0
  | .sub d a b => formatR .sub d a b 0 0
  | .neg d a => formatR .neg d a 0 0 0
  | .abs d a => formatR .abs d a 0 0 0
  | .nabs d a => formatR .nabs d a 0 0 0
  | .isneg d a => formatR .isneg d a 0 0 0
  | .cmp d a b => formatR .cmp d a b 0 0
  | .ucmp d a b => formatR .ucmp d a b 0 0
  | .min d a b => formatR .min d a b 0 0
  | .max d a b => formatR .max d a b 0 0
  | .umul d a b ha hb => formatR .umul d a b 0 (umulSel ha hb)
  | .udiv d a b h => formatR .udiv d a b 0 h.sel
  | .mul d a b => formatR .mul d a b 0 0
  | .div d a b => formatR .div d a b 0 0
  | .mod d a b => formatR .mod d a b 0 0
  | .sqrt d a => formatR .sqrt d a 0 0 0
  | .rsqrt d a => formatR .rsqrt d a 0 0 0
  | .floor d a => formatR .floor d a 0 0 0
  | .ceil d a => formatR .ceil d a 0 0 0
  | .round d a => formatR .round d a 0 0 0
  | .fmt d a b c => formatR .fmt d a b c 0
  | .fmtd d a b c => formatR .fmtd d a b c 0
  | .fmtparse a => formatR .fmtparse 0 a 0 0 0
  | .parse d a b => formatR .parse d a b 0 0
  | .fromint d a => formatR .fromint d a 0 0 0
  | .toint d a => formatR .toint d a 0 0 0
  | .fromf d a => formatR .fromf d a 0 0 0
  | .tof d a => formatR .tof d a 0 0 0
  | .csrr d c => formatR .csrr d 0 0 0 c.number
  | .csrw c a => formatR .csrw 0 a 0 0 c.number

/-- The command the decoder reads from an instruction whose bits are w (nbits of them, the bits above are 0). A command is
one whole 32-bit word, so there is no byte order to lay out (30_encoding R80). -/
def decodeTableWord (nbits w : Nat) : Option Instr :=
  match decode (BitVec.ofNat 32 (w % 2 ^ nbits)) with
  | .ok i => some i
  | .error _ => none

end Sys2Proof
end

