-- ==== Sys2Proof/Config.lean ====
section
/-! DEFINITION. What the spec fixes for the hardware (spec/00_scope.md, section 4), the value the model takes for
its one open parameter at reset, and the one free value. -/

namespace Sys2Proof.Config

/-- Fractional digits of the automatic precision (00_scope R4). -/
def autoDigits : Nat := 39

/-- Iteration cap of SQRT and RSQRT (00_scope R5). -/
def nrIters : Nat := 7

/-- The formatter's precision split bound (00_scope R6; every value of 128 or more gives the same strings, 46_format R223). -/
def fmtSplit : Nat := 215

/-- DESIGN CHOICE (log 1), unsafe: DMEM_SIZE is an open parameter (00_scope R3). It is a field of State, of any value;
`State.reset` alone takes the size that spec/95_test_vectors.md uses for its programs. -/
def resetDmemSize : Nat := 0x10000

/-- The free bytes (log 6), safe: what the n-th DMEM byte drawn after a reset that abandoned a command holds
(70_reset_and_hazards R342, 93_implementation_defined S2: any value). It has no body, so nothing constrains it. -/
opaque freeByte : Nat → Byte

end Sys2Proof.Config
end

