-- ==== Sys2Proof/Machine/State.lean ====
section
/-! DEFINITION. The state of the R128 CORE as plain data (spec/10_state.md R39, spec/20_memory.md R60), the host's
transactions and what the host gets back (spec/60_exceptions.md R321), and the state after reset. -/

namespace Sys2Proof.Machine

/-- Data memory: the bytes that differ from what an unlisted address reads as, by strictly rising address. -/
abbrev Memory := List Host.Cell

/-- The run state (10_state R26). BUSY holds the word of the command being executed. -/
inductive RunState where
  | idle
  | busy (w : Command)
  | faulted
deriving DecidableEq, Repr

/-- The host's transactions (60_exceptions R321). Register numbers are numbers, so that an undefined one can be named
and is refused (R323). -/
inductive HostTxn where
  /-- ISSUE(w) -/
  | issue (w : Command)
  /-- STATE -/
  | state
  /-- READ_V(i) -/
  | readV (i : Nat)
  /-- WRITE_V(i, b), b the 32-byte image -/
  | writeV (i : Nat) (b : Vector Byte 32)
  /-- READ_X(i) -/
  | readX (i : Nat)
  /-- WRITE_X(i, b), b the 8-byte image -/
  | writeX (i : Nat) (b : Vector Byte 8)
  /-- READ_CSR(n) -/
  | readCsr (n : BitVec 8)
  /-- WRITE_CSR(n, d) -/
  | writeCsr (n : BitVec 8) (d : Scalar)
  /-- READ_MEM(a, n) -/
  | readMem (a n : Nat)
  /-- WRITE_MEM(a, bytes) -/
  | writeMem (a : Nat) (bytes : List Byte)
  /-- RESET -/
  | reset
  /-- No transaction: time passes until the CORE is not BUSY. DESIGN CHOICE (log 4), safe: LAT is unknown and finite
  (70_reset_and_hazards R355), and where the end of BUSY falls among the host's transactions is data of the list. -/
  | elapse
deriving DecidableEq, Repr

/-- What the host gets back (60_exceptions R321, last column). -/
inductive Reply where
  /-- ISSUE: accepted -/
  | accepted
  /-- ISSUE in BUSY or FAULTED -/
  | notAccepted
  /-- STATE: IDLE -/
  | isIdle
  /-- STATE: BUSY -/
  | isBusy
  /-- STATE: FAULTED -/
  | isFaulted
  /-- READ_V, READ_X, READ_MEM: the bytes, lowest address first -/
  | bytes (b : List Byte)
  /-- READ_CSR: the value -/
  | csr (d : Scalar)
  /-- done -/
  | done
  /-- refused (R323) -/
  | refused
deriving DecidableEq, Repr

/-- The machine. The first group is the spec's state (10_state R39); the last three fields are the model's own. -/
structure State where
  /-- V0 to V15 (10_state R23) -/
  v : Vector Value 16
  /-- X0 to X15 (10_state R25) -/
  x : Vector Scalar 16
  /-- run state (10_state R26) -/
  run : RunState
  /-- STATUS[4:0] (10_state R29) -/
  status : BitVec 5
  /-- DPCHAR[7:0] (10_state R30) -/
  dpchar : Byte
  /-- FMTCTL[4:0]: SIGN, ZEROPAD, ALTDP, LEFT (10_state R31) -/
  fmtctl : BitVec 5
  /-- FMTWIDTH, 0 to 2^31-1 (10_state R32) -/
  fmtwidth : BitVec 31
  /-- FMTPREC, -1 to 2^31-1 in two's complement (10_state R33) -/
  fmtprec : BitVec 32
  /-- FAULT[7:0] (10_state R35) -/
  fault : BitVec 8
  /-- FCMD (10_state R36) -/
  fcmd : Command
  /-- FADDR (10_state R37) -/
  faddr : Scalar
  /-- DMEM_SIZE (00_scope R3), which CFG reports (10_state R28); never changed -/
  dmemSize : Nat
  /-- DMEM (20_memory R60) -/
  mem : Memory
  /-- the host's coming transactions, oldest first (log 3) -/
  host : List HostTxn
  /-- what the host got back, newest first (log 5) -/
  replies : List Reply
  /-- how many free bytes have been drawn (log 6) -/
  freeIndex : Nat
deriving DecidableEq, Repr

/-- Why the machine stops with a fault: nothing does. A fault of the spec is a NEXT state, FAULTED (60_exceptions R302), and
every command ends (R322), so this type has no constructor (log 10). -/
inductive Fault where
deriving DecidableEq, Repr

/-- Why the machine has no meaning for a command. -/
inductive Refusal where
  /-- Raised by `exec` alone, for a command that has no meaning yet; no arm of this model raises it. Safe: the machine stops. -/
  | notModelled (mnemonic : String)
deriving DecidableEq, Repr

/-- The CORE after power-on, before the first host transaction (70_reset_and_hazards R340, R341; 10_state R39), with a DMEM
of the given size and the given power-on contents, which the spec leaves unspecified. -/
def State.powerOn (dmemSize : Nat) (mem : Memory) : State where
  v := Vector.replicate 16 0
  x := Vector.replicate 16 0
  run := .idle
  status := 0
  dpchar := 0x2E
  fmtctl := 0
  fmtwidth := 0
  fmtprec := -1
  fault := 0
  fcmd := 0
  faddr := 0
  dmemSize := dmemSize
  mem := mem
  host := []
  replies := []
  freeIndex := 0

/-- The machine right after reset. DESIGN CHOICE (logs 1, 2), unsafe: DMEM_SIZE and the power-on contents, which the spec
leaves open, are 0x10000 and all unlisted here; every other field is the spec's value. -/
def State.reset : State := State.powerOn Config.resetDmemSize []

end Sys2Proof.Machine
end

