-- ==== Sys2Proof/Machine/Ops.lean ====
section
/-! DEFINITION. The named operations over DMEM, the registers and the control registers, and fault entry and clearing
(spec/20_memory.md, spec/10_state.md, spec/60_exceptions.md). -/

namespace Sys2Proof.Machine

/-- The answer of a meaning. -/
abbrev Result := Host.Outcome State Fault Refusal

/-! Bytes of DMEM. -/

/-- What an address that is not listed reads as. DESIGN CHOICE (log 2), unsafe for claims about `State.reset` alone: the
power-on contents are unspecified (20_memory R72). -/
def Memory.unlisted : Byte := 0

/-- The byte at an address (20_memory R60, R66: a read changes nothing). -/
def Memory.read : Memory → Nat → Byte
  | [], _ => Memory.unlisted
  | c :: m, a => if c.1 = a then c.2 else Memory.read m a

/-- The memory with every entry for an address taken out. -/
def Memory.erase : Memory → Nat → Memory
  | [], _ => []
  | c :: m, a => if c.1 = a then Memory.erase m a else c :: Memory.erase m a

/-- The memory with an entry put before the first higher address. -/
def Memory.insert : Memory → Nat → Byte → Memory
  | [], a, b => [(a, b)]
  | c :: m, a, b => if a < c.1 then (a, b) :: c :: m else c :: Memory.insert m a b

/-- The memory with one byte written, canonical form kept: writing what an unlisted address reads as removes the entry. -/
def Memory.write (m : Memory) (a : Nat) (b : Byte) : Memory :=
  if b = Memory.unlisted then m.erase a else Memory.insert (m.erase a) a b

/-- The canonical form: addresses strictly rising, no entry equal to what an unlisted address reads as. -/
def Memory.wf : Memory → Bool
  | [] => true
  | c :: m => c.2 != Memory.unlisted && m.all (fun e => c.1 < e.1) && Memory.wf m

/-- n bytes from an address on, lowest address first. -/
def Memory.readBytes (m : Memory) (a : Nat) : Nat → List Byte
  | 0 => []
  | n + 1 => m.read a :: m.readBytes (a + 1) n

/-- Bytes written from an address on, lowest address first. -/
def Memory.writeBytes (m : Memory) (a : Nat) : List Byte → Memory
  | [] => m
  | b :: bs => (m.write a b).writeBytes (a + 1) bs

/-- The n-byte little-endian image of an integer: byte i is (v div 2^(8i)) mod 256 (20_memory R61). -/
def leBytes : Nat → Nat → List Byte
  | 0, _ => []
  | n + 1, v => BitVec.ofNat 8 v :: leBytes n (v / 256)

/-- The integer of a little-endian image: the sum of byte i times 2^(8i) (20_memory R61). -/
def ofLeBytes : List Byte → Nat
  | [] => 0
  | b :: bs => b.toNat + 256 * ofLeBytes bs

/-- The 32-byte image of a value: lo half first, each half little-endian (20_memory R62). -/
def valueBytes (v : Value) : List Byte := leBytes 32 v.toNat

/-- The 8-byte little-endian image of a scalar (20_memory R63). -/
def scalarBytes (x : Scalar) : List Byte := leBytes 8 x.toNat

/-- Is an access of n bytes at an address in range (20_memory R61)? Addresses are unbounded and never wrap. -/
def State.inRange (s : State) (a n : Nat) : Bool := a + n ≤ s.dmemSize

/-- `MemRead(a, n)` for an access in range (20_memory R61). -/
def State.memRead (s : State) (a n : Nat) : Nat := ofLeBytes (s.mem.readBytes a n)

/-- Bytes stored from an address on, for an access in range (20_memory R61). -/
def State.store (s : State) (a : Nat) (bs : List Byte) : State :=
  { s with mem := s.mem.writeBytes a bs }

/-- `MemByte(q)`, range-checked: the first needed byte outside DMEM is reported by its address (47_parse R250, 46_format R232). -/
def State.memByte (s : State) (q : Nat) : Except Nat Byte :=
  if q < s.dmemSize then .ok (s.mem.read q) else .error q

/-! Registers (10_state R23, R25): none is hardwired, none has an alias. -/

/-- `V[i]`. -/
def State.getV (s : State) (i : VReg) : Value := s.v[i.toNat]'i.isLt

/-- `V[i] <- v`. -/
def State.setV (s : State) (i : VReg) (w : Value) : State :=
  { s with v := s.v.set i.toNat w i.isLt }

/-- `X[i]`. -/
def State.getX (s : State) (i : XReg) : Scalar := s.x[i.toNat]'i.isLt

/-- `X[i] <- x`. -/
def State.setX (s : State) (i : XReg) (w : Scalar) : State :=
  { s with x := s.x.set i.toNat w i.isLt }

/-! Control registers. -/

/-- `CsrRead(c)` (49_control R290): the 64-bit value a read returns. -/
def State.csrRead (s : State) : Csr → Scalar
  | .cfg => BitVec.ofNat 64 s.dmemSize
  | .status => s.status.setWidth 64
  | .dpchar => s.dpchar.setWidth 64
  | .fmtctl => s.fmtctl.setWidth 64
  | .fmtwidth => s.fmtwidth.setWidth 64
  | .fmtprec => s.fmtprec.signExtend 64
  | .fault => s.fault.setWidth 64
  | .fcmd => s.fcmd.setWidth 64
  | .faddr => s.faddr

/-- What a write to FMTCTL stores: the five low bits, but SIGN = 3 stores SIGN = 0 (10_state R31). -/
def fmtctlStored (d : Scalar) : BitVec 5 :=
  if d.extractLsb' 0 2 = 3#2 then d.setWidth 5 &&& 0b11100#5 else d.setWidth 5

/-- What a write to FMTWIDTH stores: min(d, 2^31 - 1), d unsigned (10_state R32). -/
def fmtwidthStored (d : Scalar) : BitVec 31 := BitVec.ofNat 31 (min d.toNat (2 ^ 31 - 1))

/-- What a write to FMTPREC stores: -1 for a negative d, else min(d, 2^31 - 1) (10_state R33). -/
def fmtprecStored (d : Scalar) : BitVec 32 :=
  if d.toInt < 0 then -1 else BitVec.ofInt 32 (min d.toInt (2 ^ 31 - 1))

/-- A write to a control register under its write rule (49_control R291); a register commands may not write is left as it is. -/
def State.csrWrite (s : State) (c : Csr) (d : Scalar) : State :=
  match c with
  | .status => { s with status := d.setWidth 5 }
  | .dpchar => { s with dpchar := d.setWidth 8 }
  | .fmtctl => { s with fmtctl := fmtctlStored d }
  | .fmtwidth => { s with fmtwidth := fmtwidthStored d }
  | .fmtprec => { s with fmtprec := fmtprecStored d }
  | .cfg | .fault | .fcmd | .faddr => s

/-! Faults (60_exceptions R300 to R305). -/

/-- The fault causes (60_exceptions R300); MEM_RANGE carries the lowest address of the access outside DMEM. -/
inductive Trap where
  | illegalOpcode
  | illegalField
  | memRange (a : Nat)
  | divPrecond
  | fmtCapacity
deriving DecidableEq, Repr

/-- The code FAULT holds (60_exceptions R300). -/
def Trap.code : Trap → BitVec 8
  | .illegalOpcode => 1
  | .illegalField => 2
  | .memRange _ => 3
  | .divPrecond => 4
  | .fmtCapacity => 5

/-- The address FADDR holds: addr mod 2^64 for MEM_RANGE, 0 for any other cause (60_exceptions R302, 10_state R37). -/
def Trap.faddr : Trap → Scalar
  | .memRange a => BitVec.ofNat 64 a
  | .illegalOpcode | .illegalField | .divPrecond | .fmtCapacity => 0

/-- Fault entry for the command word w: FAULT, FCMD, FADDR and the run state, and nothing else (60_exceptions R302). -/
def State.raise (s : State) (w : Command) (t : Trap) : State :=
  { s with fault := t.code, fcmd := w, faddr := t.faddr, run := .faulted }

/-- The host's clearing of a fault, which is not a return: FAULT, FCMD, FADDR become 0 and FAULTED becomes IDLE
(60_exceptions R305, 10_state R35). -/
def State.clearFault (s : State) : State :=
  { s with fault := 0, fcmd := 0, faddr := 0,
           run := if s.run = .faulted then .idle else s.run }

/-- A command that faults: the fault entry is its next state (60_exceptions R301, R303). -/
def trap (i : Instr) (t : Trap) (s : State) : Result := .next (s.raise (encode i) t)

/-- The trap of an access whose lowest byte is at a (20_memory R61): FADDR receives max(a, DMEM_SIZE) mod 2^64. -/
def State.rangeTrap (s : State) (a : Nat) : Trap := .memRange (max a s.dmemSize)

/-- The trap of a word that is no command (30_encoding R86, R87). -/
def illegalTrap : IllegalWord → Trap
  | .opcode => .illegalOpcode
  | .field => .illegalField

/-! Reset. -/

/-- The RESET event (70_reset_and_hazards R340): every register and the run state at its reset value; DMEM, DMEM_SIZE and the
model's own fields are kept. -/
def State.applyReset (s : State) : State :=
  { State.powerOn s.dmemSize s.mem with host := s.host, replies := s.replies, freeIndex := s.freeIndex }

/-- n free bytes, the first numbered k (log 6). -/
def freeBytes (k : Nat) : Nat → List Byte
  | 0 => []
  | n + 1 => Config.freeByte k :: freeBytes (k + 1) n

/-- DMEM after a command that would have written n bytes at a was abandoned: each of them is any value
(20_memory R72, 70_reset_and_hazards R342). -/
def State.scramble (s : State) (a n : Nat) : State :=
  { s with mem := s.mem.writeBytes a (freeBytes s.freeIndex n), freeIndex := s.freeIndex + n }

end Sys2Proof.Machine
end

