-- ==== Sys2Proof/Machine/Operands.lean ====
section
/-! DEFINITION. The operand forms of spec/30_encoding.md R84 and the readings of a pattern as an integer
(spec/00_scope.md, section 5; spec/10_state.md R20). -/

namespace Sys2Proof.Machine

/-- The fractional half v[127:0] (10_state R20). -/
def lo (v : Value) : BitVec 128 := v.extractLsb' 0 128

/-- The integer and sign half v[255:128] (10_state R20). -/
def hi (v : Value) : BitVec 128 := v.extractLsb' 128 128

/-- The value with the given halves, `{h, l}` (00_scope, section 5). -/
def ofHalves (h l : BitVec 128) : Value := h ++ l

/-- `u256(n)` for a natural number: n mod 2^256. -/
def u256 (n : Nat) : Value := BitVec.ofNat 256 n

/-- The half of a value that a selector picks (30_encoding R84). -/
def half (h : Half) (v : Value) : BitVec 128 :=
  match h with
  | .lo => lo v
  | .hi => hi v

/-- Is a value negative: bit 255 (10_state R20). -/
def isNeg (v : Value) : Bool := v.msb

/-- `EA = X[a] + zext_64(off16)` as an unbounded integer, not reduced mod 2^64 (40_move_memory R104). -/
def State.ea (s : State) (a : XReg) (off : BitVec 16) : Nat := (s.getX a).toNat + off.toNat

/-- The immediate of LIX: `sext_64(w[15:0])` (30_encoding R84). -/
def imm16 (imm : BitVec 16) : Scalar := imm.signExtend 64

/-- The shift amount in a scalar register: `X[b] mod 256` (41_bitwise_shift R125). -/
def State.shiftAmount (s : State) (b : XReg) : Nat := (s.getX b).toNat % 256

/-- The constants of 10_state R22 that CONST loads: ZERO, ONE, SMALLEST, MIN, MAX. -/
def constValue : ConstName → Value
  | .zero => 0
  | .one => ofHalves 1 0
  | .smallest => ofHalves 0 1
  | .min => u256 (2 ^ 255)
  | .max => u256 (2 ^ 255 - 1)

/-- MIN, the negative saturation value (10_state R22). -/
def minValue : Value := constValue .min

/-- MAX, the positive saturation value (10_state R22). -/
def maxValue : Value := constValue .max

/-- THREE_HALVES, which CONST does not load (10_state R22, 44_sqrt_rsqrt R194). -/
def threeHalves : Value := ofHalves 1 (BitVec.ofNat 128 (2 ^ 127))

end Sys2Proof.Machine
end

