-- ==== Sys2Proof/Machine/Flags.lean ====
section
/-! DEFINITION. The sticky STATUS flags (spec/10_state.md R29). Commands only ever set them; CSRW STATUS and the host
replace the whole field. -/

namespace Sys2Proof.Machine

/-- The five flags of STATUS (10_state R29). -/
inductive Flag where
  | dz
  | ovf
  | inv
  | rng
  | trunc
deriving DecidableEq, Repr

/-- The flag's bit in STATUS (10_state R29). -/
def Flag.mask : Flag → BitVec 5
  | .dz => 0b00001#5
  | .ovf => 0b00010#5
  | .inv => 0b00100#5
  | .rng => 0b01000#5
  | .trunc => 0b10000#5

/-- `set FLAG`: the flag is OR-ed to 1 (00_scope, section 5). -/
def State.setFlag (s : State) (f : Flag) : State := { s with status := s.status ||| f.mask }

/-- `for F in f: set F`. -/
def State.setFlags (s : State) : List Flag → State
  | [] => s
  | f :: fs => (s.setFlag f).setFlags fs

end Sys2Proof.Machine
end

