-- ==== Sys2Proof/Machine/Additive.lean ====
section
/-! DEFINITION. Additive, sign and compare commands (spec/42_additive.md). No command here sets a flag. -/

namespace Sys2Proof.Machine

/-- `Neg(v) = u256(-v)` (R142). -/
def neg (v : Value) : Value := u256 (2 ^ 256 - v.toNat)

/-- `Abs(v)` (R144); as an unsigned number it is the magnitude, 2^255 for MIN. -/
def abs (v : Value) : Value := if isNeg v then neg v else v

/-- `Cmp(a, b)` (R148): the exact signed three-way compare. -/
def cmp (a b : Value) : Int :=
  if a.toInt < b.toInt then -1 else if a.toInt = b.toInt then 0 else 1

/-- The unsigned three-way compare of the patterns (R150). -/
def ucmp (a b : Value) : Int :=
  if a.toNat < b.toNat then -1 else if a.toNat = b.toNat then 0 else 1

/-- ADD (R140): the wrapping sum. -/
def execAdd (d a b : VReg) (s : State) : Result := .next (s.setV d (s.getV a + s.getV b))

/-- SUB (R141): the wrapping difference. -/
def execSub (d a b : VReg) (s : State) : Result := .next (s.setV d (s.getV a - s.getV b))

/-- NEG (R143). -/
def execNeg (d a : VReg) (s : State) : Result := .next (s.setV d (neg (s.getV a)))

/-- ABS (R145). -/
def execAbs (d a : VReg) (s : State) : Result := .next (s.setV d (abs (s.getV a)))

/-- NABS (R146): the value itself if it is negative, else its negation. -/
def execNabs (d a : VReg) (s : State) : Result :=
  .next (s.setV d (if isNeg (s.getV a) then s.getV a else neg (s.getV a)))

/-- ISNEG (R147). -/
def execIsneg (d : XReg) (a : VReg) (s : State) : Result :=
  .next (s.setX d (if isNeg (s.getV a) then 1 else 0))

/-- CMP (R149): -1, 0 or 1 as a 64-bit integer. -/
def execCmp (d : XReg) (a b : VReg) (s : State) : Result :=
  .next (s.setX d (BitVec.ofInt 64 (cmp (s.getV a) (s.getV b))))

/-- UCMP (R150). -/
def execUcmp (d : XReg) (a b : VReg) (s : State) : Result :=
  .next (s.setX d (BitVec.ofInt 64 (ucmp (s.getV a) (s.getV b))))

/-- MIN (R151). -/
def execMin (d a b : VReg) (s : State) : Result :=
  .next (s.setV d (if cmp (s.getV a) (s.getV b) ≤ 0 then s.getV a else s.getV b))

/-- MAX (R152). -/
def execMax (d a b : VReg) (s : State) : Result :=
  .next (s.setV d (if cmp (s.getV a) (s.getV b) ≥ 0 then s.getV a else s.getV b))

end Sys2Proof.Machine
end

