-- ==== Sys2Proof/Machine/Bitwise.lean ====
section
/-! DEFINITION. Bitwise, shift and count-leading-zeros commands (spec/41_bitwise_shift.md). -/

namespace Sys2Proof.Machine

/-- `Shl(v, n)` (R124): the amount is taken mod 256; bits shifted out are lost. -/
def shl (v : Value) (n : Nat) : Value := v <<< (n % 256)

/-- `Shr(v, n)` (R124): zero fill. -/
def shr (v : Value) (n : Nat) : Value := v >>> (n % 256)

/-- `Sar(v, n)` (R124): sign fill, rounding toward minus infinity. -/
def sar (v : Value) (n : Nat) : Value := v.sshiftRight (n % 256)

/-- `Clz128(x)` (R131): 128 minus the bit length, 128 for 0. -/
def clz128 (x : BitVec 128) : Nat := 128 - (if x.toNat = 0 then 0 else Nat.log2 x.toNat + 1)

/-- NOT (R120). -/
def execNot (d a : VReg) (s : State) : Result := .next (s.setV d (~~~ s.getV a))

/-- AND (R121). -/
def execAnd (d a b : VReg) (s : State) : Result := .next (s.setV d (s.getV a &&& s.getV b))

/-- OR (R122). -/
def execOr (d a b : VReg) (s : State) : Result := .next (s.setV d (s.getV a ||| s.getV b))

/-- XOR (R123). -/
def execXor (d a b : VReg) (s : State) : Result := .next (s.setV d (s.getV a ^^^ s.getV b))

/-- SHL (R125). -/
def execShl (d a : VReg) (b : XReg) (s : State) : Result :=
  .next (s.setV d (shl (s.getV a) (s.shiftAmount b)))

/-- SHR (R126). -/
def execShr (d a : VReg) (b : XReg) (s : State) : Result :=
  .next (s.setV d (shr (s.getV a) (s.shiftAmount b)))

/-- SAR (R127). -/
def execSar (d a : VReg) (b : XReg) (s : State) : Result :=
  .next (s.setV d (sar (s.getV a) (s.shiftAmount b)))

/-- SHLI (R128). -/
def execShli (d a : VReg) (n : BitVec 8) (s : State) : Result :=
  .next (s.setV d (shl (s.getV a) n.toNat))

/-- SHRI (R129). -/
def execShri (d a : VReg) (n : BitVec 8) (s : State) : Result :=
  .next (s.setV d (shr (s.getV a) n.toNat))

/-- SARI (R130). -/
def execSari (d a : VReg) (n : BitVec 8) (s : State) : Result :=
  .next (s.setV d (sar (s.getV a) n.toNat))

/-- CLZ (R132): the count of one half. -/
def execClz (d : XReg) (a : VReg) (h : Half) (s : State) : Result :=
  .next (s.setX d (BitVec.ofNat 64 (clz128 (half h (s.getV a)))))

end Sys2Proof.Machine
end

