-- ==== Sys2Proof/Machine/Control.lean ====
section
/-! DEFINITION. Control-register commands (spec/49_control.md). -/

namespace Sys2Proof.Machine

/-- CSRR (R290): the register's 64-bit read value; no side effect. -/
def execCsrr (d : XReg) (c : Csr) (s : State) : Result := .next (s.setX d (s.csrRead c))

/-- CSRW (R291): X[a] under the register's write rule; a register commands may not write is ILLEGAL_FIELD (10_state R27).
The decoder rejects that word before it comes here (log 11). -/
def execCsrw (c : Csr) (a : XReg) (s : State) : Result :=
  if c.writable then .next (s.csrWrite c (s.getX a)) else trap (.csrw c a) .illegalField s

end Sys2Proof.Machine
end

