-- ==== Sys2Proof/Machine/Convert.lean ====
section
/-! DEFINITION. Integer and binary64 conversions (spec/48_conversions.md). Magnitudes of doubles are natural numbers in
units of 2^-1074, of which every finite double is a multiple (R272). -/

namespace Sys2Proof.Machine

/-- Biased exponent `x[62:52]` (R272). -/
def f64Exp (x : Scalar) : Nat := (x.extractLsb' 52 11).toNat

/-- Fraction `x[51:0]` (R272). -/
def f64Frac (x : Scalar) : Nat := (x.extractLsb' 0 52).toNat

/-- Is the pattern a NaN (R272). -/
def f64IsNaN (x : Scalar) : Bool := f64Exp x = 2047 ∧ f64Frac x ≠ 0

/-- Is the pattern an infinity (R272). -/
def f64IsInf (x : Scalar) : Bool := f64Exp x = 2047 ∧ f64Frac x = 0

/-- The magnitude of a finite pattern in units of 2^-1074 (R272): f for e = 0, else (2^52 + f) · 2^(e-1). -/
def f64Mag (x : Scalar) : Nat :=
  if f64Exp x = 0 then f64Frac x else (2 ^ 52 + f64Frac x) * 2 ^ (f64Exp x - 1)

/-- m divided by 2^k, rounded to nearest, ties to even. -/
def roundEven (m k : Nat) : Nat :=
  let q := m / 2 ^ k
  let r := m % 2 ^ k
  if 2 * r > 2 ^ k ∨ (2 * r = 2 ^ k ∧ q % 2 = 1) then q + 1 else q

/-- `RNE` of the non-negative number m · 2^-1074 as a binary64 pattern without sign (R272): the 53 leading bits are kept,
rounded; the exponent counts the bits dropped; from the first pattern past the finite ones on, it is infinity. -/
def rne (m : Nat) : Nat :=
  let k := (if m = 0 then 0 else Nat.log2 m + 1) - 53
  min (k * 2 ^ 52 + roundEven m k) (2047 * 2 ^ 52)

/-- `FromFloat(x)` (R273). -/
def fromFloat (x : Scalar) : Value × List Flag :=
  if f64IsNaN x then (0, [.inv])
  else if x.msb = false ∧ (f64IsInf x ∨ f64Mag x ≥ 2 ^ 127 * 2 ^ 1074) then (constValue .max, [.rng])
  else if x.msb = true ∧ (f64IsInf x ∨ f64Mag x > 2 ^ 127 * 2 ^ 1074) then (constValue .min, [.rng])
  else
    let m := u256 (f64Mag x * 2 ^ 128 / 2 ^ 1074)
    (if x.msb then neg m else m, [])

/-- `ToFloat(v)` (R275): each half of the magnitude is rounded to a double, then the sum of the integer part and the scaled
fraction is. -/
def toFloat (v : Value) : Scalar :=
  let m := (abs v).toNat
  let h := f64Mag (BitVec.ofNat 64 (rne (m / 2 ^ 128 * 2 ^ 1074)))
  let f := f64Mag (BitVec.ofNat 64 (rne (m % 2 ^ 128 * 2 ^ 1074))) / 2 ^ 128
  let r := BitVec.ofNat 64 (rne (h + f))
  if isNeg v then r ||| BitVec.ofNat 64 (2 ^ 63) else r

/-- The rounded integer half that TOINT takes the low 64 bits of (R271). -/
def toIntHalf (v : Value) : BitVec 128 := hi v + (if isNeg v ∧ lo v ≠ 0 then 1 else 0)

/-- FROMINT (R270). -/
def execFromint (d : VReg) (a : XReg) (s : State) : Result :=
  .next (s.setV d (BitVec.ofInt 256 ((s.getX a).toInt * 2 ^ 128)))

/-- TOINT (R271): the low 64 bits of the integer part, rounded toward zero; no flag. -/
def execToint (d : XReg) (a : VReg) (s : State) : Result :=
  .next (s.setX d ((toIntHalf (s.getV a)).setWidth 64))

/-- FROMF (R274). -/
def execFromf (d : VReg) (a : XReg) (s : State) : Result :=
  let r := fromFloat (s.getX a)
  .next ((s.setV d r.1).setFlags r.2)

/-- TOF (R276). -/
def execTof (d : XReg) (a : VReg) (s : State) : Result := .next (s.setX d (toFloat (s.getV a)))

end Sys2Proof.Machine
end

