-- ==== Sys2Proof/Machine/Format.lean ====
section
/-! DEFINITION. The decimal formatter and the format-string parser (spec/46_format.md). A string is held as runs (count,
byte), so that its length is a sum and its first bytes are taken without writing out long paddings. -/

namespace Sys2Proof.Machine

/-- The sign styles of a format record (10_state R31). -/
inductive SignStyle where
  | default
  | space
  | plus
deriving DecidableEq, Repr

/-- A format record (10_state R34). -/
structure FormatRecord where
  sign : SignStyle
  width : Nat
  precision : Int
  zeroPad : Bool
  alwaysDecimal : Bool
  leftAlign : Bool
deriving DecidableEq, Repr

/-- The default record (10_state R34). -/
def defaultRecord : FormatRecord where
  sign := .default
  width := 0
  precision := -1
  zeroPad := false
  alwaysDecimal := false
  leftAlign := false

/-- The style FMTCTL.SIGN names (10_state R31). SIGN = 3 is never stored; read as Default where a state holds it
(DESIGN CHOICE, log 13). -/
def signOf (n : BitVec 2) : SignStyle :=
  if n = 1 then .space else if n = 2 then .plus else .default

/-- FMTCTL.SIGN of a style (46_format R233). -/
def SignStyle.code : SignStyle → Nat
  | .default => 0
  | .space => 1
  | .plus => 2

/-- The record FMT reads from FMTCTL, FMTWIDTH and FMTPREC (10_state R34). -/
def State.formatRecord (s : State) : FormatRecord where
  sign := signOf (s.fmtctl.extractLsb' 0 2)
  width := s.fmtwidth.toNat
  precision := s.fmtprec.toInt
  zeroPad := s.fmtctl.getLsbD 2
  alwaysDecimal := s.fmtctl.getLsbD 3
  leftAlign := s.fmtctl.getLsbD 4

/-! The string. -/

/-- A byte string as runs: each pair is a count and the byte repeated that often. -/
abbrev Runs := List (Nat × Byte)

/-- The length of a string of runs. -/
def Runs.length : Runs → Nat
  | [] => 0
  | r :: rs => r.1 + Runs.length rs

/-- The first n bytes of a string of runs. -/
def Runs.take : Runs → Nat → List Byte
  | [], _ => []
  | r :: rs, n => List.replicate (min r.1 n) r.2 ++ Runs.take rs (n - r.1)

/-- The string, written out. -/
def Runs.bytes (r : Runs) : List Byte := Runs.take r (Runs.length r)

/-- The byte of a decimal digit (R227). -/
def digitByte (d : Nat) : Byte := BitVec.ofNat 8 (0x30 + d)

/-- The fractional digits, the residual fraction, and whether the loop stopped because all digits were out (R224). The first
argument is how many digits may still come. -/
def fracDigits (full : Bool) : Nat → Nat → List Nat × Nat × Bool
  | 0, frac => ([], frac, true)
  | n + 1, frac =>
    if full = false ∧ frac = 0 then ([], frac, false)
    else
      let p := frac * 10
      let r := fracDigits full n (p % 2 ^ 128)
      ((p / 2 ^ 128) :: r.1, r.2)

/-- One added to the last digit, carries walking to the left; true when the carry escapes (R225). -/
def bumpDigits : List Nat → List Nat × Bool
  | [] => ([], true)
  | d :: ds =>
    let r := bumpDigits ds
    if r.2 then (if d + 1 ≤ 9 then ((d + 1) :: r.1, false) else (0 :: r.1, true))
    else (d :: r.1, false)

/-- Fractional digits and integer part after rounding (R224, R225): the digits are bumped when the loop stopped at the
precision and the residual's bit 127 is set. -/
def roundedDigits (whole frac p : Nat) (full : Bool) : List Nat × Nat :=
  let r := fracDigits full p frac
  if r.2.2 = true ∧ r.2.1 ≥ 2 ^ 127 then
    let b := bumpDigits r.1
    (b.1, whole + (if b.2 then 1 else 0))
  else (r.1, whole)

/-- The decimal digits of n in front of the given ones, at least one digit; the first argument bounds the digits (R227). -/
def intDigits : Nat → Nat → List Nat → List Nat
  | 0, _, ds => ds
  | k + 1, n, ds => if n / 10 = 0 then (n % 10) :: ds else intDigits k (n / 10) ((n % 10) :: ds)

/-- The digits of an integer part; it is at most 2^127 + 1, which has 39 digits (R225, R227). -/
def wholeDigits (n : Nat) : List Nat := intDigits 78 n []

/-- The sign string (R221). -/
def signBytes (negative : Bool) : SignStyle → List Byte
  | style =>
    if negative then [0x2D]
    else match style with
      | .plus => [0x2B]
      | .space => [0x20]
      | .default => []

/-- Digits as runs. -/
def digitRuns (ds : List Nat) : Runs := ds.map fun d => (1, digitByte d)

/-- The precision before the split and whether it is a full one (R222). -/
def recordPrecision (fr : FormatRecord) : Nat × Bool :=
  if fr.precision < 0 then (Config.autoDigits, false) else (fr.precision.toNat, true)

/-- The body: integer digits, the point unless R226 omits it, fractional digits, split-off zeros (R222, R226, R227). -/
def bodyRuns (m : Nat) (fr : FormatRecord) (dp : Byte) : Runs :=
  let pf := recordPrecision fr
  let p := min pf.1 Config.fmtSplit
  let trail := pf.1 - p
  let r := roundedDigits (m / 2 ^ 128) (m % 2 ^ 128) p pf.2
  let omitPoint := p = 0 ∧ fr.alwaysDecimal = false ∧ r.1 = []
  digitRuns (wholeDigits r.2) ++ (if omitPoint then [] else [(1, dp)]) ++ digitRuns r.1 ++ [(trail, 0x30)]

/-- `Format(v, FR, dp)` (R220): sign, body and padding (R228). Left alignment wins over zero padding. -/
def format (v : Value) (fr : FormatRecord) (dp : Byte) : Runs :=
  let sign : Runs := (signBytes (isNeg v) fr.sign).map fun b => (1, b)
  let body := bodyRuns (abs v).toNat fr dp
  let pad := fr.width - (Runs.length body + Runs.length sign)
  if fr.leftAlign then sign ++ body ++ [(pad, 0x20)]
  else if fr.zeroPad then sign ++ [(pad, 0x30)] ++ body
  else [(pad, 0x20)] ++ sign ++ body

/-! The buffer protocol. -/

/-- The bytes `WriteBuf` writes for a capacity of at least 1: as much of the string as leaves room for the NUL, then the NUL (R229). -/
def bufferBytes (cap : Nat) (str : Runs) : List Byte :=
  Runs.take str (min (Runs.length str) (cap - 1)) ++ [0]

/-- How many bytes `WriteBuf` writes (R229). -/
def bufferLength (cap : Nat) (str : Runs) : Nat := min (Runs.length str) (cap - 1) + 1

/-- The check of `WriteBuf` that fails first, if one does: capacity 0, then the range as one access (R229, 60_exceptions R304). -/
def State.bufferTrap (s : State) (a cap : Nat) (str : Runs) : Option Trap :=
  if cap = 0 then some .fmtCapacity
  else if s.inRange a (bufferLength cap str) then none
  else some (s.rangeTrap a)

/-- The flags of `WriteBuf`: TRUNC when the string did not fit (R229). -/
def bufferFlags (cap : Nat) (str : Runs) : List Flag :=
  if Runs.length str > cap - 1 then [.trunc] else []

/-- A formatting command i that writes the string at X[b] with capacity X[c] and its untruncated length to X[d] (R229, R230). -/
def formatTo (i : Instr) (d b c : XReg) (str : Runs) (s : State) : Result :=
  let a := (s.getX b).toNat
  let cap := (s.getX c).toNat
  match s.bufferTrap a cap str with
  | some t => trap i t s
  | none =>
    .next (((s.store a (bufferBytes cap str)).setX d (BitVec.ofNat 64 (Runs.length str))).setFlags (bufferFlags cap str))

/-- The string FMT writes (R230). -/
def State.fmtString (s : State) (a : VReg) : Runs := format (s.getV a) s.formatRecord s.dpchar

/-- The string FMTD writes: the default record, and still DPCHAR (R231). -/
def State.fmtdString (s : State) (a : VReg) : Runs := format (s.getV a) defaultRecord s.dpchar

/-- FMT (R230). -/
def execFmt (d : XReg) (a : VReg) (b c : XReg) (s : State) : Result :=
  formatTo (.fmt d a b c) d b c (s.fmtString a) s

/-- FMTD (R231). -/
def execFmtd (d : XReg) (a : VReg) (b c : XReg) (s : State) : Result :=
  formatTo (.fmtd d a b c) d b c (s.fmtdString a) s

/-! The format-string parser. -/

/-- A flag character's effect on the record, if it is one; ' ' does not override '+' (R232). -/
def flagChar (fr : FormatRecord) (c : Byte) : Option FormatRecord :=
  if c = 0x20 then some (if fr.sign = .plus then fr else { fr with sign := .space })
  else if c = 0x2B then some { fr with sign := .plus }
  else if c = 0x30 then some { fr with zeroPad := true }
  else if c = 0x2D then some { fr with leftAlign := true }
  else if c = 0x23 then some { fr with alwaysDecimal := true }
  else none

/-- The flags from address p on; left is how many bytes of DMEM stand at p and above (R232). -/
def State.scanFlags (s : State) : Nat → Nat → FormatRecord → Except Nat (FormatRecord × Nat)
  | 0, p, _ => .error p
  | left + 1, p, fr =>
    match s.memByte p with
    | .error q => .error q
    | .ok c =>
      match flagChar fr c with
      | some fr' => s.scanFlags left (p + 1) fr'
      | none => .ok (fr, p)

/-- Is a byte a decimal digit. -/
def isDecimal (c : Byte) : Bool := 0x30 ≤ c.toNat ∧ c.toNat ≤ 0x39

/-- A decimal number from address p on, saturating at 2^31 - 1 (R232). -/
def State.scanNumber (s : State) : Nat → Nat → Nat → Except Nat (Nat × Nat)
  | 0, p, _ => .error p
  | left + 1, p, n =>
    match s.memByte p with
    | .error q => .error q
    | .ok c =>
      if isDecimal c then s.scanNumber left (p + 1) (min (2 ^ 31 - 1) (10 * n + (c.toNat - 0x30)))
      else .ok (n, p)

/-- The optional precision at address p (R232). -/
def State.scanPrecision (s : State) (p : Nat) (fr : FormatRecord) : Except Nat FormatRecord :=
  match s.memByte p with
  | .error q => .error q
  | .ok c =>
    if c = 0x2E then
      match s.scanNumber (s.dmemSize - (p + 1)) (p + 1) 0 with
      | .error q => .error q
      | .ok n => .ok { fr with precision := n.1 }
    else .ok fr

/-- The address after an optional leading '%' (R232). -/
def State.skipPercent (s : State) (a : Nat) : Except Nat Nat :=
  match s.memByte a with
  | .error q => .error q
  | .ok c => .ok (if c = 0x25 then a + 1 else a)

/-- `FormatParse(A)` (R232): the record, or the address of the first needed byte outside DMEM. -/
def State.formatParse (s : State) (a : Nat) : Except Nat FormatRecord :=
  match s.skipPercent a with
  | .error q => .error q
  | .ok p =>
    match s.scanFlags (s.dmemSize - p) p defaultRecord with
    | .error q => .error q
    | .ok fp =>
      match s.scanNumber (s.dmemSize - fp.2) fp.2 0 with
      | .error q => .error q
      | .ok wp => s.scanPrecision wp.2 { fp.1 with width := wp.1 }

/-- FMTCTL for a record (R233). -/
def recordFmtctl (fr : FormatRecord) : BitVec 5 :=
  BitVec.ofNat 5 (fr.sign.code + 4 * fr.zeroPad.toNat + 8 * fr.alwaysDecimal.toNat + 16 * fr.leftAlign.toNat)

/-- The format control registers hold a record (R233): every field is written. -/
def State.setRecord (s : State) (fr : FormatRecord) : State :=
  { s with fmtctl := recordFmtctl fr, fmtwidth := BitVec.ofNat 31 fr.width, fmtprec := BitVec.ofInt 32 fr.precision }

/-- FMTPARSE (R233). -/
def execFmtparse (a : XReg) (s : State) : Result :=
  match s.formatParse (s.getX a).toNat with
  | .error q => trap (.fmtparse a) (s.rangeTrap q) s
  | .ok fr => .next (s.setRecord fr)

end Sys2Proof.Machine
end

