-- ==== Sys2Proof/Machine/Move.lean ====
section
/-! DEFINITION. Moves, constants, loads and stores (spec/40_move_memory.md). -/

namespace Sys2Proof.Machine

/-- NOP (R100): no effect. -/
def execNop (s : State) : Result := .next s

/-- MOVV (R101): `V[d] <- V[a]`. -/
def execMovv (d a : VReg) (s : State) : Result := .next (s.setV d (s.getV a))

/-- CONST (R102): the named constant. -/
def execConst (d : VReg) (k : ConstName) (s : State) : Result := .next (s.setV d (constValue k))

/-- LIX (R103): the sign-extended immediate. -/
def execLix (d : XReg) (imm : BitVec 16) (s : State) : Result := .next (s.setX d (imm16 imm))

/-- LDV (R105): the 32-byte image at EA, or MEM_RANGE. -/
def execLdv (d : VReg) (a : XReg) (off : BitVec 16) (s : State) : Result :=
  let ea := s.ea a off
  if s.inRange ea 32 then .next (s.setV d (u256 (s.memRead ea 32)))
  else trap (.ldv d a off) (s.rangeTrap ea) s

/-- STV (R106): the 32-byte image of V[d] at EA, or MEM_RANGE and no byte written. -/
def execStv (d : VReg) (a : XReg) (off : BitVec 16) (s : State) : Result :=
  let ea := s.ea a off
  if s.inRange ea 32 then .next (s.store ea (valueBytes (s.getV d)))
  else trap (.stv d a off) (s.rangeTrap ea) s

/-- LDX (R107): the 8-byte image at EA, or MEM_RANGE. -/
def execLdx (d : XReg) (a : XReg) (off : BitVec 16) (s : State) : Result :=
  let ea := s.ea a off
  if s.inRange ea 8 then .next (s.setX d (BitVec.ofNat 64 (s.memRead ea 8)))
  else trap (.ldx d a off) (s.rangeTrap ea) s

/-- STX (R108): the 8-byte image of X[d] at EA, or MEM_RANGE and no byte written. -/
def execStx (d : XReg) (a : XReg) (off : BitVec 16) (s : State) : Result :=
  let ea := s.ea a off
  if s.inRange ea 8 then .next (s.store ea (scalarBytes (s.getX d)))
  else trap (.stx d a off) (s.rangeTrap ea) s

end Sys2Proof.Machine
end

