-- ==== Sys2Proof/Machine/Rounding.lean ====
section
/-! DEFINITION. Rounding commands (spec/45_rounding.md). The integer half is computed mod 2^128. -/

namespace Sys2Proof.Machine

/-- FLOOR's function (R210): the fractional half cleared. -/
def floor (v : Value) : Value := ofHalves (hi v) 0

/-- CEIL's function (R211). -/
def ceil (v : Value) : Value := ofHalves (hi v + (if lo v = 0 then 0 else 1)) 0

/-- ROUND's function (R212): half away from zero. -/
def round (v : Value) : Value :=
  let t := 2 ^ 127 + (if isNeg v then 1 else 0)
  ofHalves (hi v + (if t ≤ (lo v).toNat then 1 else 0)) 0

/-- `Trunc0(v)` (R213): truncation toward zero; not a command. -/
def trunc0 (v : Value) : Value := if isNeg v then ceil v else floor v

/-- FLOOR (R210). -/
def execFloor (d a : VReg) (s : State) : Result := .next (s.setV d (floor (s.getV a)))

/-- CEIL (R211). -/
def execCeil (d a : VReg) (s : State) : Result := .next (s.setV d (ceil (s.getV a)))

/-- ROUND (R212). -/
def execRound (d a : VReg) (s : State) : Result := .next (s.setV d (round (s.getV a)))

end Sys2Proof.Machine
end

