-- ==== Sys2Proof/Machine/MulDiv.lean ====
section
/-! DEFINITION. Wide and fixed-point multiply, divide and modulo (spec/43_muldiv.md): exact integers, narrowed at the end. -/

namespace Sys2Proof.Machine

/-- `WideMul(a, b)` (R160): the exact product. -/
def wideMul (a b : BitVec 128) : Value := u256 (a.toNat * b.toNat)

/-- `WideDiv(n, d)` (R162): quotient and remainder, for d ≠ 0 and n div 2^128 < d. -/
def wideDiv (n d : Nat) : Nat × Nat := (n / d, n % d)

/-- `FxMulU(a, b)` (R165): the product shifted right by 128, rounded by its bit 127, mod 2^256. -/
def fxMulU (a b : Value) : Value :=
  let p := a.toNat * b.toNat
  u256 (p / 2 ^ 128 + p / 2 ^ 127 % 2)

/-- `FxMul(a, b)` (R166): the signed product of the magnitudes' product. -/
def fxMul (a b : Value) : Value :=
  let r := fxMulU (abs a) (abs b)
  if isNeg a != isNeg b then neg r else r

/-- The saturated result for a sign: MIN if negative, else MAX (R168). -/
def saturated (negative : Bool) : Value := if negative then minValue else maxValue

/-- `FxDiv(a, b)` (R168): the truncated quotient, saturated with DZ or OVF. -/
def fxDiv (a b : Value) : Value × List Flag :=
  if b = 0 then (saturated (isNeg a), [.dz])
  else
    let sg := isNeg a != isNeg b
    let q := (abs a).toNat * 2 ^ 128 / (abs b).toNat
    if q > 2 ^ 255 - 1 then (saturated sg, [.ovf])
    else (if sg then neg (u256 q) else u256 q, [])

/-- `FxMod(a, b)` (R171): `a - Trunc0(a / b) · b`, with the quotient's flags. -/
def fxMod (a b : Value) : Value × List Flag :=
  if b = 0 then (saturated (isNeg a), [.dz])
  else
    let q := fxDiv a b
    (a - fxMul (trunc0 q.1) b, q.2)

/-- UMUL (R161). -/
def execUmul (d a b : VReg) (ha hb : Half) (s : State) : Result :=
  .next (s.setV d (wideMul (half ha (s.getV a)) (half hb (s.getV b))))

/-- UDIV (R163): quotient to lo, remainder to hi; DIV_PRECOND when the divisor is 0 or hi(N) ≥ D. -/
def execUdiv (d a b : VReg) (h : Half) (s : State) : Result :=
  let n := s.getV a
  let dv := half h (s.getV b)
  if dv = 0 ∨ (hi n).toNat ≥ dv.toNat then trap (.udiv d a b h) .divPrecond s
  else
    let qr := wideDiv n.toNat dv.toNat
    .next (s.setV d (u256 (qr.2 * 2 ^ 128 + qr.1)))

/-- MUL (R167): no flag. -/
def execMul (d a b : VReg) (s : State) : Result := .next (s.setV d (fxMul (s.getV a) (s.getV b)))

/-- DIV (R170): a zero divisor or an overflow saturates and sets a flag; it is not a fault. -/
def execDiv (d a b : VReg) (s : State) : Result :=
  let r := fxDiv (s.getV a) (s.getV b)
  .next ((s.setV d r.1).setFlags r.2)

/-- MOD (R172). -/
def execMod (d a b : VReg) (s : State) : Result :=
  let r := fxMod (s.getV a) (s.getV b)
  .next ((s.setV d r.1).setFlags r.2)

end Sys2Proof.Machine
end

