-- ==== Sys2Proof/Machine/Parse.lean ====
section
/-! DEFINITION. The decimal and hexadecimal parser (spec/47_parse.md). A scan's first argument is how many bytes of DMEM
stand at its address and above, so it ends at the latest at the end of DMEM (60_exceptions R322). -/

namespace Sys2Proof.Machine

/-- The whitespace of R251: space, tab, carriage return, line feed, vertical tab. -/
def isSpace (c : Byte) : Bool := c = 0x20 ∨ c = 0x09 ∨ c = 0x0D ∨ c = 0x0A ∨ c = 0x0B

/-- The value of a digit in base 10 or 16 (R254). -/
def digitValue (base : Nat) (c : Byte) : Option Nat :=
  if 0x30 ≤ c.toNat ∧ c.toNat ≤ 0x39 then some (c.toNat - 0x30)
  else if base = 16 ∧ 0x61 ≤ c.toNat ∧ c.toNat ≤ 0x66 then some (c.toNat - 0x61 + 10)
  else if base = 16 ∧ 0x41 ≤ c.toNat ∧ c.toNat ≤ 0x46 then some (c.toNat - 0x41 + 10)
  else none

/-- The address after the whitespace (R251). -/
def State.skipSpaces (s : State) : Nat → Nat → Except Nat Nat
  | 0, p => .error p
  | left + 1, p =>
    match s.memByte p with
    | .error q => .error q
    | .ok c => if isSpace c then s.skipSpaces left (p + 1) else .ok p

/-- Whether a '-' stands at p, and the address after an optional sign (R252). -/
def State.scanSign (s : State) (p : Nat) : Except Nat (Bool × Nat) :=
  match s.memByte p with
  | .error q => .error q
  | .ok c => .ok (if c = 0x2B then (false, p + 1) else if c = 0x2D then (true, p + 1) else (false, p))

/-- The base, and the address after an optional `0x` or `0X`; the second byte is read only after a '0' (R253). -/
def State.scanBase (s : State) (p : Nat) : Except Nat (Nat × Nat) :=
  match s.memByte p with
  | .error q => .error q
  | .ok c =>
    if c = 0x30 then
      match s.memByte (p + 1) with
      | .error q => .error q
      | .ok c' => .ok (if c' = 0x78 ∨ c' = 0x58 then (16, p + 2) else (10, p))
    else .ok (10, p)

/-- The digits from address p on, first digit first, and the address of the first byte that is none (R254). -/
def State.scanDigits (s : State) (base : Nat) : Nat → Nat → Except Nat (List Nat × Nat)
  | 0, p => .error p
  | left + 1, p =>
    match s.memByte p with
    | .error q => .error q
    | .ok c =>
      match digitValue base c with
      | none => .ok ([], p)
      | some d =>
        match s.scanDigits base left (p + 1) with
        | .error q => .error q
        | .ok r => .ok (d :: r.1, r.2)

/-- The integer part: `ip = (ip · base + digit) mod 2^128`, digit by digit (R255). -/
def integerPart (base : Nat) (ds : List Nat) : Nat :=
  ds.foldl (fun ip d => (ip * base + d) % 2 ^ 128) 0

/-- The fractional part, from the last digit to the first: `lo = (d · 2^128 + lo) div base` (R256). -/
def fractionPart (base : Nat) (ds : List Nat) : Nat :=
  ds.foldr (fun d low => (d * 2 ^ 128 + low) / base) 0

/-- The fractional digits after an optional point at p, and the end address (R256). -/
def State.scanFraction (s : State) (base : Nat) (dp : Byte) (p : Nat) : Except Nat (List Nat × Nat) :=
  match s.memByte p with
  | .error q => .error q
  | .ok c => if c = dp then s.scanDigits base (s.dmemSize - (p + 1)) (p + 1) else .ok ([], p)

/-- The value of a parsed number (R257). -/
def parsedValue (negative : Bool) (ip low : Nat) : Value :=
  let v := u256 (ip * 2 ^ 128 + low)
  if negative then neg v else v

/-- `Parse(A, dp)` (R250 to R257): the value and the end address, or the address of the first needed byte outside DMEM. -/
def State.parse (s : State) (a : Nat) (dp : Byte) : Except Nat (Value × Nat) :=
  match s.skipSpaces (s.dmemSize - a) a with
  | .error q => .error q
  | .ok p =>
    match s.scanSign p with
    | .error q => .error q
    | .ok sg =>
      match s.scanBase sg.2 with
      | .error q => .error q
      | .ok b =>
        match s.scanDigits b.1 (s.dmemSize - b.2) b.2 with
        | .error q => .error q
        | .ok is =>
          match s.scanFraction b.1 dp is.2 with
          | .error q => .error q
          | .ok fs => .ok (parsedValue sg.1 (integerPart b.1 is.1) (fractionPart b.1 fs.1), fs.2)

/-- PARSE (R258): X[a] is read before X[b] is written. -/
def execParse (d : VReg) (a b : XReg) (s : State) : Result :=
  match s.parse (s.getX a).toNat s.dpchar with
  | .error q => trap (.parse d a b) (s.rangeTrap q) s
  | .ok r => .next ((s.setV d r.1).setX b (BitVec.ofNat 64 r.2))

end Sys2Proof.Machine
end

