-- ==== Sys2Proof/Machine/Root.lean ====
section
/-! DEFINITION. Square root and reciprocal square root (spec/44_sqrt_rsqrt.md), normative bit for bit. -/

namespace Sys2Proof.Machine

/-- At most n Newton steps, stopping when an iterate repeats (R190, R194; the early stop changes no result, R192, R195). -/
def newton (f : Value → Value) : Nat → Value → Value
  | 0, est => est
  | n + 1, est => if f est = est then est else newton f n (f est)

/-- SQRT's seed for a positive value (R190). -/
def sqrtSeed (x : Value) : Value :=
  if hi x ≠ 0 then shr x ((127 - clz128 (hi x)) / 2) else shl x ((1 + clz128 (lo x)) / 2)

/-- One step of SQRT: `(est + x/est) / 2`, a wrapping add and a logical halving (R190). -/
def sqrtStep (x est : Value) : Value := shr (est + (fxDiv x est).1) 1

/-- `FxSqrt(x)` (R190). -/
def fxSqrt (x : Value) : Value × List Flag :=
  if isNeg x then (minValue, [.inv])
  else if x = 0 then (0, [])
  else (newton (sqrtStep x) Config.nrIters (sqrtSeed x), [])

/-- `RsqrtSeed(x)` (R193): a single bit, in lo when hi(x) ≠ 0, else in hi. -/
def rsqrtSeed (x : Value) : Value :=
  if hi x ≠ 0 then u256 (2 ^ ((128 + clz128 (hi x)) / 2)) else u256 (2 ^ (128 + clz128 (lo x) / 2))

/-- One step of RSQRT: `est · (3/2 - (xh · est) · est)`, unsigned products, wrapping subtraction (R194). -/
def rsqrtStep (xh est : Value) : Value :=
  fxMulU est (threeHalves - fxMulU (fxMulU xh est) est)

/-- `FxRsqrt(x)` (R194). -/
def fxRsqrt (x : Value) : Value × List Flag :=
  if isNeg x ∨ x = 0 then (minValue, [.inv])
  else (newton (rsqrtStep (shr x 1)) Config.nrIters (rsqrtSeed x), [])

/-- SQRT (R191): INV for a negative value. -/
def execSqrt (d a : VReg) (s : State) : Result :=
  let r := fxSqrt (s.getV a)
  .next ((s.setV d r.1).setFlags r.2)

/-- RSQRT (R196): INV for a non-positive value. -/
def execRsqrt (d a : VReg) (s : State) : Result :=
  let r := fxRsqrt (s.getV a)
  .next ((s.setV d r.1).setFlags r.2)

end Sys2Proof.Machine
end

