-- ==== Sys2Proof/Machine/Dispatch.lean ====
section
/-! DEFINITION. The meaning of every command, one arm per constructor (spec/30_encoding.md R85). -/

namespace Sys2Proof.Machine

def exec (i : Instr) (s : State) : Host.Outcome State Fault Refusal :=
  match i with
  | .nop => Sys2Proof.Machine.execNop s
  | .movv d a => Sys2Proof.Machine.execMovv d a s
  | .const d k => Sys2Proof.Machine.execConst d k s
  | .lix d imm => Sys2Proof.Machine.execLix d imm s
  | .ldv d a off => Sys2Proof.Machine.execLdv d a off s
  | .stv d a off => Sys2Proof.Machine.execStv d a off s
  | .ldx d a off => Sys2Proof.Machine.execLdx d a off s
  | .stx d a off => Sys2Proof.Machine.execStx d a off s
  | .not d a => Sys2Proof.Machine.execNot d a s
  | .and d a b => Sys2Proof.Machine.execAnd d a b s
  | .or d a b => Sys2Proof.Machine.execOr d a b s
  | .xor d a b => Sys2Proof.Machine.execXor d a b s
  | .shl d a b => Sys2Proof.Machine.execShl d a b s
  | .shr d a b => Sys2Proof.Machine.execShr d a b s
  | .sar d a b => Sys2Proof.Machine.execSar d a b s
  | .shli d a n => Sys2Proof.Machine.execShli d a n s
  | .shri d a n => Sys2Proof.Machine.execShri d a n s
  | .sari d a n => Sys2Proof.Machine.execSari d a n s
  | .clz d a h => Sys2Proof.Machine.execClz d a h s
  | .add d a b => Sys2Proof.Machine.execAdd d a b s
  | .sub d a b => Sys2Proof.Machine.execSub d a b s
  | .neg d a => Sys2Proof.Machine.execNeg d a s
  | .abs d a => Sys2Proof.Machine.execAbs d a s
  | .nabs d a => Sys2Proof.Machine.execNabs d a s
  | .isneg d a => Sys2Proof.Machine.execIsneg d a s
  | .cmp d a b => Sys2Proof.Machine.execCmp d a b s
  | .ucmp d a b => Sys2Proof.Machine.execUcmp d a b s
  | .min d a b => Sys2Proof.Machine.execMin d a b s
  | .max d a b => Sys2Proof.Machine.execMax d a b s
  | .umul d a b ha hb => Sys2Proof.Machine.execUmul d a b ha hb s
  | .udiv d a b h => Sys2Proof.Machine.execUdiv d a b h s
  | .mul d a b => Sys2Proof.Machine.execMul d a b s
  | .div d a b => Sys2Proof.Machine.execDiv d a b s
  | .mod d a b => Sys2Proof.Machine.execMod d a b s
  | .sqrt d a => Sys2Proof.Machine.execSqrt d a s
  | .rsqrt d a => Sys2Proof.Machine.execRsqrt d a s
  | .floor d a => Sys2Proof.Machine.execFloor d a s
  | .ceil d a => Sys2Proof.Machine.execCeil d a s
  | .round d a => Sys2Proof.Machine.execRound d a s
  | .fmt d a b c => Sys2Proof.Machine.execFmt d a b c s
  | .fmtd d a b c => Sys2Proof.Machine.execFmtd d a b c s
  | .fmtparse a => Sys2Proof.Machine.execFmtparse a s
  | .parse d a b => Sys2Proof.Machine.execParse d a b s
  | .fromint d a => Sys2Proof.Machine.execFromint d a s
  | .toint d a => Sys2Proof.Machine.execToint d a s
  | .fromf d a => Sys2Proof.Machine.execFromf d a s
  | .tof d a => Sys2Proof.Machine.execTof d a s
  | .csrr d c => Sys2Proof.Machine.execCsrr d c s
  | .csrw c a => Sys2Proof.Machine.execCsrw c a s

end Sys2Proof.Machine
end

