-- ==== Sys2Proof/Machine/Stores.lean ====
section
/-! DEFINITION. The DMEM bytes a command writes (spec/20_memory.md R65): only STV, STX, FMT and FMTD write any, and a
command that faults writes none (spec/60_exceptions.md R303). -/

namespace Sys2Proof.Machine

/-- The range WriteBuf writes at X[b] with capacity X[c] (46_format R229), if it passes its checks. -/
def State.bufferRange (s : State) (b c : XReg) (str : Runs) : Option (Nat × Nat) :=
  if s.bufferTrap (s.getX b).toNat (s.getX c).toNat str = none then
    some ((s.getX b).toNat, bufferLength (s.getX c).toNat str)
  else none

/-- The range an image of n bytes at an address takes, if it is in range (20_memory R61). -/
def State.imageRange (s : State) (a n : Nat) : Option (Nat × Nat) :=
  if s.inRange a n then some (a, n) else none

/-- The first address and the number of the DMEM bytes a command writes, if it writes any (20_memory R65,
70_reset_and_hazards R342). -/
def storedRange (i : Instr) (s : State) : Option (Nat × Nat) :=
  match i with
  | .stv _ a off => s.imageRange (s.ea a off) 32
  | .stx _ a off => s.imageRange (s.ea a off) 8
  | .fmt _ a b c => s.bufferRange b c (s.fmtString a)
  | .fmtd _ a b c => s.bufferRange b c (s.fmtdString a)
  | .nop | .movv .. | .const .. | .lix .. | .ldv .. | .ldx .. | .not .. | .and ..
  | .or .. | .xor .. | .shl .. | .shr .. | .sar .. | .shli .. | .shri .. | .sari ..
  | .clz .. | .add .. | .sub .. | .neg .. | .abs .. | .nabs .. | .isneg .. | .cmp ..
  | .ucmp .. | .min .. | .max .. | .umul .. | .udiv .. | .mul .. | .div .. | .mod ..
  | .sqrt .. | .rsqrt .. | .floor .. | .ceil .. | .round .. | .fmtparse .. | .parse .. | .fromint ..
  | .toint .. | .fromf .. | .tof .. | .csrr .. | .csrw .. => none

end Sys2Proof.Machine
end

