-- ==== Sys2Proof/Machine/HostPort.lean ====
section
/-! DEFINITION. The host port: the transactions of spec/60_exceptions.md R321 outside BUSY, what the host can do during
BUSY (R322), the end of a BUSY command, and RESET (spec/70_reset_and_hazards.md R340, R342). -/

namespace Sys2Proof.Machine

/-- The host gets an answer. -/
def State.reply (s : State) (r : Reply) : State := { s with replies := r :: s.replies }

/-- The first transaction is taken from the host's list. -/
def State.dropTxn (s : State) : State := { s with host := s.host.tail }

/-- ISSUE(w): in IDLE the CORE accepts it and enters BUSY; otherwise nothing happens (60_exceptions R321, 10_state R26). -/
def State.issue (s : State) (w : Command) : State :=
  if s.run = .idle then ({ s with run := .busy w }).reply .accepted else s.reply .notAccepted

/-- What STATE answers (60_exceptions R321). -/
def RunState.answer : RunState → Reply
  | .idle => .isIdle
  | .busy _ => .isBusy
  | .faulted => .isFaulted

/-- READ_CSR(n): what CSRR would read; an undefined number is refused (60_exceptions R321). -/
def State.hostReadCsr (s : State) (n : BitVec 8) : State :=
  match Csr.ofNumber n with
  | some c => s.reply (.csr (s.csrRead c))
  | none => s.reply .refused

/-- WRITE_CSR(n, d): the write rule of CSRW, the clearing of a fault, or refused (60_exceptions R321, R305, R323). -/
def State.hostWriteCsr (s : State) (n : BitVec 8) (d : Scalar) : State :=
  match Csr.ofNumber n with
  | some c =>
    if c = .fault then s.clearFault.reply .done
    else if c.writable then (s.csrWrite c d).reply .done
    else s.reply .refused
  | none => s.reply .refused

/-- READ_MEM(a, n), refused out of range (60_exceptions R321) and for n = 0, which is no transaction (log 12). -/
def State.hostReadMem (s : State) (a n : Nat) : State :=
  if n ≠ 0 ∧ s.inRange a n then s.reply (.bytes (s.mem.readBytes a n)) else s.reply .refused

/-- WRITE_MEM(a, bytes), refused out of range (60_exceptions R321) and for no bytes, which is no transaction (log 12). -/
def State.hostWriteMem (s : State) (a : Nat) (bs : List Byte) : State :=
  if bs ≠ [] ∧ s.inRange a bs.length then (s.store a bs).reply .done else s.reply .refused

/-- READ_V(i) and READ_X(i): the image, or refused for an undefined register number (60_exceptions R321, R323). -/
def State.hostReadReg (s : State) (i : Nat) (image : List Byte) : State :=
  if i < 16 then s.reply (.bytes image) else s.reply .refused

/-- WRITE_V(i, b) and WRITE_X(i, b): written, or refused for an undefined register number (60_exceptions R321, R323). -/
def State.hostWriteReg (s : State) (i : Nat) (written : State) : State :=
  if i < 16 then written.reply .done else s.reply .refused

/-- A transaction outside BUSY (60_exceptions R321). -/
def State.serve (s : State) : HostTxn → State
  | .issue w => s.issue w
  | .state => s.reply s.run.answer
  | .readV i => s.hostReadReg i (valueBytes (s.getV (BitVec.ofNat 4 i)))
  | .writeV i b => s.hostWriteReg i (s.setV (BitVec.ofNat 4 i) (u256 (ofLeBytes b.toList)))
  | .readX i => s.hostReadReg i (scalarBytes (s.getX (BitVec.ofNat 4 i)))
  | .writeX i b => s.hostWriteReg i (s.setX (BitVec.ofNat 4 i) (BitVec.ofNat 64 (ofLeBytes b.toList)))
  | .readCsr n => s.hostReadCsr n
  | .writeCsr n d => s.hostWriteCsr n d
  | .readMem a n => s.hostReadMem a n
  | .writeMem a bs => s.hostWriteMem a bs
  | .reset => s.applyReset.reply .done
  | .elapse => s

/-- BUSY is over: the CORE is IDLE unless the command faults (10_state R26). -/
def State.endBusy (s : State) : State := { s with run := .idle }

/-- The command of a word runs: decode, then its rule, or the fault of the decode check that fails (30_encoding R88,
60_exceptions R304). -/
def runCommand (w : Command) (s : State) : Result :=
  match decode w with
  | .ok i => exec i s.endBusy
  | .error e => .next (s.endBusy.raise w (illegalTrap e))

/-- RESET during BUSY: the command is abandoned, the DMEM bytes it would have written are any value, and every register
takes its reset value (70_reset_and_hazards R342). -/
def State.abandon (s : State) (w : Command) : State :=
  match decode w with
  | .ok i =>
    match storedRange i s with
    | some r => (s.scramble r.1 r.2).applyReset
    | none => s.applyReset
  | .error _ => s.applyReset

/-- One step in BUSY. The host can reset the CORE, ask for its state and try to issue; a register or memory transaction
waits until BUSY ends (60_exceptions R321, R322, 93_implementation_defined S5, S6). BUSY ends where the host's list says
time elapses, and at the latest when the host can only wait (log 4). -/
def busyStep (w : Command) (s : State) : Result :=
  match s.host with
  | .reset :: _ => .next ((s.dropTxn.abandon w).reply .done)
  | .state :: _ => .next (s.dropTxn.reply .isBusy)
  | .issue _ :: _ => .next (s.dropTxn.reply .notAccepted)
  | .elapse :: _ => runCommand w s.dropTxn
  | [] | .readV _ :: _ | .writeV _ _ :: _ | .readX _ :: _ | .writeX _ _ :: _ | .readCsr _ :: _ | .writeCsr _ _ :: _
  | .readMem _ _ :: _ | .writeMem _ _ :: _ => runCommand w s

/-- One step outside BUSY: the host's next transaction, or waiting for it (70_reset_and_hazards R341). -/
def portStep (s : State) : Result :=
  match s.host with
  | [] => .next s
  | t :: _ => .next (s.dropTxn.serve t)

/-- One step of the machine. -/
def machineStep (s : State) : Result :=
  match s.run with
  | .busy w => busyStep w s
  | .idle | .faulted => portStep s

/-- The command word w accepted and about to run: a pending fault cleared as the host must (60_exceptions R305, R322), the
CORE BUSY with w, and the end of BUSY next in the host's list (log 9). -/
def State.loadCommand (s : State) (w : Command) : State :=
  { s.clearFault with run := .busy w, host := .elapse :: s.host }

end Sys2Proof.Machine
end

