-- ==== Sys2Proof/Safety.lean ====
section
/-! DEFINITION. The terms statements about the machine are made in: what a state must satisfy, and what a command leaves
unchanged (its frame). -/

namespace Sys2Proof.Machine

/-! What stays the same. -/

/-- The value registers other than d read as before. -/
def SameVExcept (d : VReg) (s t : State) : Prop := ∀ r, r ≠ d → t.getV r = s.getV r

/-- The scalar registers other than d read as before. -/
def SameXExcept (d : XReg) (s t : State) : Prop := ∀ r, r ≠ d → t.getX r = s.getX r

/-- Every value register reads as before. -/
def SameV (s t : State) : Prop := ∀ r, t.getV r = s.getV r

/-- Every scalar register reads as before. -/
def SameX (s t : State) : Prop := ∀ r, t.getX r = s.getX r

/-- Every byte of DMEM reads as before. -/
def SameMem (s t : State) : Prop := ∀ a, t.mem.read a = s.mem.read a

/-- Every byte of DMEM outside the n bytes from a on reads as before. -/
def SameMemOutside (a n : Nat) (s t : State) : Prop := ∀ b, b < a ∨ a + n ≤ b → t.mem.read b = s.mem.read b

/-- The format control registers FMTCTL, FMTWIDTH and FMTPREC hold what they held. -/
def SameFormat (s t : State) : Prop := t.fmtctl = s.fmtctl ∧ t.fmtwidth = s.fmtwidth ∧ t.fmtprec = s.fmtprec

/-- The fault registers and the run state hold what they held. -/
def SameFault (s t : State) : Prop := t.fault = s.fault ∧ t.fcmd = s.fcmd ∧ t.faddr = s.faddr ∧ t.run = s.run

/-- DMEM_SIZE and the model's own fields hold what they held. -/
def SameModel (s t : State) : Prop :=
  t.dmemSize = s.dmemSize ∧ t.host = s.host ∧ t.replies = s.replies ∧ t.freeIndex = s.freeIndex

/-- Every control register but STATUS, the run state and the model's own fields hold what they held. -/
def SameControl (s t : State) : Prop :=
  t.dpchar = s.dpchar ∧ SameFormat s t ∧ SameFault s t ∧ SameModel s t

/-- A transaction that waits while the CORE is BUSY: one on a register, a control register or DMEM (60_exceptions R322). -/
def HostTxn.waits : HostTxn → Bool
  | .readV _ | .writeV _ _ | .readX _ | .writeX _ _ | .readCsr _ | .writeCsr _ _ | .readMem _ _ | .writeMem _ _ => true
  | .issue _ | .state | .reset | .elapse => false

/-- The host can only wait for BUSY to end: it has no transaction left, or one on a register or DMEM. -/
def State.hostWaits (s : State) : Bool := (s.host.head?.map HostTxn.waits).getD true

/-! Effects of one command. -/

/-- The command wrote w to V[d], set exactly the flags f in STATUS, and changed nothing else. -/
def WritesV (d : VReg) (w : Value) (f : BitVec 5) (s t : State) : Prop :=
  t.getV d = w ∧ SameVExcept d s t ∧ SameX s t ∧ SameMem s t ∧ t.status = s.status ||| f ∧ SameControl s t

/-- The command wrote w to X[d] and changed nothing else. -/
def WritesX (d : XReg) (w : Scalar) (s t : State) : Prop :=
  t.getX d = w ∧ SameXExcept d s t ∧ SameV s t ∧ SameMem s t ∧ t.status = s.status ∧ SameControl s t

/-- The command stored the bytes bs from address a on and changed nothing else. -/
def WritesMem (a : Nat) (bs : List Byte) (s t : State) : Prop :=
  (∀ i, i < bs.length → t.mem.read (a + i) = bs.getD i 0) ∧ SameMemOutside a bs.length s t ∧
    SameV s t ∧ SameX s t ∧ t.status = s.status ∧ SameControl s t

/-- The command word w faulted: FAULT, FCMD, FADDR and the run state are written and nothing else (60_exceptions R302). -/
def Faulted (w : Command) (code : BitVec 8) (addr : Scalar) (s t : State) : Prop :=
  t.fault = code ∧ t.fcmd = w ∧ t.faddr = addr ∧ t.run = .faulted ∧
    SameV s t ∧ SameX s t ∧ SameMem s t ∧ t.status = s.status ∧ t.dpchar = s.dpchar ∧ SameFormat s t ∧ SameModel s t

/-! The invariant of every state a run reaches. -/

/-- DMEM_SIZE is one the spec allows (00_scope R3), and DMEM is in canonical form with every listed address inside it. -/
def State.memOk (s : State) : Prop :=
  1 ≤ s.dmemSize ∧ s.dmemSize ≤ 2 ^ 64 ∧ s.mem.wf = true ∧ ∀ c ∈ s.mem, c.1 < s.dmemSize

/-- The control registers hold values their write rules can store (10_state R31, R33). -/
def State.csrOk (s : State) : Prop := s.fmtctl.extractLsb' 0 2 ≠ 3#2 ∧ -1 ≤ s.fmtprec.toInt

/-- The fault registers agree with the run state: in FAULTED a cause of R300, with an address only for MEM_RANGE, and
otherwise nothing recorded (10_state R26, R35, R37, 60_exceptions R300, R302, R305). -/
def State.faultOk (s : State) : Prop :=
  if s.run = .faulted then s.fault ∈ [1#8, 2#8, 3#8, 4#8, 5#8] ∧ (s.fault ≠ 3#8 → s.faddr = 0)
  else s.fault = 0 ∧ s.fcmd = 0 ∧ s.faddr = 0

/-- The invariant: what the spec says of every state of a run. -/
def State.Inv (s : State) : Prop := s.memOk ∧ s.csrOk ∧ s.faultOk

end Sys2Proof.Machine
end

