-- ==== Sys2Proof/Certificates/Slice0/Obligations.lean ====
section
/-! DEFINITION. The statements for the provers. Each names the rule of spec/ it formalises. Formulas are written on natural
numbers and integers, apart from the machine's own functions wherever the rule gives one. -/

namespace Sys2Proof.Statements

open Sys2Proof.Machine

/-! Words, images and strings, written from spec/30_encoding.md R81 to R83 and spec/20_memory.md R61. -/

/-- A word of format R, field by field (30_encoding R81). -/
def wordR (op : BitVec 8) (d a b c : BitVec 4) (imm8 : BitVec 8) : Command := op ++ d ++ a ++ b ++ c ++ imm8

/-- A word of format M or I, field by field (30_encoding R82, R83). -/
def wordM (op : BitVec 8) (d a : BitVec 4) (imm16 : BitVec 16) : Command := op ++ d ++ a ++ imm16

/-- The n-byte little-endian image of v: byte i is (v div 2^(8i)) mod 256 (20_memory R61). -/
def image (n v : Nat) : List Byte := (List.range n).map fun i => BitVec.ofNat 8 (v / 2 ^ (8 * i))

/-- The bytes bs stand in DMEM from address A on, all of them inside it. -/
def StringAt (s : State) (A : Nat) (bs : List Byte) : Prop :=
  A + bs.length ≤ s.dmemSize ∧ ∀ i, i < bs.length → s.mem.read (A + i) = bs.getD i 0

/-- The number that digits, most significant first, denote in a base. -/
def digitsValue (base : Nat) (ds : List Nat) : Nat := ds.foldl (fun n d => n * base + d) 0

/-- `2^255 - 1`, the pattern of MAX as a number; MIN is the pattern 2^255 (10_state R22). -/
def maxNat : Nat := 2 ^ 255 - 1

/-! Encoding. -/

/-- The opcode bytes of 30_encoding R87. -/
def UndefinedOpcode (n : Nat) : Prop :=
  (0x04 ≤ n ∧ n ≤ 0x0F) ∨ (0x14 ≤ n ∧ n ≤ 0x1F) ∨ (0x2B ≤ n ∧ n ≤ 0x2F) ∨ (0x3A ≤ n ∧ n ≤ 0x3F) ∨
  (0x45 ≤ n ∧ n ≤ 0x47) ∨ (0x4A ≤ n ∧ n ≤ 0x4F) ∨ (0x53 ≤ n ∧ n ≤ 0x5F) ∨ (0x63 ≤ n ∧ n ≤ 0x67) ∨
  (0x69 ≤ n ∧ n ≤ 0x6F) ∨ (0x74 ≤ n ∧ n ≤ 0x7D) ∨ (0x80 ≤ n ∧ n ≤ 0xFF)

/-- The match and mask columns of spec/opcode_table.json, row by row. -/
def tableRows : List (BitVec 32 × BitVec 32) :=
  [(0x00000000, 0xFFFFFFFF), (0x01000000, 0xFF00FFFF), (0x02000000, 0xFF0FFFF8), (0x03000000, 0xFF0F0000)] ++
  [(0x10000000, 0xFF000000), (0x11000000, 0xFF000000), (0x12000000, 0xFF000000), (0x13000000, 0xFF000000)] ++
  [(0x20000000, 0xFF00FFFF), (0x21000000, 0xFF000FFF), (0x22000000, 0xFF000FFF), (0x23000000, 0xFF000FFF)] ++
  [(0x24000000, 0xFF000FFF), (0x25000000, 0xFF000FFF), (0x26000000, 0xFF000FFF), (0x27000000, 0xFF00FF00)] ++
  [(0x28000000, 0xFF00FF00), (0x29000000, 0xFF00FF00), (0x2A000000, 0xFF00FFFE), (0x30000000, 0xFF000FFF)] ++
  [(0x31000000, 0xFF000FFF), (0x32000000, 0xFF00FFFF), (0x33000000, 0xFF00FFFF), (0x34000000, 0xFF00FFFF)] ++
  [(0x35000000, 0xFF00FFFF), (0x36000000, 0xFF000FFF), (0x37000000, 0xFF000FFF), (0x38000000, 0xFF000FFF)] ++
  [(0x39000000, 0xFF000FFF), (0x40000000, 0xFF000FFC), (0x41000000, 0xFF000FFE), (0x42000000, 0xFF000FFF)] ++
  [(0x43000000, 0xFF000FFF), (0x44000000, 0xFF000FFF), (0x48000000, 0xFF00FFFF), (0x49000000, 0xFF00FFFF)] ++
  [(0x50000000, 0xFF00FFFF), (0x51000000, 0xFF00FFFF), (0x52000000, 0xFF00FFFF), (0x60000000, 0xFF0000FF)] ++
  [(0x61000000, 0xFF0000FF), (0x62000000, 0xFFF0FFFF), (0x68000000, 0xFF000FFF), (0x70000000, 0xFF00FFFF)] ++
  [(0x71000000, 0xFF00FFFF), (0x72000000, 0xFF00FFFF), (0x73000000, 0xFF00FFFF), (0x7E000000, 0xFF0FFF00)] ++
  [(0x7F000000, 0xFFF0FF00)]

/-- The selector checks of 30_encoding R86 that a mask does not say: CONST's k, CSRR's and CSRW's register number. -/
def selectorOk (w : Command) : Prop :=
  let op := w.toNat / 2 ^ 24
  let imm := w.toNat % 2 ^ 8
  (op = 0x02 → imm ≤ 4) ∧ (op = 0x7E → imm ≤ 5 ∨ (8 ≤ imm ∧ imm ≤ 10)) ∧ (op = 0x7F → 1 ≤ imm ∧ imm ≤ 5)

/-! Square roots, as the sequences of spec/44_sqrt_rsqrt.md; the statements take seven steps without the early stop. -/

/-- `FxDiv(x, e)` of positive operands: the quotient, at most MAX (43_muldiv R168). -/
def quotient (x e : Nat) : Nat := if e = 0 then maxNat else min (x * 2 ^ 128 / e) maxNat

/-- One step of SQRT (R190). -/
def sqrtNext (x e : Nat) : Nat := (e + quotient x e) % 2 ^ 256 / 2

/-- SQRT's seed (R190), with Clz128(h) = 127 - log2 h for h > 0 (41_bitwise_shift R131). -/
def sqrtStart (x : Nat) : Nat :=
  if 2 ^ 128 ≤ x then x / 2 ^ (Nat.log2 (x / 2 ^ 128) / 2) else x * 2 ^ ((128 - Nat.log2 x) / 2)

/-- `FxMulU` (43_muldiv R165), as floor((P + 2^127) / 2^128). -/
def roundedProduct (a b : Nat) : Nat := (a * b + 2 ^ 127) / 2 ^ 128 % 2 ^ 256

/-- One step of RSQRT (R194): `e * (3/2 - (xh * e) * e)`, the subtraction mod 2^256. -/
def rsqrtNext (xh e : Nat) : Nat :=
  roundedProduct e ((2 ^ 128 + 2 ^ 127 + (2 ^ 256 - roundedProduct (roundedProduct xh e) e)) % 2 ^ 256)

/-- RSQRT's seed (R193). -/
def rsqrtStart (x : Nat) : Nat :=
  if 2 ^ 128 ≤ x then 2 ^ ((255 - Nat.log2 (x / 2 ^ 128)) / 2) else 2 ^ (128 + (127 - Nat.log2 x) / 2)

/-! Strings of spec/46_format.md and spec/47_parse.md. -/

/-- The byte of a decimal digit. -/
def asciiDigit (d : Nat) : Byte := BitVec.ofNat 8 (48 + d)

/-- The byte of a hexadecimal digit, upper case or lower case (47_parse R254). -/
def hexByte (d : Nat × Bool) : Byte :=
  if d.1 < 10 then asciiDigit d.1 else BitVec.ofNat 8 (d.1 - 10 + (if d.2 then 65 else 97))

/-- The sign string of 46_format R221. -/
def signString (negative : Bool) (style : SignStyle) : List Byte :=
  if negative then [45] else if style = .plus then [43] else if style = .space then [32] else []

/-- How many fractional digits the loop of 46_format R224 gives a magnitude m: all of the precision, or in automatic mode as
many as make the fraction exact, at most 39. -/
def IsDigitCount (m : Nat) (precision : Int) (k : Nat) : Prop :=
  if 0 ≤ precision then precision = k
  else k ≤ 39 ∧ (k = 39 ∨ m * 10 ^ k % 2 ^ 128 = 0) ∧ ∀ j, j < k → m * 10 ^ j % 2 ^ 128 ≠ 0

/-- The padding of 46_format R228 put to a sign and a body. -/
def padded (fr : FormatRecord) (sign body : List Byte) : List Byte :=
  let pad := fr.width - (body.length + sign.length)
  if fr.leftAlign then sign ++ body ++ List.replicate pad 32
  else if fr.zeroPad then sign ++ List.replicate pad 48 ++ body
  else List.replicate pad 32 ++ sign ++ body

/-- A format string of 46_format R232 with the byte after it: an optional '%', flags, width digits, an optional '.' with
precision digits, and the byte last that does not fit and ends the parse (a type character, a NUL, any other). -/
def formatText (percent : Bool) (flags : List Byte) (width : List Nat) (prec : Option (List Nat)) (last : Byte) : List Byte :=
  (if percent then [37] else []) ++ flags ++ width.map asciiDigit ++
    (match prec with | none => [] | some ds => 46 :: ds.map asciiDigit) ++ [last]

/-- The format record FMT reads from FMTCTL, FMTWIDTH and FMTPREC (10_state R31 to R34). -/
def controlRecord (s : State) : FormatRecord where
  sign := if s.fmtctl.toNat % 4 = 1 then .space else if s.fmtctl.toNat % 4 = 2 then .plus else .default
  width := s.fmtwidth.toNat
  precision := s.fmtprec.toInt
  zeroPad := decide (s.fmtctl.toNat / 4 % 2 = 1)
  alwaysDecimal := decide (s.fmtctl.toNat / 8 % 2 = 1)
  leftAlign := decide (s.fmtctl.toNat / 16 % 2 = 1)

/-- The string FMT writes: V[a] under the record of the control registers, with DPCHAR as the point (46_format R230). -/
def fmtText (s : State) (a : VReg) : List Byte := (format (s.getV a) (controlRecord s) s.dpchar).bytes

/-- The string FMTD writes: V[a] under the default record, with DPCHAR as the point (46_format R231). -/
def fmtdText (s : State) (a : VReg) : List Byte :=
  (format (s.getV a) { sign := .default, width := 0, precision := -1, zeroPad := false, alwaysDecimal := false,
                       leftAlign := false } s.dpchar).bytes

/-- How many bytes a formatting command writes of a string for a capacity of at least 1, the NUL counted (46_format R229). -/
def writtenLength (str : List Byte) (cap : Nat) : Nat := min str.length (cap - 1) + 1

/-- DMEM outside the n bytes from A on reads as before; all of DMEM does when the write would have faulted, because
its range leaves DMEM or another check fails (20_memory R61, 60_exceptions R303). -/
def SameMemUnlessWritten (ok : Prop) (A n : Nat) (s t : State) : Prop :=
  (ok ∧ A + n ≤ s.dmemSize → SameMemOutside A n s t) ∧ (¬ (ok ∧ A + n ≤ s.dmemSize) → SameMem s t)

/-- A number of 47_parse: whitespace, a sign, for base 16 the prefix, integer digits, an optional point dp with fractional
digits, and the byte that ends it. -/
def numberText (dp last : Byte) (ws sign pre : List Byte) (is : List (Nat × Bool)) (fs : Option (List (Nat × Bool))) :
    List Byte :=
  ws ++ sign ++ pre ++ is.map hexByte ++ (match fs with | none => [] | some ds => dp :: ds.map hexByte) ++ [last]

/-- The byte after the integer digits of such a number: the point, or the byte that ends it. -/
def afterInteger (dp last : Byte) (fs : Option (List (Nat × Bool))) : Byte := if fs.isSome then dp else last

/-- The magnitude of a binary64 pattern without sign, in units of 2^-1074 (48_conversions R272). -/
def patternMagnitude (p : Nat) : Nat :=
  if p / 2 ^ 52 = 0 then p else (2 ^ 52 + p % 2 ^ 52) * 2 ^ (p / 2 ^ 52 - 1)

/-- The distance of two natural numbers. -/
def distance (a b : Nat) : Nat := (a - b) + (b - a)

end Sys2Proof.Statements

open Sys2Proof Sys2Proof.Machine Sys2Proof.Statements

/-! ### Encoding and decoding (spec/30_encoding.md) -/

/-- Decode inverts encode on every well-formed command, every operand at every value (R84, R85, R86). -/
def Obligations.DecodeOfEncodeIsTheCommand : Prop :=
  ∀ i : Instr, i.wellFormed = true → decode (encode i) = .ok i

/-- A word that decodes is the encoding of the command it decodes to, so no bit is ignored (R86, R88). -/
def Obligations.DecodedWordIsTheCommandsEncoding : Prop :=
  ∀ (w : Command) (i : Instr), decode w = .ok i → encode i = w ∧ i.wellFormed = true

/-- R87: exactly the listed opcode bytes are illegal, they raise ILLEGAL_OPCODE, and every word either decodes to exactly one
command or faults. -/
def Obligations.UndefinedOpcodesRaiseIllegalOpcode : Prop :=
  ∀ w : Command,
    (decode w = .error .opcode ↔ UndefinedOpcode (w.toNat / 2 ^ 24)) ∧
    (UndefinedOpcode (w.toNat / 2 ^ 24) → ∀ s : State, ∃ t, runCommand w s = .next t ∧ Faulted w 1 0 s t) ∧
    ((∃! i : Instr, i.wellFormed = true ∧ encode i = w) ∨
      ((¬ ∃ i : Instr, i.wellFormed = true ∧ encode i = w) ∧
        ∀ s : State, ∃ t c, runCommand w s = .next t ∧ Faulted w c 0 s t))

/-- The decoder accepts exactly the words that the match and mask columns of spec/opcode_table.json and the selector checks of
R86 admit; any other word with a defined opcode is ILLEGAL_FIELD. -/
def Obligations.DecoderAgreesWithTheOpcodeTable : Prop :=
  ∀ w : Command,
    ((∃ i, decode w = .ok i) ↔ (∃ r ∈ tableRows, w &&& r.2 = r.1) ∧ selectorOk w) ∧
    (decode w = .error .field ↔
      ¬ UndefinedOpcode (w.toNat / 2 ^ 24) ∧ ¬ ((∃ r ∈ tableRows, w &&& r.2 = r.1) ∧ selectorOk w))

/-- Words that the spec's examples write out, one or more of each family, decode to their commands. -/
def Obligations.ExampleWordsDecode : Prop :=
  decode 0x00000000 = .ok .nop ∧ decode 0x01120000 = .ok (.movv 1 2) ∧ decode 0x02300004 = .ok (.const 3 .max) ∧
  decode 0x0310FFFE = .ok (.lix 1 0xFFFE) ∧ decode 0x10210010 = .ok (.ldv 2 1 0x10) ∧
  decode 0x13410008 = .ok (.stx 4 1 8) ∧ decode 0x24312000 = .ok (.shl 3 1 2) ∧
  decode 0x273100C1 = .ok (.shli 3 1 193) ∧ decode 0x2A210001 = .ok (.clz 2 1 .hi) ∧
  decode 0x31312000 = .ok (.sub 3 1 2) ∧ decode 0x40312000 = .ok (.umul 3 1 2 .lo .lo) ∧
  decode 0x48210000 = .ok (.sqrt 2 1) ∧ decode 0x52210000 = .ok (.round 2 1) ∧
  decode 0x60412300 = .ok (.fmt 4 1 2 3) ∧ decode 0x68213000 = .ok (.parse 2 1 3) ∧
  decode 0x72210000 = .ok (.fromf 2 1) ∧ decode 0x7E100005 = .ok (.csrr 1 .fmtprec) ∧
  decode 0x7F020002 = .ok (.csrw .dpchar 2)

/-! ### The step and the host port (spec/60_exceptions.md, spec/10_state.md R26) -/

/-- A step in BUSY whose time is over runs exec of the decoded command with the run state set to IDLE (R26, R88): when the
host's list says time elapses that entry is taken, when the host can only wait its list is left; where BUSY ends is the
model's choice (log 4). The word placed by withFetchWord runs in the very next step (log 9). -/
def Obligations.StepRunsTheDecodedCommand : Prop :=
  ∀ (s : State) (w : Command) (i : Instr), decode w = .ok i →
    (s.run = .busy w → s.host.head? = some .elapse → step s = exec i { s with run := .idle, host := s.host.tail }) ∧
    (s.run = .busy w → s.hostWaits = true → step s = exec i { s with run := .idle }) ∧
    step (s.withFetchWord 32 w.toNat) = exec i { s.clearFault with run := .idle }

/-- A step in BUSY whose time is over takes the fault of a word that is no command: ILLEGAL_OPCODE (1) or ILLEGAL_FIELD (2)
with FADDR 0 (R300, R302). Where BUSY ends is the model's choice (log 4). -/
def Obligations.StepFaultsOnIllegalWords : Prop :=
  ∀ (s : State) (w : Command) (e : IllegalWord), s.run = .busy w → decode w = .error e →
    let code : BitVec 8 := if e = .opcode then 1 else 2
    (s.hostWaits = true → ∃ t, step s = .next t ∧ Faulted w code 0 s t) ∧
    (s.host.head? = some .elapse → ∃ t, step s = .next t ∧ Faulted w code 0 { s with host := s.host.tail } t)

/-- ISSUE is accepted in IDLE alone, where the CORE enters BUSY with the word; in BUSY and FAULTED nothing happens (R26, R321). The
host's list and the replies are the model's form of the port (logs 3, 5), here and below. -/
def Obligations.IssueIsAcceptedOnlyInIdle : Prop :=
  ∀ (s : State) (w : Command) (rest : List HostTxn), s.host = .issue w :: rest →
    (s.run = .idle → step s = .next { s with run := .busy w, host := rest, replies := .accepted :: s.replies }) ∧
    (s.run ≠ .idle → step s = .next { s with host := rest, replies := .notAccepted :: s.replies })

/-- Every BUSY period ends: while the CORE is BUSY it leaves BUSY within one step for each transaction the host still has,
and one more (R322). That bound in steps is the model's choice (log 4). -/
def Obligations.BusyEndsInBoundedSteps : Prop :=
  ∀ (s : State) (w : Command), s.run = .busy w →
    ∃ n t, n ≤ s.host.length + 1 ∧ Sys2Proof.core.run n s = .next t ∧ (t.run = .idle ∨ t.run = .faulted)

/-- A host write of any data to FAULT clears FAULT, FCMD and FADDR and moves FAULTED to IDLE; nothing else changes, and the
next command is accepted (R305). -/
def Obligations.HostWriteToFaultClearsIt : Prop :=
  ∀ (s : State) (d : Scalar) (rest : List HostTxn), s.run = .faulted → s.host = .writeCsr 0x08 d :: rest →
    step s = .next { s with fault := 0, fcmd := 0, faddr := 0, run := .idle, host := rest, replies := .done :: s.replies }

/-- A CORE that is FAULTED runs no command: until the host clears the fault or resets the CORE, every step leaves the run
state, FAULT, FCMD and FADDR as they are (R306). -/
def Obligations.FaultedCoreRunsNoCommand : Prop :=
  ∀ (s t : State), s.run = .faulted → step s = .next t →
    s.host.head? ≠ some .reset → (∀ d, s.host.head? ≠ some (.writeCsr 0x08 d)) →
    SameFault s t

/-- A host transaction that names an undefined register number, a register it may not write, or a DMEM range not inside
[0, DMEM_SIZE) is refused and changes nothing (R323). -/
def Obligations.RefusedTransactionsChangeNothing : Prop :=
  ∀ (s : State) (x : HostTxn) (rest : List HostTxn), s.run = .idle ∨ s.run = .faulted → s.host = x :: rest →
    ((∃ i, 16 ≤ i ∧ (x = .readV i ∨ x = .readX i ∨ (∃ b, x = .writeV i b) ∨ ∃ b, x = .writeX i b)) ∨
     (∃ n : BitVec 8, (n = 6 ∨ n = 7 ∨ 0x0B ≤ n) ∧ (x = .readCsr n ∨ ∃ d, x = .writeCsr n d)) ∨
     (∃ (n : BitVec 8) (d : Scalar), (n = 0 ∨ n = 9 ∨ n = 10) ∧ x = .writeCsr n d) ∨
     (∃ a n, s.dmemSize < a + n ∧ (x = .readMem a n ∨ ∃ bs : List Byte, bs.length = n ∧ x = .writeMem a bs))) →
    step s = .next { s with host := rest, replies := .refused :: s.replies }

/-- WRITE_V and WRITE_X store the value of the image, and READ_V and READ_X return the image: what was written is read back,
and nothing else of the CORE changes (R321, 20_memory R62, R63). -/
def Obligations.RegisterTransfersCarryImages : Prop :=
  ∀ (s : State) (i : Nat) (rest : List HostTxn), s.run = .idle ∨ s.run = .faulted → i < 16 →
    (∀ b : Vector Byte 32, s.host = .writeV i b :: .readV i :: rest →
      ∃ t, Sys2Proof.core.run 2 s = .next t ∧ t.host = rest ∧ t.replies = .bytes b.toList :: .done :: s.replies ∧
        image 32 (t.getV (BitVec.ofNat 4 i)).toNat = b.toList ∧ SameVExcept (BitVec.ofNat 4 i) s t ∧ SameX s t ∧
        SameMem s t ∧ SameFault s t ∧ t.status = s.status ∧ t.dpchar = s.dpchar ∧ SameFormat s t ∧
        t.dmemSize = s.dmemSize ∧ t.freeIndex = s.freeIndex) ∧
    (∀ b : Vector Byte 8, s.host = .writeX i b :: .readX i :: rest →
      ∃ t, Sys2Proof.core.run 2 s = .next t ∧ t.host = rest ∧ t.replies = .bytes b.toList :: .done :: s.replies ∧
        image 8 (t.getX (BitVec.ofNat 4 i)).toNat = b.toList ∧ SameXExcept (BitVec.ofNat 4 i) s t ∧ SameV s t ∧
        SameMem s t ∧ SameFault s t ∧ t.status = s.status ∧ t.dpchar = s.dpchar ∧ SameFormat s t ∧
        t.dmemSize = s.dmemSize ∧ t.freeIndex = s.freeIndex)

/-- WRITE_MEM in range writes its bytes and no other (DMEM byte a + i is then byte i of those sent), and READ_MEM of the range
returns them; nothing else of the CORE changes (R321, 20_memory R60). -/
def Obligations.MemoryTransfersCarryBytes : Prop :=
  ∀ (s : State) (a : Nat) (bs : List Byte) (rest : List HostTxn), s.run = .idle ∨ s.run = .faulted → bs ≠ [] →
    a + bs.length ≤ s.dmemSize → s.host = .writeMem a bs :: .readMem a bs.length :: rest →
    ∃ t, Sys2Proof.core.run 2 s = .next t ∧ t.host = rest ∧ t.replies = .bytes bs :: .done :: s.replies ∧
      (∀ i, i < bs.length → t.mem.read (a + i) = bs.getD i 0) ∧ SameMemOutside a bs.length s t ∧
      SameV s t ∧ SameX s t ∧ SameFault s t ∧ t.status = s.status ∧
      t.dpchar = s.dpchar ∧ SameFormat s t ∧ t.dmemSize = s.dmemSize ∧ t.freeIndex = s.freeIndex

/-- READ_CSR returns what CSRR would write to any X[x], and WRITE_CSR of a writable register with any data d leaves what
CSRW leaves with d in a scalar register, the scalar registers themselves unchanged (R321, 49_control R290, R291). -/
def Obligations.HostControlRegisterTransfers : Prop :=
  ∀ (s : State) (c : Csr) (x : XReg) (rest : List HostTxn), s.run = .idle ∨ s.run = .faulted →
    (s.host = .readCsr c.number :: rest → ∃ t, exec (.csrr x c) s = .next t ∧
      step s = .next { s with host := rest, replies := .csr (t.getX x) :: s.replies }) ∧
    (∀ d : Scalar, s.host = .writeCsr c.number d :: rest → c.writable = true →
      ∃ t, exec (.csrw c x) (s.setX x d) = .next t ∧
        step s = .next { t with x := s.x, host := rest, replies := .done :: s.replies })

/-! ### Reset (spec/70_reset_and_hazards.md) -/

/-- R340: RESET is accepted in every run state and sets every register and the run state to its reset value; DMEM keeps its
contents unless a storing command was abandoned. DMEM_SIZE stays. -/
def Obligations.ResetSetsEveryRegister : Prop :=
  ∀ (s : State) (rest : List HostTxn), s.host = .reset :: rest →
    ∃ t, step s = .next t ∧ (∀ r, t.getV r = 0) ∧ (∀ r, t.getX r = 0) ∧ t.status = 0 ∧ t.fmtctl = 0 ∧ t.fmtwidth = 0 ∧
      t.fmtprec.toInt = -1 ∧ t.dpchar = 0x2E ∧ t.fault = 0 ∧ t.fcmd = 0 ∧ t.faddr = 0 ∧ t.run = .idle ∧
      t.dmemSize = s.dmemSize ∧ t.host = rest ∧
      ((s.run = .idle ∨ s.run = .faulted) → SameMem s t)

/-- RESET during BUSY changes no DMEM byte outside those the abandoned command would have written, and none at all for a
command that would have written none: one that stores nothing, one that would have faulted (a range past DMEM, capacity 0),
or an illegal word (R342, 60_exceptions R303). What the bytes inside hold is free (log 6) and nothing is said of it. -/
def Obligations.AbandonedCommandLeavesOtherBytes : Prop :=
  ∀ (s : State) (w : Command) (rest : List HostTxn), s.run = .busy w → s.host = .reset :: rest →
    ∃ t, step s = .next t ∧
      (∀ d a off, decode w = .ok (.stv d a off) →
        SameMemUnlessWritten True ((s.getX a).toNat + off.toNat) 32 s t) ∧
      (∀ d a off, decode w = .ok (.stx d a off) →
        SameMemUnlessWritten True ((s.getX a).toNat + off.toNat) 8 s t) ∧
      (∀ d a b c, decode w = .ok (.fmt d a b c) →
        SameMemUnlessWritten (1 ≤ (s.getX c).toNat) (s.getX b).toNat
          (writtenLength (fmtText s a) (s.getX c).toNat) s t) ∧
      (∀ d a b c, decode w = .ok (.fmtd d a b c) →
        SameMemUnlessWritten (1 ≤ (s.getX c).toNat) (s.getX b).toNat
          (writtenLength (fmtdText s a) (s.getX c).toNat) s t) ∧
      (((∀ d a off, decode w ≠ .ok (.stv d a off)) ∧ (∀ d a off, decode w ≠ .ok (.stx d a off)) ∧
        (∀ d a b c, decode w ≠ .ok (.fmt d a b c)) ∧ (∀ d a b c, decode w ≠ .ok (.fmtd d a b c))) → SameMem s t)

/-- After power-on every register holds its reset value, for every DMEM size and every contents (R341, 10_state R39). -/
def Obligations.PowerOnState : Prop :=
  ∀ (n : Nat) (m : Memory), let s := State.powerOn n m
    (∀ r, s.getV r = 0) ∧ (∀ r, s.getX r = 0) ∧ s.run = .idle ∧ s.csrRead .cfg = BitVec.ofNat 64 n ∧ s.csrRead .status = 0 ∧
    s.csrRead .dpchar = 0x2E ∧ s.csrRead .fmtctl = 0 ∧ s.csrRead .fmtwidth = 0 ∧ s.csrRead .fmtprec = 0xFFFFFFFFFFFFFFFF ∧
    s.csrRead .fault = 0 ∧ s.csrRead .fcmd = 0 ∧ s.csrRead .faddr = 0 ∧ s.mem = m

/-! ### Invariants and whole-machine rules -/

/-- The invariant holds after power-on, for every DMEM the spec allows, and so in State.reset, whose DMEM size and contents
are the model's choice (logs 1, 2). -/
def Obligations.InvariantHoldsAtPowerOn : Prop :=
  State.reset.Inv ∧
  ∀ (n : Nat) (m : Memory), 1 ≤ n → n ≤ 2 ^ 64 → m.wf = true → (∀ c ∈ m, c.1 < n) → (State.powerOn n m).Inv

/-- Every step keeps the invariant: DMEM stays in canonical form inside its size, FMTCTL and FMTPREC hold legal values, and
the fault registers agree with the run state (20_memory R60, 10_state R27, R31, R33, R35 to R37, 60_exceptions R302, R305). -/
def Obligations.EveryStepKeepsTheInvariant : Prop :=
  ∀ s t : State, s.Inv → step s = .next t → t.Inv

/-- R28: CFG reads DMEM_SIZE mod 2^64 (so 0 for 2^64 bytes), no command and no host transaction writes it, and no step
changes its value. -/
def Obligations.CfgNeverChanges : Prop :=
  (∀ s : State, (s.csrRead .cfg).toNat = s.dmemSize % 2 ^ 64) ∧
  (∀ s : State, s.dmemSize = 2 ^ 64 → s.csrRead .cfg = 0) ∧
  (∀ (w : Command) (a : XReg), decode w ≠ .ok (.csrw .cfg a)) ∧
  (∀ s t : State, step s = .next t → t.dmemSize = s.dmemSize ∧ t.csrRead .cfg = s.csrRead .cfg)

/-- Every command answers a next state: it completes, with the run state and the fault registers as before, or it faults, and
then it writes FAULT, FCMD, FADDR and the run state and nothing else (R9, R302, R303). FADDR is 0 for every cause but
MEM_RANGE, and FCMD is the command's word. ILLEGAL_FIELD (2) arises here only for the ill-formed CSRW term of log 11
(DEDUCED), which no word decodes to; a word's decode faults are UndefinedOpcodesRaiseIllegalOpcode's. -/
def Obligations.CommandsFaultPrecisely : Prop :=
  ∀ (i : Instr) (s : State), ∃ t, exec i s = .next t ∧
    ((SameFault s t ∧ SameModel s t) ∨
      ∃ c x, c ∈ [2#8, 3#8, 4#8, 5#8] ∧ (c ≠ 3 → x = 0) ∧ Faulted (encode i) c x s t)

/-- STATUS flags are sticky: no command clears one but CSRW STATUS, and only DIV, MOD, SQRT, RSQRT, FROMF, FMT and FMTD set
one, each only its own (10_state R29). -/
def Obligations.FlagsAreSticky : Prop :=
  ∀ (i : Instr) (s t : State), (∀ a, i ≠ .csrw .status a) → exec i s = .next t →
    ∃ f : BitVec 5, t.status = s.status ||| f ∧
      match i with
      | .div .. | .mod .. => f = 0 ∨ f = 0b00001 ∨ f = 0b00010
      | .sqrt .. | .rsqrt .. => f = 0 ∨ f = 0b00100
      | .fromf .. => f = 0 ∨ f = 0b00100 ∨ f = 0b01000
      | .fmt .. | .fmtd .. => f = 0 ∨ f = 0b10000
      | _ => f = 0

/-- DMEM bytes change only by STV, STX, FMT and FMTD, and only in the range each writes; one that faults
changes none (20_memory R65, 60_exceptions R303). -/
def Obligations.OnlyStoringCommandsChangeDmem : Prop :=
  ∀ (i : Instr) (s t : State), exec i s = .next t →
    match i with
    | .stv _ a off => SameMemUnlessWritten True ((s.getX a).toNat + off.toNat) 32 s t
    | .stx _ a off => SameMemUnlessWritten True ((s.getX a).toNat + off.toNat) 8 s t
    | .fmt _ a b c => SameMemUnlessWritten (1 ≤ (s.getX c).toNat) (s.getX b).toNat
        (writtenLength (fmtText s a) (s.getX c).toNat) s t
    | .fmtd _ a b c => SameMemUnlessWritten (1 ≤ (s.getX c).toNat) (s.getX b).toNat
        (writtenLength (fmtdText s a) (s.getX c).toNat) s t
    | _ => SameMem s t

/-- DPCHAR, FMTCTL, FMTWIDTH and FMTPREC change only by CSRW and, the last three, by FMTPARSE (10_state R30 to R33). -/
def Obligations.FormatRegistersChangeOnlyByCsrwAndFmtparse : Prop :=
  ∀ (i : Instr) (s t : State), exec i s = .next t → (∀ c a, i ≠ .csrw c a) →
    t.dpchar = s.dpchar ∧ ((∀ a, i ≠ .fmtparse a) → SameFormat s t)

/-! ### Moves, constants, loads and stores (spec/40_move_memory.md) -/

/-- R100: NOP is the word 0 alone, and changes nothing. -/
def Obligations.NopChangesNothing : Prop :=
  (∀ w : Command, decode w = .ok .nop ↔ w = 0) ∧ ∀ s : State, exec .nop s = .next s

/-- R101: MOVV copies all 256 bits; with d = a it changes nothing. -/
def Obligations.MovvCopiesAValue : Prop :=
  ∀ (d a : VReg) (s : State), encode (.movv d a) = wordR 0x01 d a 0 0 0 ∧
    (∃ t, exec (.movv d a) s = .next t ∧ WritesV d (s.getV a) 0 s t) ∧ exec (.movv d d) s = .next s

/-- R102: CONST loads ZERO, ONE, SMALLEST, MIN or MAX; a k above 4 is ILLEGAL_FIELD. -/
def Obligations.ConstLoadsANamedConstant : Prop :=
  ∀ (d : VReg) (s : State),
    (∀ (k : ConstName) (n v : Nat),
      (k, n, v) ∈ [(ConstName.zero, 0, 0), (.one, 1, 2 ^ 128), (.smallest, 2, 1), (.min, 3, 2 ^ 255), (.max, 4, 2 ^ 255 - 1)] →
      encode (.const d k) = wordR 0x02 d 0 0 0 (BitVec.ofNat 8 n) ∧
      ∃ t, exec (.const d k) s = .next t ∧ WritesV d (BitVec.ofNat 256 v) 0 s t) ∧
    (∀ k : BitVec 8, 4 < k.toNat → decode (wordR 0x02 d 0 0 0 k) = .error .field)

/-- R103: LIX writes the sign-extended 16-bit immediate; a non-zero w[19:16] is ILLEGAL_FIELD. -/
def Obligations.LixWritesTheSignExtendedImmediate : Prop :=
  ∀ (d : XReg) (imm : BitVec 16) (s : State), encode (.lix d imm) = wordM 0x03 d 0 imm ∧
    (∃ t, exec (.lix d imm) s = .next t ∧ WritesX d (BitVec.ofInt 64 imm.toInt) s t) ∧
    ∀ a : BitVec 4, a ≠ 0 → decode (wordM 0x03 d a imm) = .error .field

/-- R105: LDV reads the 32-byte image at EA = X[a] + off16 (R104), or raises MEM_RANGE with FADDR the lowest address outside
DMEM and V[d] unchanged. -/
def Obligations.LdvLoadsAnImageOrFaults : Prop :=
  ∀ (d : VReg) (a : XReg) (off : BitVec 16) (s : State),
    let ea := (s.getX a).toNat + off.toNat
    encode (.ldv d a off) = wordM 0x10 d a off ∧
    (ea + 32 ≤ s.dmemSize → ∃ t v, exec (.ldv d a off) s = .next t ∧ WritesV d v 0 s t ∧
      ∀ i, i < 32 → v.toNat / 2 ^ (8 * i) % 256 = (s.mem.read (ea + i)).toNat) ∧
    (s.dmemSize < ea + 32 → ∃ t, exec (.ldv d a off) s = .next t ∧
      Faulted (wordM 0x10 d a off) 3 (BitVec.ofNat 64 (max ea s.dmemSize)) s t)

/-- R106: STV writes the 32-byte image of V[d] at EA, or raises MEM_RANGE and writes no byte. -/
def Obligations.StvStoresAnImageOrFaults : Prop :=
  ∀ (d : VReg) (a : XReg) (off : BitVec 16) (s : State),
    let ea := (s.getX a).toNat + off.toNat
    encode (.stv d a off) = wordM 0x11 d a off ∧
    (ea + 32 ≤ s.dmemSize → ∃ t, exec (.stv d a off) s = .next t ∧ WritesMem ea (image 32 (s.getV d).toNat) s t) ∧
    (s.dmemSize < ea + 32 → ∃ t, exec (.stv d a off) s = .next t ∧
      Faulted (wordM 0x11 d a off) 3 (BitVec.ofNat 64 (max ea s.dmemSize)) s t)

/-- R107: LDX reads the 8-byte image at EA, computed from the old X[a], or raises MEM_RANGE with X[d] unchanged. -/
def Obligations.LdxLoadsAnImageOrFaults : Prop :=
  ∀ (d a : XReg) (off : BitVec 16) (s : State),
    let ea := (s.getX a).toNat + off.toNat
    encode (.ldx d a off) = wordM 0x12 d a off ∧
    (ea + 8 ≤ s.dmemSize → ∃ t x, exec (.ldx d a off) s = .next t ∧ WritesX d x s t ∧
      ∀ i, i < 8 → x.toNat / 2 ^ (8 * i) % 256 = (s.mem.read (ea + i)).toNat) ∧
    (s.dmemSize < ea + 8 → ∃ t, exec (.ldx d a off) s = .next t ∧
      Faulted (wordM 0x12 d a off) 3 (BitVec.ofNat 64 (max ea s.dmemSize)) s t)

/-- R108: STX writes the 8-byte image of X[d] at EA, or raises MEM_RANGE and writes no byte. -/
def Obligations.StxStoresAnImageOrFaults : Prop :=
  ∀ (d a : XReg) (off : BitVec 16) (s : State),
    let ea := (s.getX a).toNat + off.toNat
    encode (.stx d a off) = wordM 0x13 d a off ∧
    (ea + 8 ≤ s.dmemSize → ∃ t, exec (.stx d a off) s = .next t ∧ WritesMem ea (image 8 (s.getX d).toNat) s t) ∧
    (s.dmemSize < ea + 8 → ∃ t, exec (.stx d a off) s = .next t ∧
      Faulted (wordM 0x13 d a off) 3 (BitVec.ofNat 64 (max ea s.dmemSize)) s t)

/-! ### Bitwise, shifts, leading zeros (spec/41_bitwise_shift.md) -/

/-- R120 to R123: NOT, AND, OR and XOR, bit by bit over 256 bits. -/
def Obligations.BitwiseCommandsActBitByBit : Prop :=
  ∀ (d a b : VReg) (s : State),
    encode (.not d a) = wordR 0x20 d a 0 0 0 ∧ encode (.and d a b) = wordR 0x21 d a b 0 0 ∧
    encode (.or d a b) = wordR 0x22 d a b 0 0 ∧ encode (.xor d a b) = wordR 0x23 d a b 0 0 ∧
    (∃ t v, exec (.not d a) s = .next t ∧ WritesV d v 0 s t ∧
      ∀ i, i < 256 → v.getLsbD i = !(s.getV a).getLsbD i) ∧
    (∃ t v, exec (.and d a b) s = .next t ∧ WritesV d v 0 s t ∧
      ∀ i, i < 256 → v.getLsbD i = ((s.getV a).getLsbD i && (s.getV b).getLsbD i)) ∧
    (∃ t v, exec (.or d a b) s = .next t ∧ WritesV d v 0 s t ∧
      ∀ i, i < 256 → v.getLsbD i = ((s.getV a).getLsbD i || (s.getV b).getLsbD i)) ∧
    (∃ t v, exec (.xor d a b) s = .next t ∧ WritesV d v 0 s t ∧
      ∀ i, i < 256 → v.getLsbD i = ((s.getV a).getLsbD i ^^ (s.getV b).getLsbD i))

/-- R125 to R130: SHL, SHR and SAR by n = X[b] mod 256, SHLI, SHRI and SARI by n = imm8; the left shift drops the bits
above 255, SAR and SARI give the floor of the signed value. A non-zero field b or c of the immediate forms is ILLEGAL_FIELD. -/
def Obligations.ShiftCommands : Prop :=
  ∀ (d a : VReg) (b : XReg) (imm : BitVec 8) (s : State),
    let v := s.getV a
    let n := (s.getX b).toNat % 256
    let m := imm.toNat
    encode (.shl d a b) = wordR 0x24 d a b 0 0 ∧ encode (.shr d a b) = wordR 0x25 d a b 0 0 ∧
    encode (.sar d a b) = wordR 0x26 d a b 0 0 ∧ encode (.shli d a imm) = wordR 0x27 d a 0 0 imm ∧
    encode (.shri d a imm) = wordR 0x28 d a 0 0 imm ∧ encode (.sari d a imm) = wordR 0x29 d a 0 0 imm ∧
    (∀ e f : BitVec 4, e ≠ 0 ∨ f ≠ 0 → decode (wordR 0x27 d a e f imm) = .error .field ∧
      decode (wordR 0x28 d a e f imm) = .error .field ∧ decode (wordR 0x29 d a e f imm) = .error .field) ∧
    (∃ t, exec (.shl d a b) s = .next t ∧ WritesV d (BitVec.ofNat 256 (v.toNat * 2 ^ n)) 0 s t) ∧
    (∃ t, exec (.shr d a b) s = .next t ∧ WritesV d (BitVec.ofNat 256 (v.toNat / 2 ^ n)) 0 s t) ∧
    (∃ t, exec (.sar d a b) s = .next t ∧ WritesV d (BitVec.ofInt 256 (v.toInt / 2 ^ n)) 0 s t) ∧
    (∃ t, exec (.shli d a imm) s = .next t ∧ WritesV d (BitVec.ofNat 256 (v.toNat * 2 ^ m)) 0 s t) ∧
    (∃ t, exec (.shri d a imm) s = .next t ∧ WritesV d (BitVec.ofNat 256 (v.toNat / 2 ^ m)) 0 s t) ∧
    (∃ t, exec (.sari d a imm) s = .next t ∧ WritesV d (BitVec.ofInt 256 (v.toInt / 2 ^ m)) 0 s t)

/-- R131, R132: CLZ writes how many zero bits stand above the highest one of the chosen half, 128 for a zero half;
a non-zero field b or c or a selector above 1 is ILLEGAL_FIELD. -/
def Obligations.ClzCountsLeadingZeros : Prop :=
  ∀ (d : XReg) (a : VReg) (h : Half) (s : State),
    let x := if h = .hi then (s.getV a).toNat / 2 ^ 128 else (s.getV a).toNat % 2 ^ 128
    encode (.clz d a h) = wordR 0x2A d a 0 0 (if h = .hi then 1 else 0) ∧
    (∀ (e f : BitVec 4) (k : BitVec 8), e ≠ 0 ∨ f ≠ 0 ∨ 1 < k.toNat → decode (wordR 0x2A d a e f k) = .error .field) ∧
    ∃ t c, exec (.clz d a h) s = .next t ∧ WritesX d (BitVec.ofNat 64 c) s t ∧
      (x = 0 → c = 128) ∧ (x ≠ 0 → c ≤ 127 ∧ 2 ^ (127 - c) ≤ x ∧ x < 2 ^ (128 - c))

/-! ### Additive, sign, compare (spec/42_additive.md) -/

/-- R140, R141: ADD and SUB wrap mod 2^256, with no flag. -/
def Obligations.AddAndSubWrap : Prop :=
  ∀ (d a b : VReg) (s : State),
    encode (.add d a b) = wordR 0x30 d a b 0 0 ∧ encode (.sub d a b) = wordR 0x31 d a b 0 0 ∧
    (∃ t, exec (.add d a b) s = .next t ∧ WritesV d (BitVec.ofInt 256 ((s.getV a).toInt + (s.getV b).toInt)) 0 s t) ∧
    (∃ t, exec (.sub d a b) s = .next t ∧ WritesV d (BitVec.ofInt 256 ((s.getV a).toInt - (s.getV b).toInt)) 0 s t)

/-- R143, R145 to R147: NEG, ABS, NABS and ISNEG. MIN stays MIN under the first three. -/
def Obligations.SignCommands : Prop :=
  ∀ (d a : VReg) (x : XReg) (s : State),
    let z := (s.getV a).toInt
    encode (.neg d a) = wordR 0x32 d a 0 0 0 ∧ encode (.abs d a) = wordR 0x33 d a 0 0 0 ∧
    encode (.nabs d a) = wordR 0x34 d a 0 0 0 ∧ encode (.isneg x a) = wordR 0x35 x a 0 0 0 ∧
    (∃ t, exec (.neg d a) s = .next t ∧ WritesV d (BitVec.ofInt 256 (-z)) 0 s t) ∧
    (∃ t, exec (.abs d a) s = .next t ∧ WritesV d (BitVec.ofInt 256 |z|) 0 s t) ∧
    (∃ t, exec (.nabs d a) s = .next t ∧ WritesV d (BitVec.ofInt 256 (-|z|)) 0 s t) ∧
    (∃ t, exec (.isneg x a) s = .next t ∧ WritesX x (if z < 0 then 1 else 0) s t)

/-- R149, R150: CMP compares the signed values and UCMP the unsigned patterns, exactly, giving -1, 0 or 1. -/
def Obligations.CompareCommands : Prop :=
  ∀ (d : XReg) (a b : VReg) (s : State),
    encode (.cmp d a b) = wordR 0x36 d a b 0 0 ∧ encode (.ucmp d a b) = wordR 0x37 d a b 0 0 ∧
    (∃ t, exec (.cmp d a b) s = .next t ∧ WritesX d (BitVec.ofInt 64 ((s.getV a).toInt - (s.getV b).toInt).sign) s t) ∧
    (∃ t, exec (.ucmp d a b) s = .next t ∧
      WritesX d (BitVec.ofInt 64 (((s.getV a).toNat : Int) - (s.getV b).toNat).sign) s t)

/-- R151, R152: MIN and MAX write the lesser and the greater signed value. -/
def Obligations.MinAndMax : Prop :=
  ∀ (d a b : VReg) (s : State),
    encode (.min d a b) = wordR 0x38 d a b 0 0 ∧ encode (.max d a b) = wordR 0x39 d a b 0 0 ∧
    (∃ t v, exec (.min d a b) s = .next t ∧ WritesV d v 0 s t ∧ v.toInt = Min.min (s.getV a).toInt (s.getV b).toInt) ∧
    (∃ t v, exec (.max d a b) s = .next t ∧ WritesV d v 0 s t ∧ v.toInt = Max.max (s.getV a).toInt (s.getV b).toInt)

/-! ### Multiply, divide, modulo (spec/43_muldiv.md) -/

/-- R160, R161: UMUL writes the exact product of the chosen halves; a non-zero field c or a selector above 3 is ILLEGAL_FIELD. -/
def Obligations.UmulWritesTheExactProduct : Prop :=
  ∀ (d a b : VReg) (ha hb : Half) (s : State),
    let x := if ha = .hi then (s.getV a).toNat / 2 ^ 128 else (s.getV a).toNat % 2 ^ 128
    let y := if hb = .hi then (s.getV b).toNat / 2 ^ 128 else (s.getV b).toNat % 2 ^ 128
    encode (.umul d a b ha hb) =
      wordR 0x40 d a b 0 (BitVec.ofNat 8 ((if ha = .hi then 1 else 0) + (if hb = .hi then 2 else 0))) ∧
    (∀ (f : BitVec 4) (k : BitVec 8), f ≠ 0 ∨ 3 < k.toNat → decode (wordR 0x40 d a b f k) = .error .field) ∧
    ∃ t v, exec (.umul d a b ha hb) s = .next t ∧ WritesV d v 0 s t ∧ v.toNat = x * y

/-- R162, R163: UDIV writes the quotient to lo and the remainder to hi, or raises DIV_PRECOND when the divisor half is 0 or
hi(N) is not below it; a non-zero field c or a selector above 1 is ILLEGAL_FIELD. -/
def Obligations.UdivDividesOrFaults : Prop :=
  ∀ (d a b : VReg) (h : Half) (s : State),
    let n := (s.getV a).toNat
    let q := if h = .hi then (s.getV b).toNat / 2 ^ 128 else (s.getV b).toNat % 2 ^ 128
    let w := wordR 0x41 d a b 0 (if h = .hi then 1 else 0)
    encode (.udiv d a b h) = w ∧
    (∀ (f : BitVec 4) (k : BitVec 8), f ≠ 0 ∨ 1 < k.toNat → decode (wordR 0x41 d a b f k) = .error .field) ∧
    (n / 2 ^ 128 < q → ∃ t v, exec (.udiv d a b h) s = .next t ∧ WritesV d v 0 s t ∧
      v.toNat % 2 ^ 128 = n / q ∧ v.toNat / 2 ^ 128 = n % q) ∧
    (q = 0 ∨ q ≤ n / 2 ^ 128 → ∃ t, exec (.udiv d a b h) s = .next t ∧ Faulted w 4 0 s t)

/-- R165 to R167: MUL rounds the magnitude's product half up, gives it the sign, and wraps; no flag. -/
def Obligations.MulRoundsHalfAwayFromZero : Prop :=
  ∀ (d a b : VReg) (s : State),
    let x := (s.getV a).toInt
    let y := (s.getV b).toInt
    let m : Int := ((x.natAbs * y.natAbs + 2 ^ 127) / 2 ^ 128 : Nat)
    encode (.mul d a b) = wordR 0x42 d a b 0 0 ∧
    ∃ t, exec (.mul d a b) s = .next t ∧ WritesV d (BitVec.ofInt 256 (if x * y < 0 then -m else m)) 0 s t

/-- R168, R170: DIV truncates the exact quotient toward zero; a zero divisor saturates with DZ, a quotient whose magnitude
exceeds 2^255 - 1 saturates with OVF. -/
def Obligations.DivTruncatesAndSaturates : Prop :=
  ∀ (d a b : VReg) (s : State),
    let x := (s.getV a).toInt
    let y := (s.getV b).toInt
    let q := (x * 2 ^ 128).tdiv y
    encode (.div d a b) = wordR 0x43 d a b 0 0 ∧
    ∃ t, exec (.div d a b) s = .next t ∧
      (y = 0 → WritesV d (BitVec.ofNat 256 (if x < 0 then 2 ^ 255 else maxNat)) 0b00001 s t) ∧
      (y ≠ 0 → maxNat < q.natAbs → WritesV d (BitVec.ofNat 256 (if q < 0 then 2 ^ 255 else maxNat)) 0b00010 s t) ∧
      (y ≠ 0 → q.natAbs ≤ maxNat → WritesV d (BitVec.ofInt 256 q) 0 s t)

/-- R171, R172: MOD is the exact truncated remainder of the patterns when the quotient did not saturate; otherwise the
saturated quotient's integer part is multiplied back, with OVF; a zero divisor saturates with DZ. -/
def Obligations.ModIsTheTruncatedRemainder : Prop :=
  ∀ (d a b : VReg) (s : State),
    let x := (s.getV a).toInt
    let y := (s.getV b).toInt
    let q := (x * 2 ^ 128).tdiv y
    encode (.mod d a b) = wordR 0x44 d a b 0 0 ∧
    ∃ t, exec (.mod d a b) s = .next t ∧
      (y = 0 → WritesV d (BitVec.ofNat 256 (if x < 0 then 2 ^ 255 else maxNat)) 0b00001 s t) ∧
      (y ≠ 0 → maxNat < q.natAbs →
        WritesV d (BitVec.ofInt 256 (x - (if q < 0 then -2 ^ 127 else 2 ^ 127 - 1) * y)) 0b00010 s t) ∧
      (y ≠ 0 → q.natAbs ≤ maxNat → WritesV d (BitVec.ofInt 256 (x.tmod y)) 0 s t)

/-! ### Roots (spec/44_sqrt_rsqrt.md) -/

/-- R190 to R192: SQRT gives MIN with INV for a negative value, ZERO for ZERO, and otherwise the seventh Newton iterate from
the seed; the early stop changes no result. -/
def Obligations.SqrtGivesTheSeventhIterate : Prop :=
  ∀ (d a : VReg) (s : State),
    let x := (s.getV a).toNat
    encode (.sqrt d a) = wordR 0x48 d a 0 0 0 ∧
    ∃ t, exec (.sqrt d a) s = .next t ∧
      (2 ^ 255 ≤ x → WritesV d (BitVec.ofNat 256 (2 ^ 255)) 0b00100 s t) ∧
      (x = 0 → WritesV d 0 0 s t) ∧
      (0 < x → x < 2 ^ 255 → WritesV d (BitVec.ofNat 256 ((sqrtNext x)^[7] (sqrtStart x))) 0 s t)

/-- R193 to R196: RSQRT gives MIN with INV for a value that is not positive, and otherwise the seventh Newton iterate from
the seed, with rounded unsigned products; the early stop changes no result. -/
def Obligations.RsqrtGivesTheSeventhIterate : Prop :=
  ∀ (d a : VReg) (s : State),
    let x := (s.getV a).toNat
    encode (.rsqrt d a) = wordR 0x49 d a 0 0 0 ∧
    ∃ t, exec (.rsqrt d a) s = .next t ∧
      (2 ^ 255 ≤ x ∨ x = 0 → WritesV d (BitVec.ofNat 256 (2 ^ 255)) 0b00100 s t) ∧
      (0 < x → x < 2 ^ 255 → WritesV d (BitVec.ofNat 256 ((rsqrtNext (x / 2))^[7] (rsqrtStart x))) 0 s t)

/-! ### Rounding (spec/45_rounding.md) -/

/-- R210 to R212: FLOOR, CEIL and ROUND to a multiple of 2^128, ROUND half away from zero, wrapping above MAX. -/
def Obligations.RoundingCommands : Prop :=
  ∀ (d a : VReg) (s : State),
    let z := (s.getV a).toInt
    let m : Int := ((z.natAbs + 2 ^ 127) / 2 ^ 128 : Nat)
    encode (.floor d a) = wordR 0x50 d a 0 0 0 ∧ encode (.ceil d a) = wordR 0x51 d a 0 0 0 ∧
    encode (.round d a) = wordR 0x52 d a 0 0 0 ∧
    (∃ t, exec (.floor d a) s = .next t ∧ WritesV d (BitVec.ofInt 256 (z / 2 ^ 128 * 2 ^ 128)) 0 s t) ∧
    (∃ t, exec (.ceil d a) s = .next t ∧ WritesV d (BitVec.ofInt 256 (-(-z / 2 ^ 128) * 2 ^ 128)) 0 s t) ∧
    (∃ t, exec (.round d a) s = .next t ∧
      WritesV d (BitVec.ofInt 256 ((if z < 0 then -m else m) * 2 ^ 128)) 0 s t)

/-! ### Formatter and parsers (spec/46_format.md, spec/47_parse.md) -/

/-- R229 to R231: FMT (V[a] under the record of FMTCTL, FMTWIDTH and FMTPREC) and FMTD (V[a] under the default record), both
with DPCHAR as the point, write as much of the string as fits and a NUL, the untruncated length to X[d], and TRUNC when it did
not fit; capacity 0 is FMT_CAPACITY, a range outside DMEM is MEM_RANGE, and then nothing is written. A SIGN of 3, which no run
stores, counts as Default (log 13). -/
def Obligations.FmtAndFmtdWriteTheString : Prop :=
  ∀ (d : XReg) (a : VReg) (b c : XReg) (s : State) (i : Instr) (w : Command) (str : List Byte),
    (i, w, str) ∈ [(Instr.fmt d a b c, wordR 0x60 d a b c 0, fmtText s a),
                   (Instr.fmtd d a b c, wordR 0x61 d a b c 0, fmtdText s a)] →
    let A := (s.getX b).toNat
    let cap := (s.getX c).toNat
    let n := min str.length (cap - 1)
    encode i = w ∧
    (1 ≤ cap → A + n + 1 ≤ s.dmemSize → ∃ t, exec i s = .next t ∧
      t.getX d = BitVec.ofNat 64 str.length ∧ SameXExcept d s t ∧ SameV s t ∧ SameControl s t ∧
      (∀ j, j < n → t.mem.read (A + j) = str.getD j 0) ∧ t.mem.read (A + n) = 0 ∧ SameMemOutside A (n + 1) s t ∧
      t.status = s.status ||| (if cap - 1 < str.length then 0b10000 else 0)) ∧
    (cap = 0 → ∃ t, exec i s = .next t ∧ Faulted w 5 0 s t) ∧
    (1 ≤ cap → s.dmemSize < A + n + 1 → ∃ t, exec i s = .next t ∧
      Faulted w 3 (BitVec.ofNat 64 (max A s.dmemSize)) s t)

/-- R220 to R228: the formatted string is the sign, the decimal digits of the magnitude times 10^k rounded half up, with the
point before the last k of them unless R226 omits it, and the padding; k is the precision, or in automatic mode the fewest
digits that are exact, at most 39. -/
def Obligations.FormattedStringIsTheRoundedDecimal : Prop :=
  ∀ (v : Value) (fr : FormatRecord) (dp : Byte),
    let m := v.toInt.natAbs
    ∃ (k : Nat) (ip fp : List Nat),
      IsDigitCount m fr.precision k ∧ fp.length = k ∧ (∀ x ∈ ip ++ fp, x ≤ 9) ∧
      ip ≠ [] ∧ (ip.head? = some 0 → ip = [0]) ∧
      digitsValue 10 (ip ++ fp) = (m * 10 ^ k + 2 ^ 127) / 2 ^ 128 ∧
      (format v fr dp).bytes = padded fr (signString (decide (v.toInt < 0)) fr.sign)
        (ip.map asciiDigit ++ (if fr.precision = 0 ∧ fr.alwaysDecimal = false then [] else [dp]) ++ fp.map asciiDigit)

/-- R232, R233: FMTPARSE of an optional '%', flags, width digits, an optional precision and the byte last that ends the parse
writes the record to FMTCTL, FMTWIDTH and FMTPREC: Plus over Space, numbers saturating at 2^31 - 1, precision -1 without a
point. The premises on width and last say that the string ends where it is written to end: the width begins with no '0' (that
is a flag); last is no digit, not '.' where there is no precision, no flag where neither width nor precision precedes it, and
not '%' where nothing at all precedes it. -/
def Obligations.FmtparseReadsAFormatString : Prop :=
  ∀ (a : XReg) (s : State) (percent : Bool) (flags : List Byte) (width : List Nat) (prec : Option (List Nat)) (last : Byte),
    (∀ f ∈ flags, f ∈ [32#8, 43#8, 48#8, 45#8, 35#8]) → (∀ x ∈ width, x ≤ 9) → width.head? ≠ some 0 →
    (∀ ds ∈ prec, ∀ x ∈ ds, x ≤ 9) → (∀ x, x ≤ 9 → asciiDigit x ≠ last) → (prec = none → last ≠ 46#8) →
    (prec = none → width = [] → last ∉ [32#8, 43#8, 48#8, 45#8, 35#8]) →
    (prec = none → width = [] → flags = [] → percent = false → last ≠ 37#8) →
    StringAt s (s.getX a).toNat (formatText percent flags width prec last) →
    encode (.fmtparse a) = wordR 0x62 0 a 0 0 0 ∧
    exec (.fmtparse a) s = .next { s with
      fmtctl := BitVec.ofNat 5 ((if 43#8 ∈ flags then 2 else if 32#8 ∈ flags then 1 else 0) +
        (if 48#8 ∈ flags then 4 else 0) + (if 35#8 ∈ flags then 8 else 0) + (if 45#8 ∈ flags then 16 else 0)),
      fmtwidth := BitVec.ofNat 31 (min (2 ^ 31 - 1) (digitsValue 10 width)),
      fmtprec := match prec with
        | none => -1
        | some ds => BitVec.ofNat 32 (min (2 ^ 31 - 1) (digitsValue 10 ds)) }

/-- R233, R232: on every string FMTPARSE writes the parsed record, or raises MEM_RANGE at the first needed byte outside DMEM
and writes no control register but the fault registers. -/
def Obligations.FmtparseCompletesOrFaults : Prop :=
  ∀ (a : XReg) (s : State),
    (∀ fr, s.formatParse (s.getX a).toNat = .ok fr → exec (.fmtparse a) s = .next { s with
      fmtctl := BitVec.ofNat 5 ((match fr.sign with | .default => 0 | .space => 1 | .plus => 2) +
        (if fr.zeroPad then 4 else 0) + (if fr.alwaysDecimal then 8 else 0) + (if fr.leftAlign then 16 else 0)),
      fmtwidth := BitVec.ofNat 31 fr.width, fmtprec := BitVec.ofInt 32 fr.precision }) ∧
    (∀ q, s.formatParse (s.getX a).toNat = .error q → q = max (s.getX a).toNat s.dmemSize ∧
      ∃ t, exec (.fmtparse a) s = .next t ∧ Faulted (wordR 0x62 0 a 0 0 0) 3 (BitVec.ofNat 64 q) s t)

/-- R251 to R257, R259: PARSE of whitespace, an optional sign, for base 16 the prefix, digits and an optional fraction after
the point of DPCHAR: the integer digits mod 2^128, the floor of the fraction, the sign, and the address of the byte last that
ends the number. The premises on last and DPCHAR say that the number ends where it is written to end: last is no digit of the
base, and not the point where there is no fraction; a point that is used is no digit; the byte after the integer digits does
not read as whitespace or a sign where nothing but whitespace precedes it, nor as the x of a prefix after a lone 0. -/
def Obligations.ParseReadsANumber : Prop :=
  ∀ (d : VReg) (a b : XReg) (s : State) (last : Byte) (ws sign pre : List Byte) (base : Nat) (is : List (Nat × Bool))
    (fs : Option (List (Nat × Bool))),
    (∀ c ∈ ws, c ∈ [0x20#8, 0x09#8, 0x0D#8, 0x0A#8, 0x0B#8]) → sign ∈ [[], [43#8], [45#8]] →
    (pre, base) ∈ [([], 10), ([48#8, 120#8], 16), ([48#8, 88#8], 16)] →
    (∀ x ∈ is, x.1 < base) → (∀ ds ∈ fs, ∀ x ∈ ds, x.1 < base) →
    (∀ x : Nat × Bool, x.1 < base → hexByte x ≠ last ∧ (fs ≠ none → hexByte x ≠ s.dpchar)) →
    (fs = none → last ≠ s.dpchar) →
    (sign = [] → pre = [] → is = [] →
      afterInteger s.dpchar last fs ∉ [0x20#8, 0x09#8, 0x0D#8, 0x0A#8, 0x0B#8, 43#8, 45#8]) →
    (pre = [] → is.map Prod.fst = [0] → afterInteger s.dpchar last fs ∉ [120#8, 88#8]) →
    StringAt s (s.getX a).toNat (numberText s.dpchar last ws sign pre is fs) →
    let frac := (fs.getD []).map Prod.fst
    let m : Int := (digitsValue base (is.map Prod.fst) % 2 ^ 128 * 2 ^ 128 +
      2 ^ 128 * digitsValue base frac / base ^ frac.length : Nat)
    encode (.parse d a b) = wordR 0x68 d a b 0 0 ∧
    ∃ t, exec (.parse d a b) s = .next t ∧ t.getV d = BitVec.ofInt 256 (if sign = [45#8] then -m else m) ∧
      t.getX b = BitVec.ofNat 64 ((s.getX a).toNat + (numberText s.dpchar last ws sign pre is fs).length - 1) ∧
      SameVExcept d s t ∧ SameXExcept b s t ∧ SameMem s t ∧ t.status = s.status ∧ SameControl s t

/-- R258, R250: on every string PARSE writes the value and the end address, which is inside DMEM, or raises MEM_RANGE at the
first needed byte outside DMEM and writes neither. -/
def Obligations.ParseCompletesOrFaults : Prop :=
  ∀ (d : VReg) (a b : XReg) (s : State),
    (∀ v e, s.parse (s.getX a).toNat s.dpchar = .ok (v, e) → e < s.dmemSize ∧ (s.getX a).toNat ≤ e ∧
      ∃ t, exec (.parse d a b) s = .next t ∧ t.getV d = v ∧ t.getX b = BitVec.ofNat 64 e ∧
        SameVExcept d s t ∧ SameXExcept b s t ∧ SameMem s t ∧ t.status = s.status ∧ SameControl s t) ∧
    (∀ q, s.parse (s.getX a).toNat s.dpchar = .error q → q = max (s.getX a).toNat s.dmemSize ∧
      ∃ t, exec (.parse d a b) s = .next t ∧ Faulted (wordR 0x68 d a b 0 0) 3 (BitVec.ofNat 64 q) s t)

/-! ### Conversions (spec/48_conversions.md) -/

/-- R270, R271: FROMINT is exact; TOINT is the integer part toward zero, its low 64 bits. -/
def Obligations.IntegerConversions : Prop :=
  ∀ (v : VReg) (x : XReg) (s : State),
    encode (.fromint v x) = wordR 0x70 v x 0 0 0 ∧ encode (.toint x v) = wordR 0x71 x v 0 0 0 ∧
    (∃ t r, exec (.fromint v x) s = .next t ∧ WritesV v r 0 s t ∧ r.toInt = (s.getX x).toInt * 2 ^ 128) ∧
    (∃ t, exec (.toint x v) s = .next t ∧ WritesX x (BitVec.ofInt 64 ((s.getV v).toInt.tdiv (2 ^ 128))) s t)

/-- R273, R274: FROMF gives ZERO with INV for a NaN, MAX or MIN with RNG outside [-2^127, 2^127), and otherwise the value
truncated toward zero at 2^-128. The magnitude is in units of 2^-1074. -/
def Obligations.FromfConvertsADouble : Prop :=
  ∀ (d : VReg) (a : XReg) (s : State),
    let x := (s.getX a).toNat
    let e := x / 2 ^ 52 % 2048
    let f := x % 2 ^ 52
    let m := if e = 0 then f else (2 ^ 52 + f) * 2 ^ (e - 1)
    encode (.fromf d a) = wordR 0x72 d a 0 0 0 ∧
    ∃ t, exec (.fromf d a) s = .next t ∧
      (e = 2047 → f ≠ 0 → WritesV d 0 0b00100 s t) ∧
      (¬ (e = 2047 ∧ f ≠ 0) → x < 2 ^ 63 → 2 ^ 1201 ≤ m → WritesV d (BitVec.ofNat 256 maxNat) 0b01000 s t) ∧
      (¬ (e = 2047 ∧ f ≠ 0) → 2 ^ 63 ≤ x → 2 ^ 1201 < m → WritesV d (BitVec.ofNat 256 (2 ^ 255)) 0b01000 s t) ∧
      (x < 2 ^ 63 → m < 2 ^ 1201 → WritesV d (BitVec.ofNat 256 (m / 2 ^ 946)) 0 s t) ∧
      (2 ^ 63 ≤ x → m ≤ 2 ^ 1201 → WritesV d (BitVec.ofInt 256 (-(m / 2 ^ 946 : Nat))) 0 s t)

/-- R275, R276: TOF rounds the integer half and the fractional half of the magnitude to doubles, then their sum, and sets the
sign of a negative value. -/
def Obligations.TofRoundsTheHalvesAndTheirSum : Prop :=
  ∀ (d : XReg) (a : VReg) (s : State),
    let z := (s.getV a).toInt
    let h := patternMagnitude (rne (z.natAbs / 2 ^ 128 * 2 ^ 1074))
    let f := patternMagnitude (rne (z.natAbs % 2 ^ 128 * 2 ^ 1074)) / 2 ^ 128
    encode (.tof d a) = wordR 0x73 d a 0 0 0 ∧
    ∃ t, exec (.tof d a) s = .next t ∧
      WritesX d (BitVec.ofNat 64 (rne (h + f) + (if z < 0 then 2 ^ 63 else 0))) s t

/-- R272: rne is round to nearest, ties to even, of a number in units of 2^-1074 to a binary64 pattern, with overflow to
infinity from half a unit past the largest finite pattern on. -/
def Obligations.RneIsNearestTiesToEven : Prop :=
  ∀ m : Nat,
    ((2 ^ 54 - 1) * 2 ^ 2044 ≤ m → rne m = 2047 * 2 ^ 52) ∧
    (m < (2 ^ 54 - 1) * 2 ^ 2044 → rne m < 2047 * 2 ^ 52 ∧ ∀ p, p < 2047 * 2 ^ 52 → p ≠ rne m →
      distance (patternMagnitude (rne m)) m ≤ distance (patternMagnitude p) m ∧
      (distance (patternMagnitude (rne m)) m = distance (patternMagnitude p) m → rne m % 2 = 0))

/-! ### Control registers (spec/49_control.md) -/

/-- R290: CSRR writes the 64-bit read value of every defined register, FMTPREC sign-extended and the others zero-extended, and
changes none; FAULT reads 0 in a run; an undefined number or a non-zero field a, b or c is ILLEGAL_FIELD. -/
def Obligations.CsrrReadsEveryRegister : Prop :=
  ∀ (d : XReg) (s : State),
    (∀ (c : Csr) (n v : Nat),
      (c, n, v) ∈ [(Csr.cfg, 0, s.dmemSize), (.status, 1, s.status.toNat), (.dpchar, 2, s.dpchar.toNat),
        (.fmtctl, 3, s.fmtctl.toNat), (.fmtwidth, 4, s.fmtwidth.toNat),
        (.fmtprec, 5, (s.fmtprec.toInt % 2 ^ 64).toNat), (.fault, 8, s.fault.toNat), (.fcmd, 9, s.fcmd.toNat),
        (.faddr, 10, s.faddr.toNat)] →
      encode (.csrr d c) = wordR 0x7E d 0 0 0 (BitVec.ofNat 8 n) ∧
      ∃ t, exec (.csrr d c) s = .next t ∧ WritesX d (BitVec.ofNat 64 v) s t) ∧
    (s.faultOk → s.run ≠ .faulted → ∃ t, exec (.csrr d .fault) s = .next t ∧ WritesX d 0 s t) ∧
    (∀ (a b c : BitVec 4) (n : BitVec 8), a ≠ 0 ∨ b ≠ 0 ∨ c ≠ 0 ∨ n = 6 ∨ n = 7 ∨ 0x0B ≤ n →
      decode (wordR 0x7E d a b c n) = .error .field)

/-- R291: CSRW stores X[a] under each register's write rule and changes nothing else; a register commands may not write, or an
undefined number, or a non-zero field d, b or c, is ILLEGAL_FIELD. -/
def Obligations.CsrwFollowsTheWriteRules : Prop :=
  ∀ (a : XReg) (s : State),
    let n := (s.getX a).toNat
    let z := (s.getX a).toInt
    (∀ (c : Csr) (k : Nat),
      (c, k) ∈ [(Csr.status, 1), (.dpchar, 2), (.fmtctl, 3), (.fmtwidth, 4), (.fmtprec, 5)] →
      encode (.csrw c a) = wordR 0x7F 0 a 0 0 (BitVec.ofNat 8 k)) ∧
    exec (.csrw .status a) s = .next { s with status := BitVec.ofNat 5 n } ∧
    exec (.csrw .dpchar a) s = .next { s with dpchar := BitVec.ofNat 8 n } ∧
    exec (.csrw .fmtctl a) s = .next { s with fmtctl := BitVec.ofNat 5 (if n % 4 = 3 then n - 3 else n) } ∧
    exec (.csrw .fmtwidth a) s = .next { s with fmtwidth := BitVec.ofNat 31 (min n (2 ^ 31 - 1)) } ∧
    exec (.csrw .fmtprec a) s =
      .next { s with fmtprec := BitVec.ofInt 32 (if z < 0 then -1 else min z (2 ^ 31 - 1)) } ∧
    (∀ (d b c : BitVec 4) (k : BitVec 8), d ≠ 0 ∨ b ≠ 0 ∨ c ≠ 0 ∨ k = 0 ∨ 6 ≤ k →
      decode (wordR 0x7F d a b c k) = .error .field)
end

