-- ==== Sys2Proof/Laws/Decode.lean ====
section
/-! SUPPORT. The fields of a word of each format, the word as its fields, and the opcode map read both ways. -/

namespace Sys2Proof

section fields

variable (o : Opcode) (d a b c : BitVec 4) (imm8 : BitVec 8) (imm16 : BitVec 16)

@[simp] theorem fieldOp_formatR : fieldOp (formatR o d a b c imm8) = o.code := by
  simp only [fieldOp, formatR]; ext i hi; simp [BitVec.getElem_extractLsb']; grind
@[simp] theorem fieldD_formatR : fieldD (formatR o d a b c imm8) = d := by
  simp only [fieldD, formatR]; ext i hi; simp [BitVec.getElem_extractLsb']; grind
@[simp] theorem fieldA_formatR : fieldA (formatR o d a b c imm8) = a := by
  simp only [fieldA, formatR]; ext i hi; simp [BitVec.getElem_extractLsb']; grind
@[simp] theorem fieldB_formatR : fieldB (formatR o d a b c imm8) = b := by
  simp only [fieldB, formatR]; ext i hi; simp [BitVec.getElem_extractLsb']; grind
@[simp] theorem fieldC_formatR : fieldC (formatR o d a b c imm8) = c := by
  simp only [fieldC, formatR]; ext i hi; simp [BitVec.getElem_extractLsb']; grind
@[simp] theorem fieldImm8_formatR : fieldImm8 (formatR o d a b c imm8) = imm8 := by
  simp only [fieldImm8, formatR]; ext i hi; simp [BitVec.getElem_extractLsb']; grind
@[simp] theorem fieldOp_formatM : fieldOp (formatM o d a imm16) = o.code := by
  simp only [fieldOp, formatM]; ext i hi; simp [BitVec.getElem_extractLsb']; grind
@[simp] theorem fieldD_formatM : fieldD (formatM o d a imm16) = d := by
  simp only [fieldD, formatM]; ext i hi; simp [BitVec.getElem_extractLsb']; grind
@[simp] theorem fieldA_formatM : fieldA (formatM o d a imm16) = a := by
  simp only [fieldA, formatM]; ext i hi; simp [BitVec.getElem_extractLsb']; grind
@[simp] theorem fieldImm16_formatM : fieldImm16 (formatM o d a imm16) = imm16 := by
  simp only [fieldImm16, formatM]; ext i hi; simp [BitVec.getElem_extractLsb']; grind

end fields

/-- A word is the fields of format R put together (30_encoding R81). -/
theorem word_eq_fieldsR (w : Command) :
    (fieldOp w ++ fieldD w ++ fieldA w ++ fieldB w ++ fieldC w ++ fieldImm8 w : BitVec 32) = w := by
  ext i hi
  simp [fieldOp, fieldD, fieldA, fieldB, fieldC, fieldImm8, ← BitVec.getLsbD_eq_getElem]
  grind

/-- A word is the fields of format M put together (30_encoding R82). -/
theorem word_eq_fieldsM (w : Command) : (fieldOp w ++ fieldD w ++ fieldA w ++ fieldImm16 w : BitVec 32) = w := by
  ext i hi
  simp [fieldOp, fieldD, fieldA, fieldImm16, ← BitVec.getLsbD_eq_getElem]
  grind

/-- A word whose opcode byte is o's is the format R word of its fields. -/
theorem formatR_fields (o : Opcode) (w : Command) (h : fieldOp w = o.code) :
    formatR o (fieldD w) (fieldA w) (fieldB w) (fieldC w) (fieldImm8 w) = w := by
  conv_rhs => rw [← word_eq_fieldsR w, h]
  rfl

/-- A word whose opcode byte is o's is the format M word of its fields. -/
theorem formatM_fields (o : Opcode) (w : Command) (h : fieldOp w = o.code) :
    formatM o (fieldD w) (fieldA w) (fieldImm16 w) = w := by
  conv_rhs => rw [← word_eq_fieldsM w, h]
  rfl

/-- Every opcode is the one its byte stands for. -/
@[simp] theorem Opcode.ofCode_code (o : Opcode) : Opcode.ofCode o.code = some o := by
  cases o <;> decide

/-- A byte that stands for an opcode is that opcode's. -/
theorem Opcode.code_of_ofCode (c : BitVec 8) (o : Opcode) (h : Opcode.ofCode c = some o) : o.code = c := by
  simpa using List.find?_some h

@[simp] theorem ConstName.ofK_k (k : ConstName) : ConstName.ofK k.k = some k := by cases k <;> decide

theorem ConstName.k_of_ofK (n : BitVec 8) (k : ConstName) (h : ConstName.ofK n = some k) : k.k = n := by
  simpa using List.find?_some h

@[simp] theorem Csr.ofNumber_number (c : Csr) : Csr.ofNumber c.number = some c := by cases c <;> decide

theorem Csr.number_of_ofNumber (n : BitVec 8) (c : Csr) (h : Csr.ofNumber n = some c) : c.number = n := by
  simpa using List.find?_some h

@[simp] theorem Half.ofSel_sel (h : Half) : Half.ofSel h.sel = some h := by cases h <;> decide

theorem Half.sel_of_ofSel (n : BitVec 8) (h : Half) (e : Half.ofSel n = some h) : h.sel = n := by
  unfold Half.ofSel at e
  grind [Half.sel]

@[simp] theorem umulHalves_umulSel (ha hb : Half) : umulHalves (umulSel ha hb) = some (ha, hb) := by
  cases ha <;> cases hb <;> decide

theorem umulSel_of_umulHalves (n : BitVec 8) (h : Half × Half) (e : umulHalves n = some h) : umulSel h.1 h.2 = n := by
  unfold umulHalves at e
  split at e
  · next h0 => cases e; subst h0; decide
  split at e
  · next h0 => cases e; subst h0; decide
  split at e
  · next h0 => cases e; subst h0; decide
  split at e
  · next h0 => cases e; subst h0; decide
  · cases e

/-- The opcode byte of a command's word. -/
theorem fieldOp_encode (i : Instr) : fieldOp (encode i) = i.opcode.code := by
  cases i <;> simp [encode, Instr.opcode]

/-- The decoder in one equation once the opcode is known. -/
theorem decode_of_opcode (w : Command) (o : Opcode) (h : fieldOp w = o.code) :
    decode w = match decodeFields o w with | none => .error .field | some i => .ok i := by
  have e : Opcode.ofCode (fieldOp w) = some o := h ▸ Opcode.ofCode_code o
  unfold decode
  cases hd : decodeFields o w <;> simp [e, hd]

/-- What a word that decodes tells: its opcode and the fields' reading. -/
theorem decode_eq_ok (w : Command) (i : Instr) (h : decode w = .ok i) :
    ∃ o, fieldOp w = o.code ∧ decodeFields o w = some i := by
  unfold decode at h
  split at h
  · cases h
  · next o ho =>
    refine ⟨o, (Opcode.code_of_ofCode _ _ ho).symm, ?_⟩
    split at h
    · cases h
    · next j hj => cases h; exact hj

/-- Two words put together are equal when their parts are. -/
theorem append_eq_append_iff {m n : Nat} (x x' : BitVec m) (y y' : BitVec n) : x ++ y = x' ++ y' ↔ x = x' ∧ y = y' := by
  constructor
  · intro h
    constructor
    · simpa only [BitVec.extractLsb'_append_eq_left] using congrArg (fun z => z.extractLsb' n m) h
    · simpa only [BitVec.extractLsb'_append_eq_right] using congrArg (fun z => z.extractLsb' 0 n) h
  · rintro ⟨rfl, rfl⟩; rfl

/-- What a match and mask pair of spec/opcode_table.json says of the fields. -/
theorem and_mask_eq_iff (w : Command) (op : BitVec 8) (md ma mb mc : BitVec 4) (mi : BitVec 8) :
    w &&& (0xFF#8 ++ md ++ ma ++ mb ++ mc ++ mi : BitVec 32) = (op ++ 0#4 ++ 0#4 ++ 0#4 ++ 0#4 ++ 0#8 : BitVec 32) ↔
      fieldOp w = op ∧ fieldD w &&& md = 0 ∧ fieldA w &&& ma = 0 ∧ fieldB w &&& mb = 0 ∧ fieldC w &&& mc = 0 ∧
        fieldImm8 w &&& mi = 0 := by
  have key : ∀ (o : BitVec 8) (d a b c : BitVec 4) (i : BitVec 8),
      (o ++ d ++ a ++ b ++ c ++ i) &&& (0xFF#8 ++ md ++ ma ++ mb ++ mc ++ mi) = op ++ 0#4 ++ 0#4 ++ 0#4 ++ 0#4 ++ 0#8 ↔
      o = op ∧ d &&& md = 0 ∧ a &&& ma = 0 ∧ b &&& mb = 0 ∧ c &&& mc = 0 ∧ i &&& mi = 0 := by
    intro o d a b c i
    simp only [BitVec.and_append, append_eq_append_iff, and_assoc]
    rw [show (255#8) = BitVec.allOnes 8 from rfl, BitVec.and_allOnes]
    rfl
  conv_lhs => rw [← word_eq_fieldsR w]
  exact key _ _ _ _ _ _

end Sys2Proof
end

