-- ==== Sys2Proof/Laws/Memory.lean ====
section
/-! SUPPORT. The laws of DMEM: a read after a write, the canonical form and the range of addresses kept by every memory
operation, and the little-endian images (spec/20_memory.md R61 to R63). -/

namespace Sys2Proof.Machine

@[simp] theorem Memory.read_nil (a : Nat) : Memory.read [] a = Memory.unlisted := rfl

theorem Memory.read_cons (c : Host.Cell) (m : Memory) (a : Nat) :
    Memory.read (c :: m) a = if c.1 = a then c.2 else Memory.read m a := rfl

/-- Erasing an address makes it unlisted and leaves every other address alone. -/
theorem Memory.read_erase (m : Memory) (a b : Nat) :
    (m.erase a).read b = if b = a then Memory.unlisted else m.read b := by
  induction m with
  | nil => simp [Memory.erase]
  | cons c m ih => grind [Memory.erase, Memory.read]

/-- Inserting an entry for an address without one gives that address its byte and leaves every other alone. -/
theorem Memory.read_insert (m : Memory) (a b : Nat) (x : Byte) (h : ∀ c ∈ m, c.1 ≠ a) :
    (Memory.insert m a x).read b = if b = a then x else m.read b := by
  induction m with
  | nil => grind [Memory.insert, Memory.read]
  | cons c m ih =>
    have ih := ih fun e he => h e (List.mem_cons_of_mem _ he)
    grind [Memory.insert, Memory.read]

theorem Memory.erase_eq_filter (m : Memory) (a : Nat) : m.erase a = m.filter (fun c => c.1 ≠ a) := by
  induction m with
  | nil => rfl
  | cons c m ih => grind [Memory.erase]

/-- A byte reads as last written, and every other byte is left alone (20_memory R61). -/
theorem Memory.read_write (m : Memory) (a b : Nat) (x : Byte) :
    (m.write a x).read b = if b = a then x else m.read b := by
  unfold Memory.write
  split
  · next h => rw [Memory.read_erase, h]
  · rw [Memory.read_insert _ _ _ _ (by simp [Memory.erase_eq_filter]), Memory.read_erase]
    split <;> rfl

/-- Every address of a memory is below a bound. -/
def Memory.below (m : Memory) (n : Nat) : Bool := m.all fun c => c.1 < n

theorem Memory.wf_cons (c : Host.Cell) (m : Memory) :
    Memory.wf (c :: m) = true ↔ c.2 ≠ Memory.unlisted ∧ (∀ e ∈ m, c.1 < e.1) ∧ Memory.wf m = true := by
  simp [Memory.wf, and_assoc]

theorem Memory.wf_erase (m : Memory) (a : Nat) (h : m.wf = true) : (m.erase a).wf = true := by
  rw [Memory.erase_eq_filter]
  induction m with
  | nil => rfl
  | cons c m ih =>
    obtain ⟨h1, h2, h3⟩ := (Memory.wf_cons c m).1 h
    rw [List.filter_cons]
    split
    · exact (Memory.wf_cons _ _).2 ⟨h1, fun e he => h2 e (List.mem_of_mem_filter he), ih h3⟩
    · exact ih h3

theorem Memory.mem_insert (m : Memory) (a : Nat) (x : Byte) (e : Host.Cell) :
    e ∈ Memory.insert m a x ↔ e = (a, x) ∨ e ∈ m := by
  induction m with
  | nil => simp [Memory.insert]
  | cons c m ih => grind [Memory.insert]

theorem Memory.wf_insert (m : Memory) (a : Nat) (x : Byte) (hx : x ≠ Memory.unlisted) (h : m.wf = true)
    (ha : ∀ c ∈ m, c.1 ≠ a) : (Memory.insert m a x).wf = true := by
  induction m with
  | nil => simpa [Memory.insert, Memory.wf] using hx
  | cons c m ih =>
    obtain ⟨h1, h2, h3⟩ := (Memory.wf_cons c m).1 h
    rw [Memory.insert]
    split
    · next hlt =>
      refine (Memory.wf_cons _ _).2 ⟨hx, ?_, h⟩
      intro e he
      rcases List.mem_cons.1 he with rfl | he
      · exact hlt
      · exact Nat.lt_trans hlt (h2 e he)
    · next hlt =>
      refine (Memory.wf_cons _ _).2 ⟨h1, ?_, ih h3 fun e he => ha e (List.mem_cons_of_mem _ he)⟩
      intro e he
      rcases (Memory.mem_insert _ _ _ _).1 he with rfl | he
      · have := ha c List.mem_cons_self
        simp only
        omega
      · exact h2 e he

/-- A write keeps the canonical form. -/
theorem Memory.wf_write (m : Memory) (a : Nat) (x : Byte) (h : m.wf = true) : (m.write a x).wf = true := by
  unfold Memory.write
  split
  · exact Memory.wf_erase m a h
  · next hx => exact Memory.wf_insert _ _ _ hx (Memory.wf_erase m a h) (by simp [Memory.erase_eq_filter])

/-- A write below a bound keeps every address below it. -/
theorem Memory.below_write (m : Memory) (a n : Nat) (x : Byte) (h : m.below n = true) (ha : a < n) :
    (m.write a x).below n = true := by
  simp only [Memory.below, List.all_eq_true, decide_eq_true_eq] at *
  intro c hc
  unfold Memory.write at hc
  rw [Memory.erase_eq_filter] at hc
  split at hc
  · exact h c (List.mem_of_mem_filter hc)
  · rcases (Memory.mem_insert _ _ _ _).1 hc with rfl | hc
    · exact ha
    · exact h c (List.mem_of_mem_filter hc)

/-! Ranges of bytes. -/

/-- Writing bytes keeps the canonical form. -/
theorem Memory.wf_writeBytes (bs : List Byte) : ∀ (m : Memory) (a : Nat), m.wf = true → (m.writeBytes a bs).wf = true := by
  induction bs with
  | nil => intro m a h; exact h
  | cons b bs ih => intro m a h; exact ih _ _ (Memory.wf_write m a b h)

/-- Writing bytes below a bound keeps every address below it. -/
theorem Memory.below_writeBytes (n : Nat) (bs : List Byte) : ∀ (m : Memory) (a : Nat), m.below n = true →
    a + bs.length ≤ n → (m.writeBytes a bs).below n = true := by
  induction bs with
  | nil => intro m a h _; exact h
  | cons b bs ih =>
    intro m a h hn
    simp only [List.length_cons] at hn
    exact ih _ _ (Memory.below_write m a n b h (by omega)) (by omega)

/-- What every address reads as after bytes were written from a on (20_memory R61). -/
theorem Memory.read_writeBytes (bs : List Byte) : ∀ (m : Memory) (a b : Nat),
    (m.writeBytes a bs).read b = if a ≤ b ∧ b < a + bs.length then bs.getD (b - a) 0 else m.read b := by
  induction bs with
  | nil => intro m a b; simp [Memory.writeBytes]
  | cons x bs ih =>
    intro m a b
    rw [Memory.writeBytes, ih, Memory.read_write]
    rcases Nat.lt_trichotomy b a with h | rfl | h
    · simp [show ¬ (a + 1 ≤ b) by omega, show ¬ (a ≤ b) by omega, show b ≠ a by omega]
    · simp
    · obtain ⟨k, rfl⟩ : ∃ k, b = a + 1 + k := ⟨b - a - 1, by omega⟩
      simp only [List.length_cons]
      rw [show a + 1 + k - (a + 1) = k by omega, show a + 1 + k - a = k + 1 by omega]
      simp only [List.getD_cons_succ, show a + 1 + k ≠ a by omega, if_false]
      congr 1
      apply propext
      omega

/-- A byte outside the written range reads as before. -/
theorem Memory.read_writeBytes_outside (m : Memory) (a b : Nat) (bs : List Byte) (h : b < a ∨ a + bs.length ≤ b) :
    (m.writeBytes a bs).read b = m.read b := by
  rw [Memory.read_writeBytes, if_neg (by omega)]

@[simp] theorem Memory.readBytes_length (m : Memory) (n : Nat) : ∀ a, (m.readBytes a n).length = n := by
  induction n with
  | zero => intro a; rfl
  | succ n ih => intro a; simp [Memory.readBytes, ih]

/-- The i-th of n bytes read from a on is the byte at a + i. -/
theorem Memory.readBytes_getD (m : Memory) (n : Nat) : ∀ (a i : Nat), i < n → (m.readBytes a n).getD i 0 = m.read (a + i) := by
  induction n with
  | zero => intro a i h; omega
  | succ n ih =>
    intro a i h
    cases i with
    | zero => rfl
    | succ i =>
      rw [Memory.readBytes, List.getD_cons_succ, ih (a + 1) i (by omega)]
      congr 1
      omega

/-! Little-endian images. -/

@[simp] theorem leBytes_length (n : Nat) : ∀ v, (leBytes n v).length = n := by
  induction n with
  | zero => intro v; rfl
  | succ n ih => intro v; simp [leBytes, ih]

@[simp] theorem valueBytes_length (v : Value) : (valueBytes v).length = 32 := by simp [valueBytes]

@[simp] theorem scalarBytes_length (x : Scalar) : (scalarBytes x).length = 8 := by simp [scalarBytes]

/-- Byte i of an image is (v div 2^(8i)) mod 256 (20_memory R61). -/
theorem leBytes_getD (n : Nat) : ∀ (v i : Nat), i < n → (leBytes n v).getD i 0 = BitVec.ofNat 8 (v / 2 ^ (8 * i)) := by
  induction n with
  | zero => intro v i h; omega
  | succ n ih =>
    intro v i h
    cases i with
    | zero => simp [leBytes]
    | succ i =>
      rw [leBytes, List.getD_cons_succ, ih _ _ (by omega), Nat.div_div_eq_div_mul,
        show 2 ^ (8 * (i + 1)) = 256 * 2 ^ (8 * i) by rw [Nat.mul_add, Nat.pow_add]; omega]

/-- The integer of the n-byte image of v is v mod 2^(8n). -/
theorem ofLeBytes_leBytes (n : Nat) : ∀ v, ofLeBytes (leBytes n v) = v % 2 ^ (8 * n) := by
  induction n with
  | zero => intro v; simp [leBytes, ofLeBytes, Nat.mod_one]
  | succ n ih =>
    intro v
    rw [leBytes, ofLeBytes, ih, BitVec.toNat_ofNat, show 2 ^ (8 * (n + 1)) = 256 * 2 ^ (8 * n) by
      rw [Nat.mul_add, Nat.pow_add]; omega, Nat.mod_mul]

/-- An image of n bytes is an integer below 2^(8n). -/
theorem ofLeBytes_lt (bs : List Byte) : ofLeBytes bs < 2 ^ (8 * bs.length) := by
  induction bs with
  | nil => simp [ofLeBytes]
  | cons b bs ih =>
    have hb := b.isLt
    rw [ofLeBytes, List.length_cons, show 2 ^ (8 * (bs.length + 1)) = 256 * 2 ^ (8 * bs.length) by
      rw [Nat.mul_add, Nat.pow_add]; omega]
    omega

/-- The image of the integer of n bytes is those bytes. -/
theorem leBytes_ofLeBytes (bs : List Byte) : leBytes bs.length (ofLeBytes bs) = bs := by
  induction bs with
  | nil => rfl
  | cons b bs ih =>
    have hb := b.isLt
    rw [List.length_cons, leBytes, ofLeBytes, show (b.toNat + 256 * ofLeBytes bs) / 256 = ofLeBytes bs by omega, ih]
    congr 1
    apply BitVec.eq_of_toNat_eq
    rw [BitVec.toNat_ofNat]
    omega

@[simp] theorem freeBytes_length (n : Nat) : ∀ k, (freeBytes k n).length = n := by
  induction n with
  | zero => intro k; rfl
  | succ n ih => intro k; simp [freeBytes, ih]

end Sys2Proof.Machine
end

