-- ==== Sys2Proof/Laws/State.lean ====
section
/-! SUPPORT. One lemma per field per update of State, and per register accessor per update, so that no later proof unfolds a
record update. -/

namespace Sys2Proof.Machine

variable (s : State)

/-! setV -/

@[simp] theorem State.setV_x (i : VReg) (w : Value) : (s.setV i w).x = s.x := rfl
@[simp] theorem State.setV_run (i : VReg) (w : Value) : (s.setV i w).run = s.run := rfl
@[simp] theorem State.setV_status (i : VReg) (w : Value) : (s.setV i w).status = s.status := rfl
@[simp] theorem State.setV_dpchar (i : VReg) (w : Value) : (s.setV i w).dpchar = s.dpchar := rfl
@[simp] theorem State.setV_fmtctl (i : VReg) (w : Value) : (s.setV i w).fmtctl = s.fmtctl := rfl
@[simp] theorem State.setV_fmtwidth (i : VReg) (w : Value) : (s.setV i w).fmtwidth = s.fmtwidth := rfl
@[simp] theorem State.setV_fmtprec (i : VReg) (w : Value) : (s.setV i w).fmtprec = s.fmtprec := rfl
@[simp] theorem State.setV_fault (i : VReg) (w : Value) : (s.setV i w).fault = s.fault := rfl
@[simp] theorem State.setV_fcmd (i : VReg) (w : Value) : (s.setV i w).fcmd = s.fcmd := rfl
@[simp] theorem State.setV_faddr (i : VReg) (w : Value) : (s.setV i w).faddr = s.faddr := rfl
@[simp] theorem State.setV_dmemSize (i : VReg) (w : Value) : (s.setV i w).dmemSize = s.dmemSize := rfl
@[simp] theorem State.setV_mem (i : VReg) (w : Value) : (s.setV i w).mem = s.mem := rfl
@[simp] theorem State.setV_host (i : VReg) (w : Value) : (s.setV i w).host = s.host := rfl
@[simp] theorem State.setV_replies (i : VReg) (w : Value) : (s.setV i w).replies = s.replies := rfl
@[simp] theorem State.setV_freeIndex (i : VReg) (w : Value) : (s.setV i w).freeIndex = s.freeIndex := rfl
@[simp] theorem State.setV_getX (i : VReg) (w : Value) (r : XReg) : (s.setV i w).getX r = s.getX r := rfl

/-! setX -/

@[simp] theorem State.setX_v (i : XReg) (w : Scalar) : (s.setX i w).v = s.v := rfl
@[simp] theorem State.setX_run (i : XReg) (w : Scalar) : (s.setX i w).run = s.run := rfl
@[simp] theorem State.setX_status (i : XReg) (w : Scalar) : (s.setX i w).status = s.status := rfl
@[simp] theorem State.setX_dpchar (i : XReg) (w : Scalar) : (s.setX i w).dpchar = s.dpchar := rfl
@[simp] theorem State.setX_fmtctl (i : XReg) (w : Scalar) : (s.setX i w).fmtctl = s.fmtctl := rfl
@[simp] theorem State.setX_fmtwidth (i : XReg) (w : Scalar) : (s.setX i w).fmtwidth = s.fmtwidth := rfl
@[simp] theorem State.setX_fmtprec (i : XReg) (w : Scalar) : (s.setX i w).fmtprec = s.fmtprec := rfl
@[simp] theorem State.setX_fault (i : XReg) (w : Scalar) : (s.setX i w).fault = s.fault := rfl
@[simp] theorem State.setX_fcmd (i : XReg) (w : Scalar) : (s.setX i w).fcmd = s.fcmd := rfl
@[simp] theorem State.setX_faddr (i : XReg) (w : Scalar) : (s.setX i w).faddr = s.faddr := rfl
@[simp] theorem State.setX_dmemSize (i : XReg) (w : Scalar) : (s.setX i w).dmemSize = s.dmemSize := rfl
@[simp] theorem State.setX_mem (i : XReg) (w : Scalar) : (s.setX i w).mem = s.mem := rfl
@[simp] theorem State.setX_host (i : XReg) (w : Scalar) : (s.setX i w).host = s.host := rfl
@[simp] theorem State.setX_replies (i : XReg) (w : Scalar) : (s.setX i w).replies = s.replies := rfl
@[simp] theorem State.setX_freeIndex (i : XReg) (w : Scalar) : (s.setX i w).freeIndex = s.freeIndex := rfl
@[simp] theorem State.setX_getV (i : XReg) (w : Scalar) (r : VReg) : (s.setX i w).getV r = s.getV r := rfl

/-! store -/

@[simp] theorem State.store_v (a : Nat) (bs : List Byte) : (s.store a bs).v = s.v := rfl
@[simp] theorem State.store_x (a : Nat) (bs : List Byte) : (s.store a bs).x = s.x := rfl
@[simp] theorem State.store_run (a : Nat) (bs : List Byte) : (s.store a bs).run = s.run := rfl
@[simp] theorem State.store_status (a : Nat) (bs : List Byte) : (s.store a bs).status = s.status := rfl
@[simp] theorem State.store_dpchar (a : Nat) (bs : List Byte) : (s.store a bs).dpchar = s.dpchar := rfl
@[simp] theorem State.store_fmtctl (a : Nat) (bs : List Byte) : (s.store a bs).fmtctl = s.fmtctl := rfl
@[simp] theorem State.store_fmtwidth (a : Nat) (bs : List Byte) : (s.store a bs).fmtwidth = s.fmtwidth := rfl
@[simp] theorem State.store_fmtprec (a : Nat) (bs : List Byte) : (s.store a bs).fmtprec = s.fmtprec := rfl
@[simp] theorem State.store_fault (a : Nat) (bs : List Byte) : (s.store a bs).fault = s.fault := rfl
@[simp] theorem State.store_fcmd (a : Nat) (bs : List Byte) : (s.store a bs).fcmd = s.fcmd := rfl
@[simp] theorem State.store_faddr (a : Nat) (bs : List Byte) : (s.store a bs).faddr = s.faddr := rfl
@[simp] theorem State.store_dmemSize (a : Nat) (bs : List Byte) : (s.store a bs).dmemSize = s.dmemSize := rfl
@[simp] theorem State.store_mem (a : Nat) (bs : List Byte) : (s.store a bs).mem = s.mem.writeBytes a bs := rfl
@[simp] theorem State.store_host (a : Nat) (bs : List Byte) : (s.store a bs).host = s.host := rfl
@[simp] theorem State.store_replies (a : Nat) (bs : List Byte) : (s.store a bs).replies = s.replies := rfl
@[simp] theorem State.store_freeIndex (a : Nat) (bs : List Byte) : (s.store a bs).freeIndex = s.freeIndex := rfl
@[simp] theorem State.store_getV (a : Nat) (bs : List Byte) (r : VReg) : (s.store a bs).getV r = s.getV r := rfl
@[simp] theorem State.store_getX (a : Nat) (bs : List Byte) (r : XReg) : (s.store a bs).getX r = s.getX r := rfl

/-! setFlag -/

@[simp] theorem State.setFlag_v (f : Flag) : (s.setFlag f).v = s.v := rfl
@[simp] theorem State.setFlag_x (f : Flag) : (s.setFlag f).x = s.x := rfl
@[simp] theorem State.setFlag_run (f : Flag) : (s.setFlag f).run = s.run := rfl
@[simp] theorem State.setFlag_status (f : Flag) : (s.setFlag f).status = s.status ||| f.mask := rfl
@[simp] theorem State.setFlag_dpchar (f : Flag) : (s.setFlag f).dpchar = s.dpchar := rfl
@[simp] theorem State.setFlag_fmtctl (f : Flag) : (s.setFlag f).fmtctl = s.fmtctl := rfl
@[simp] theorem State.setFlag_fmtwidth (f : Flag) : (s.setFlag f).fmtwidth = s.fmtwidth := rfl
@[simp] theorem State.setFlag_fmtprec (f : Flag) : (s.setFlag f).fmtprec = s.fmtprec := rfl
@[simp] theorem State.setFlag_fault (f : Flag) : (s.setFlag f).fault = s.fault := rfl
@[simp] theorem State.setFlag_fcmd (f : Flag) : (s.setFlag f).fcmd = s.fcmd := rfl
@[simp] theorem State.setFlag_faddr (f : Flag) : (s.setFlag f).faddr = s.faddr := rfl
@[simp] theorem State.setFlag_dmemSize (f : Flag) : (s.setFlag f).dmemSize = s.dmemSize := rfl
@[simp] theorem State.setFlag_mem (f : Flag) : (s.setFlag f).mem = s.mem := rfl
@[simp] theorem State.setFlag_host (f : Flag) : (s.setFlag f).host = s.host := rfl
@[simp] theorem State.setFlag_replies (f : Flag) : (s.setFlag f).replies = s.replies := rfl
@[simp] theorem State.setFlag_freeIndex (f : Flag) : (s.setFlag f).freeIndex = s.freeIndex := rfl
@[simp] theorem State.setFlag_getV (f : Flag) (r : VReg) : (s.setFlag f).getV r = s.getV r := rfl
@[simp] theorem State.setFlag_getX (f : Flag) (r : XReg) : (s.setFlag f).getX r = s.getX r := rfl

/-! raise -/

@[simp] theorem State.raise_v (w : Command) (t : Trap) : (s.raise w t).v = s.v := rfl
@[simp] theorem State.raise_x (w : Command) (t : Trap) : (s.raise w t).x = s.x := rfl
@[simp] theorem State.raise_run (w : Command) (t : Trap) : (s.raise w t).run = .faulted := rfl
@[simp] theorem State.raise_status (w : Command) (t : Trap) : (s.raise w t).status = s.status := rfl
@[simp] theorem State.raise_dpchar (w : Command) (t : Trap) : (s.raise w t).dpchar = s.dpchar := rfl
@[simp] theorem State.raise_fmtctl (w : Command) (t : Trap) : (s.raise w t).fmtctl = s.fmtctl := rfl
@[simp] theorem State.raise_fmtwidth (w : Command) (t : Trap) : (s.raise w t).fmtwidth = s.fmtwidth := rfl
@[simp] theorem State.raise_fmtprec (w : Command) (t : Trap) : (s.raise w t).fmtprec = s.fmtprec := rfl
@[simp] theorem State.raise_fault (w : Command) (t : Trap) : (s.raise w t).fault = t.code := rfl
@[simp] theorem State.raise_fcmd (w : Command) (t : Trap) : (s.raise w t).fcmd = w := rfl
@[simp] theorem State.raise_faddr (w : Command) (t : Trap) : (s.raise w t).faddr = t.faddr := rfl
@[simp] theorem State.raise_dmemSize (w : Command) (t : Trap) : (s.raise w t).dmemSize = s.dmemSize := rfl
@[simp] theorem State.raise_mem (w : Command) (t : Trap) : (s.raise w t).mem = s.mem := rfl
@[simp] theorem State.raise_host (w : Command) (t : Trap) : (s.raise w t).host = s.host := rfl
@[simp] theorem State.raise_replies (w : Command) (t : Trap) : (s.raise w t).replies = s.replies := rfl
@[simp] theorem State.raise_freeIndex (w : Command) (t : Trap) : (s.raise w t).freeIndex = s.freeIndex := rfl
@[simp] theorem State.raise_getV (w : Command) (t : Trap) (r : VReg) : (s.raise w t).getV r = s.getV r := rfl
@[simp] theorem State.raise_getX (w : Command) (t : Trap) (r : XReg) : (s.raise w t).getX r = s.getX r := rfl

/-! clearFault -/

@[simp] theorem State.clearFault_v : (s.clearFault).v = s.v := rfl
@[simp] theorem State.clearFault_x : (s.clearFault).x = s.x := rfl
@[simp] theorem State.clearFault_run : (s.clearFault).run = if s.run = .faulted then .idle else s.run := rfl
@[simp] theorem State.clearFault_status : (s.clearFault).status = s.status := rfl
@[simp] theorem State.clearFault_dpchar : (s.clearFault).dpchar = s.dpchar := rfl
@[simp] theorem State.clearFault_fmtctl : (s.clearFault).fmtctl = s.fmtctl := rfl
@[simp] theorem State.clearFault_fmtwidth : (s.clearFault).fmtwidth = s.fmtwidth := rfl
@[simp] theorem State.clearFault_fmtprec : (s.clearFault).fmtprec = s.fmtprec := rfl
@[simp] theorem State.clearFault_fault : (s.clearFault).fault = 0 := rfl
@[simp] theorem State.clearFault_fcmd : (s.clearFault).fcmd = 0 := rfl
@[simp] theorem State.clearFault_faddr : (s.clearFault).faddr = 0 := rfl
@[simp] theorem State.clearFault_dmemSize : (s.clearFault).dmemSize = s.dmemSize := rfl
@[simp] theorem State.clearFault_mem : (s.clearFault).mem = s.mem := rfl
@[simp] theorem State.clearFault_host : (s.clearFault).host = s.host := rfl
@[simp] theorem State.clearFault_replies : (s.clearFault).replies = s.replies := rfl
@[simp] theorem State.clearFault_freeIndex : (s.clearFault).freeIndex = s.freeIndex := rfl
@[simp] theorem State.clearFault_getV (r : VReg) : (s.clearFault).getV r = s.getV r := rfl
@[simp] theorem State.clearFault_getX (r : XReg) : (s.clearFault).getX r = s.getX r := rfl

/-! applyReset -/

@[simp] theorem State.applyReset_v : (s.applyReset).v = Vector.replicate 16 0 := rfl
@[simp] theorem State.applyReset_x : (s.applyReset).x = Vector.replicate 16 0 := rfl
@[simp] theorem State.applyReset_run : (s.applyReset).run = .idle := rfl
@[simp] theorem State.applyReset_status : (s.applyReset).status = 0 := rfl
@[simp] theorem State.applyReset_dpchar : (s.applyReset).dpchar = 0x2E := rfl
@[simp] theorem State.applyReset_fmtctl : (s.applyReset).fmtctl = 0 := rfl
@[simp] theorem State.applyReset_fmtwidth : (s.applyReset).fmtwidth = 0 := rfl
@[simp] theorem State.applyReset_fmtprec : (s.applyReset).fmtprec = -1 := rfl
@[simp] theorem State.applyReset_fault : (s.applyReset).fault = 0 := rfl
@[simp] theorem State.applyReset_fcmd : (s.applyReset).fcmd = 0 := rfl
@[simp] theorem State.applyReset_faddr : (s.applyReset).faddr = 0 := rfl
@[simp] theorem State.applyReset_dmemSize : (s.applyReset).dmemSize = s.dmemSize := rfl
@[simp] theorem State.applyReset_mem : (s.applyReset).mem = s.mem := rfl
@[simp] theorem State.applyReset_host : (s.applyReset).host = s.host := rfl
@[simp] theorem State.applyReset_replies : (s.applyReset).replies = s.replies := rfl
@[simp] theorem State.applyReset_freeIndex : (s.applyReset).freeIndex = s.freeIndex := rfl

/-! scramble -/

@[simp] theorem State.scramble_v (a n : Nat) : (s.scramble a n).v = s.v := rfl
@[simp] theorem State.scramble_x (a n : Nat) : (s.scramble a n).x = s.x := rfl
@[simp] theorem State.scramble_run (a n : Nat) : (s.scramble a n).run = s.run := rfl
@[simp] theorem State.scramble_status (a n : Nat) : (s.scramble a n).status = s.status := rfl
@[simp] theorem State.scramble_dpchar (a n : Nat) : (s.scramble a n).dpchar = s.dpchar := rfl
@[simp] theorem State.scramble_fmtctl (a n : Nat) : (s.scramble a n).fmtctl = s.fmtctl := rfl
@[simp] theorem State.scramble_fmtwidth (a n : Nat) : (s.scramble a n).fmtwidth = s.fmtwidth := rfl
@[simp] theorem State.scramble_fmtprec (a n : Nat) : (s.scramble a n).fmtprec = s.fmtprec := rfl
@[simp] theorem State.scramble_fault (a n : Nat) : (s.scramble a n).fault = s.fault := rfl
@[simp] theorem State.scramble_fcmd (a n : Nat) : (s.scramble a n).fcmd = s.fcmd := rfl
@[simp] theorem State.scramble_faddr (a n : Nat) : (s.scramble a n).faddr = s.faddr := rfl
@[simp] theorem State.scramble_dmemSize (a n : Nat) : (s.scramble a n).dmemSize = s.dmemSize := rfl
@[simp] theorem State.scramble_mem (a n : Nat) : (s.scramble a n).mem = s.mem.writeBytes a (freeBytes s.freeIndex n) := rfl
@[simp] theorem State.scramble_host (a n : Nat) : (s.scramble a n).host = s.host := rfl
@[simp] theorem State.scramble_replies (a n : Nat) : (s.scramble a n).replies = s.replies := rfl
@[simp] theorem State.scramble_freeIndex (a n : Nat) : (s.scramble a n).freeIndex = s.freeIndex + n := rfl
@[simp] theorem State.scramble_getV (a n : Nat) (r : VReg) : (s.scramble a n).getV r = s.getV r := rfl
@[simp] theorem State.scramble_getX (a n : Nat) (r : XReg) : (s.scramble a n).getX r = s.getX r := rfl

/-! setRecord -/

@[simp] theorem State.setRecord_v (fr : FormatRecord) : (s.setRecord fr).v = s.v := rfl
@[simp] theorem State.setRecord_x (fr : FormatRecord) : (s.setRecord fr).x = s.x := rfl
@[simp] theorem State.setRecord_run (fr : FormatRecord) : (s.setRecord fr).run = s.run := rfl
@[simp] theorem State.setRecord_status (fr : FormatRecord) : (s.setRecord fr).status = s.status := rfl
@[simp] theorem State.setRecord_dpchar (fr : FormatRecord) : (s.setRecord fr).dpchar = s.dpchar := rfl
@[simp] theorem State.setRecord_fmtctl (fr : FormatRecord) : (s.setRecord fr).fmtctl = recordFmtctl fr := rfl
@[simp] theorem State.setRecord_fmtwidth (fr : FormatRecord) : (s.setRecord fr).fmtwidth = BitVec.ofNat 31 fr.width := rfl
@[simp] theorem State.setRecord_fmtprec (fr : FormatRecord) : (s.setRecord fr).fmtprec = BitVec.ofInt 32 fr.precision := rfl
@[simp] theorem State.setRecord_fault (fr : FormatRecord) : (s.setRecord fr).fault = s.fault := rfl
@[simp] theorem State.setRecord_fcmd (fr : FormatRecord) : (s.setRecord fr).fcmd = s.fcmd := rfl
@[simp] theorem State.setRecord_faddr (fr : FormatRecord) : (s.setRecord fr).faddr = s.faddr := rfl
@[simp] theorem State.setRecord_dmemSize (fr : FormatRecord) : (s.setRecord fr).dmemSize = s.dmemSize := rfl
@[simp] theorem State.setRecord_mem (fr : FormatRecord) : (s.setRecord fr).mem = s.mem := rfl
@[simp] theorem State.setRecord_host (fr : FormatRecord) : (s.setRecord fr).host = s.host := rfl
@[simp] theorem State.setRecord_replies (fr : FormatRecord) : (s.setRecord fr).replies = s.replies := rfl
@[simp] theorem State.setRecord_freeIndex (fr : FormatRecord) : (s.setRecord fr).freeIndex = s.freeIndex := rfl
@[simp] theorem State.setRecord_getV (fr : FormatRecord) (r : VReg) : (s.setRecord fr).getV r = s.getV r := rfl
@[simp] theorem State.setRecord_getX (fr : FormatRecord) (r : XReg) : (s.setRecord fr).getX r = s.getX r := rfl

/-! reply -/

@[simp] theorem State.reply_v (ans : Reply) : (s.reply ans).v = s.v := rfl
@[simp] theorem State.reply_x (ans : Reply) : (s.reply ans).x = s.x := rfl
@[simp] theorem State.reply_run (ans : Reply) : (s.reply ans).run = s.run := rfl
@[simp] theorem State.reply_status (ans : Reply) : (s.reply ans).status = s.status := rfl
@[simp] theorem State.reply_dpchar (ans : Reply) : (s.reply ans).dpchar = s.dpchar := rfl
@[simp] theorem State.reply_fmtctl (ans : Reply) : (s.reply ans).fmtctl = s.fmtctl := rfl
@[simp] theorem State.reply_fmtwidth (ans : Reply) : (s.reply ans).fmtwidth = s.fmtwidth := rfl
@[simp] theorem State.reply_fmtprec (ans : Reply) : (s.reply ans).fmtprec = s.fmtprec := rfl
@[simp] theorem State.reply_fault (ans : Reply) : (s.reply ans).fault = s.fault := rfl
@[simp] theorem State.reply_fcmd (ans : Reply) : (s.reply ans).fcmd = s.fcmd := rfl
@[simp] theorem State.reply_faddr (ans : Reply) : (s.reply ans).faddr = s.faddr := rfl
@[simp] theorem State.reply_dmemSize (ans : Reply) : (s.reply ans).dmemSize = s.dmemSize := rfl
@[simp] theorem State.reply_mem (ans : Reply) : (s.reply ans).mem = s.mem := rfl
@[simp] theorem State.reply_host (ans : Reply) : (s.reply ans).host = s.host := rfl
@[simp] theorem State.reply_replies (ans : Reply) : (s.reply ans).replies = ans :: s.replies := rfl
@[simp] theorem State.reply_freeIndex (ans : Reply) : (s.reply ans).freeIndex = s.freeIndex := rfl
@[simp] theorem State.reply_getV (ans : Reply) (r : VReg) : (s.reply ans).getV r = s.getV r := rfl
@[simp] theorem State.reply_getX (ans : Reply) (r : XReg) : (s.reply ans).getX r = s.getX r := rfl

/-! dropTxn -/

@[simp] theorem State.dropTxn_v : (s.dropTxn).v = s.v := rfl
@[simp] theorem State.dropTxn_x : (s.dropTxn).x = s.x := rfl
@[simp] theorem State.dropTxn_run : (s.dropTxn).run = s.run := rfl
@[simp] theorem State.dropTxn_status : (s.dropTxn).status = s.status := rfl
@[simp] theorem State.dropTxn_dpchar : (s.dropTxn).dpchar = s.dpchar := rfl
@[simp] theorem State.dropTxn_fmtctl : (s.dropTxn).fmtctl = s.fmtctl := rfl
@[simp] theorem State.dropTxn_fmtwidth : (s.dropTxn).fmtwidth = s.fmtwidth := rfl
@[simp] theorem State.dropTxn_fmtprec : (s.dropTxn).fmtprec = s.fmtprec := rfl
@[simp] theorem State.dropTxn_fault : (s.dropTxn).fault = s.fault := rfl
@[simp] theorem State.dropTxn_fcmd : (s.dropTxn).fcmd = s.fcmd := rfl
@[simp] theorem State.dropTxn_faddr : (s.dropTxn).faddr = s.faddr := rfl
@[simp] theorem State.dropTxn_dmemSize : (s.dropTxn).dmemSize = s.dmemSize := rfl
@[simp] theorem State.dropTxn_mem : (s.dropTxn).mem = s.mem := rfl
@[simp] theorem State.dropTxn_host : (s.dropTxn).host = s.host.tail := rfl
@[simp] theorem State.dropTxn_replies : (s.dropTxn).replies = s.replies := rfl
@[simp] theorem State.dropTxn_freeIndex : (s.dropTxn).freeIndex = s.freeIndex := rfl
@[simp] theorem State.dropTxn_getV (r : VReg) : (s.dropTxn).getV r = s.getV r := rfl
@[simp] theorem State.dropTxn_getX (r : XReg) : (s.dropTxn).getX r = s.getX r := rfl

/-! endBusy -/

@[simp] theorem State.endBusy_v : (s.endBusy).v = s.v := rfl
@[simp] theorem State.endBusy_x : (s.endBusy).x = s.x := rfl
@[simp] theorem State.endBusy_run : (s.endBusy).run = .idle := rfl
@[simp] theorem State.endBusy_status : (s.endBusy).status = s.status := rfl
@[simp] theorem State.endBusy_dpchar : (s.endBusy).dpchar = s.dpchar := rfl
@[simp] theorem State.endBusy_fmtctl : (s.endBusy).fmtctl = s.fmtctl := rfl
@[simp] theorem State.endBusy_fmtwidth : (s.endBusy).fmtwidth = s.fmtwidth := rfl
@[simp] theorem State.endBusy_fmtprec : (s.endBusy).fmtprec = s.fmtprec := rfl
@[simp] theorem State.endBusy_fault : (s.endBusy).fault = s.fault := rfl
@[simp] theorem State.endBusy_fcmd : (s.endBusy).fcmd = s.fcmd := rfl
@[simp] theorem State.endBusy_faddr : (s.endBusy).faddr = s.faddr := rfl
@[simp] theorem State.endBusy_dmemSize : (s.endBusy).dmemSize = s.dmemSize := rfl
@[simp] theorem State.endBusy_mem : (s.endBusy).mem = s.mem := rfl
@[simp] theorem State.endBusy_host : (s.endBusy).host = s.host := rfl
@[simp] theorem State.endBusy_replies : (s.endBusy).replies = s.replies := rfl
@[simp] theorem State.endBusy_freeIndex : (s.endBusy).freeIndex = s.freeIndex := rfl
@[simp] theorem State.endBusy_getV (r : VReg) : (s.endBusy).getV r = s.getV r := rfl
@[simp] theorem State.endBusy_getX (r : XReg) : (s.endBusy).getX r = s.getX r := rfl

/-! setFlags: only STATUS changes, by the flags' bits. -/

/-- The OR of the flags' bits. -/
def flagBits (fs : List Flag) : BitVec 5 := fs.foldr (fun f b => f.mask ||| b) 0

@[simp] theorem flagBits_nil : flagBits [] = 0 := rfl
@[simp] theorem flagBits_cons (f : Flag) (fs : List Flag) : flagBits (f :: fs) = f.mask ||| flagBits fs := rfl

/-- Setting flags is one OR into STATUS. -/
theorem State.setFlags_eq (fs : List Flag) : s.setFlags fs = { s with status := s.status ||| flagBits fs } := by
  induction fs generalizing s with
  | nil => simp [State.setFlags]
  | cons f fs ih => simp [State.setFlags, ih, State.setFlag, BitVec.or_assoc]

@[simp] theorem State.setFlags_nil : s.setFlags [] = s := rfl

@[simp] theorem State.setFlags_v (fs : List Flag) : (s.setFlags fs).v = s.v := by rw [State.setFlags_eq]
@[simp] theorem State.setFlags_x (fs : List Flag) : (s.setFlags fs).x = s.x := by rw [State.setFlags_eq]
@[simp] theorem State.setFlags_run (fs : List Flag) : (s.setFlags fs).run = s.run := by rw [State.setFlags_eq]
@[simp] theorem State.setFlags_status (fs : List Flag) : (s.setFlags fs).status = s.status ||| flagBits fs := by rw [State.setFlags_eq]
@[simp] theorem State.setFlags_dpchar (fs : List Flag) : (s.setFlags fs).dpchar = s.dpchar := by rw [State.setFlags_eq]
@[simp] theorem State.setFlags_fmtctl (fs : List Flag) : (s.setFlags fs).fmtctl = s.fmtctl := by rw [State.setFlags_eq]
@[simp] theorem State.setFlags_fmtwidth (fs : List Flag) : (s.setFlags fs).fmtwidth = s.fmtwidth := by rw [State.setFlags_eq]
@[simp] theorem State.setFlags_fmtprec (fs : List Flag) : (s.setFlags fs).fmtprec = s.fmtprec := by rw [State.setFlags_eq]
@[simp] theorem State.setFlags_fault (fs : List Flag) : (s.setFlags fs).fault = s.fault := by rw [State.setFlags_eq]
@[simp] theorem State.setFlags_fcmd (fs : List Flag) : (s.setFlags fs).fcmd = s.fcmd := by rw [State.setFlags_eq]
@[simp] theorem State.setFlags_faddr (fs : List Flag) : (s.setFlags fs).faddr = s.faddr := by rw [State.setFlags_eq]
@[simp] theorem State.setFlags_dmemSize (fs : List Flag) : (s.setFlags fs).dmemSize = s.dmemSize := by rw [State.setFlags_eq]
@[simp] theorem State.setFlags_mem (fs : List Flag) : (s.setFlags fs).mem = s.mem := by rw [State.setFlags_eq]
@[simp] theorem State.setFlags_host (fs : List Flag) : (s.setFlags fs).host = s.host := by rw [State.setFlags_eq]
@[simp] theorem State.setFlags_replies (fs : List Flag) : (s.setFlags fs).replies = s.replies := by rw [State.setFlags_eq]
@[simp] theorem State.setFlags_freeIndex (fs : List Flag) : (s.setFlags fs).freeIndex = s.freeIndex := by rw [State.setFlags_eq]
@[simp] theorem State.setFlags_getV (fs : List Flag) (r : VReg) : (s.setFlags fs).getV r = s.getV r := by
  rw [State.setFlags_eq]; rfl
@[simp] theorem State.setFlags_getX (fs : List Flag) (r : XReg) : (s.setFlags fs).getX r = s.getX r := by
  rw [State.setFlags_eq]; rfl

/-! csrWrite: only the five writable control registers can change. -/

@[simp] theorem State.csrWrite_v (c : Csr) (d : Scalar) : (s.csrWrite c d).v = s.v := by cases c <;> rfl
@[simp] theorem State.csrWrite_x (c : Csr) (d : Scalar) : (s.csrWrite c d).x = s.x := by cases c <;> rfl
@[simp] theorem State.csrWrite_run (c : Csr) (d : Scalar) : (s.csrWrite c d).run = s.run := by cases c <;> rfl
@[simp] theorem State.csrWrite_fault (c : Csr) (d : Scalar) : (s.csrWrite c d).fault = s.fault := by cases c <;> rfl
@[simp] theorem State.csrWrite_fcmd (c : Csr) (d : Scalar) : (s.csrWrite c d).fcmd = s.fcmd := by cases c <;> rfl
@[simp] theorem State.csrWrite_faddr (c : Csr) (d : Scalar) : (s.csrWrite c d).faddr = s.faddr := by cases c <;> rfl
@[simp] theorem State.csrWrite_dmemSize (c : Csr) (d : Scalar) : (s.csrWrite c d).dmemSize = s.dmemSize := by cases c <;> rfl
@[simp] theorem State.csrWrite_mem (c : Csr) (d : Scalar) : (s.csrWrite c d).mem = s.mem := by cases c <;> rfl
@[simp] theorem State.csrWrite_host (c : Csr) (d : Scalar) : (s.csrWrite c d).host = s.host := by cases c <;> rfl
@[simp] theorem State.csrWrite_replies (c : Csr) (d : Scalar) : (s.csrWrite c d).replies = s.replies := by cases c <;> rfl
@[simp] theorem State.csrWrite_freeIndex (c : Csr) (d : Scalar) : (s.csrWrite c d).freeIndex = s.freeIndex := by cases c <;> rfl
@[simp] theorem State.csrWrite_getV (c : Csr) (d : Scalar) (r : VReg) : (s.csrWrite c d).getV r = s.getV r := by
  cases c <;> rfl
@[simp] theorem State.csrWrite_getX (c : Csr) (d : Scalar) (r : XReg) : (s.csrWrite c d).getX r = s.getX r := by
  cases c <;> rfl

/-! The register files: a read after a write. -/

/-- A value register reads as last written. -/
theorem State.setV_getV (i : VReg) (w : Value) (r : VReg) : (s.setV i w).getV r = if i = r then w else s.getV r := by
  simp [State.getV, State.setV, Vector.getElem_set, BitVec.toNat_inj]

/-- A scalar register reads as last written. -/
theorem State.setX_getX (i : XReg) (w : Scalar) (r : XReg) : (s.setX i w).getX r = if i = r then w else s.getX r := by
  simp [State.getX, State.setX, Vector.getElem_set, BitVec.toNat_inj]

@[simp] theorem State.setV_getV_same (i : VReg) (w : Value) : (s.setV i w).getV i = w := by simp [State.setV_getV]

@[simp] theorem State.setX_getX_same (i : XReg) (w : Scalar) : (s.setX i w).getX i = w := by simp [State.setX_getX]

theorem State.setV_getV_ne (i : VReg) (w : Value) (r : VReg) (h : r ≠ i) : (s.setV i w).getV r = s.getV r := by
  simp [State.setV_getV, Ne.symm h]

theorem State.setX_getX_ne (i : XReg) (w : Scalar) (r : XReg) (h : r ≠ i) : (s.setX i w).getX r = s.getX r := by
  simp [State.setX_getX, Ne.symm h]

/-- After RESET every value register is ZERO. -/
@[simp] theorem State.applyReset_getV (r : VReg) : s.applyReset.getV r = 0 := by
  simp [State.getV]

/-- After RESET every scalar register is 0. -/
@[simp] theorem State.applyReset_getX (r : XReg) : s.applyReset.getX r = 0 := by
  simp [State.getX]

end Sys2Proof.Machine
end

