-- ==== Sys2Proof/Laws/Ops.lean ====
section
/-! SUPPORT. What each shared operation can do, said once: the register writes, the store, the fault entry, the range checks,
the formatter's buffer, the Newton loop, the host port and the end of BUSY. -/

namespace Sys2Proof.Machine

variable (s : State)

/-! Writes. -/

/-- Writing a value register and setting flags, as an effect. -/
theorem setV_setFlags_writesV (d : VReg) (w : Value) (fs : List Flag) :
    WritesV d w (flagBits fs) s ((s.setV d w).setFlags fs) := by
  refine ⟨by simp, fun r hr => ?_, fun r => by simp, fun a => by simp, by simp, ?_⟩
  · simp [State.setV_getV_ne _ _ _ _ hr]
  · simp [SameControl, SameFormat, SameFault, SameModel]

/-- Writing a value register, as an effect. -/
theorem setV_writesV (d : VReg) (w : Value) : WritesV d w 0 s (s.setV d w) := setV_setFlags_writesV s d w []

/-- Writing a scalar register, as an effect. -/
theorem setX_writesX (d : XReg) (w : Scalar) : WritesX d w s (s.setX d w) := by
  refine ⟨by simp, fun r hr => ?_, fun r => by simp, fun a => by simp, by simp, ?_⟩
  · simp [State.setX_getX_ne _ _ _ _ hr]
  · simp [SameControl, SameFormat, SameFault, SameModel]

/-- A store, as an effect. -/
theorem store_writesMem (a : Nat) (bs : List Byte) : WritesMem a bs s (s.store a bs) := by
  refine ⟨fun i hi => ?_, fun b hb => ?_, fun r => by simp, fun r => by simp, by simp, ?_⟩
  · simp [Memory.read_writeBytes, hi]
  · simp [Memory.read_writeBytes_outside _ _ _ _ hb]
  · simp [SameControl, SameFormat, SameFault, SameModel]

/-! Faults. -/

/-- Fault entry, as an effect (60_exceptions R302). -/
theorem raise_faulted (w : Command) (t : Trap) : Faulted w t.code t.faddr s (s.raise w t) := by
  simp [Faulted, SameV, SameX, SameMem, SameFormat, SameModel]

/-- A command that faults answers a next state in which only the fault entry has happened. -/
theorem trap_faulted (i : Instr) (t : Trap) :
    ∃ u, trap i t s = .next u ∧ Faulted (encode i) t.code t.faddr s u := ⟨_, rfl, raise_faulted s _ t⟩

@[simp] theorem inRange_eq_true (a n : Nat) : s.inRange a n = true ↔ a + n ≤ s.dmemSize := by
  simp [State.inRange]

/-- A range-checked byte: the byte inside DMEM, the address outside. -/
theorem memByte_of_lt (q : Nat) (h : q < s.dmemSize) : s.memByte q = .ok (s.mem.read q) := by
  simp [State.memByte, h]

theorem memByte_of_le (q : Nat) (h : s.dmemSize ≤ q) : s.memByte q = .error q := by
  simp [State.memByte, Nat.not_lt.2 h]

/-! The formatter's buffer. -/

@[simp] theorem Runs.take_length (r : Runs) : ∀ n, (Runs.take r n).length = min n (Runs.length r) := by
  induction r with
  | nil => intro n; simp [Runs.take, Runs.length]
  | cons c r ih => intro n; simp [Runs.take, Runs.length, ih]; omega

/-- The written-out string has the length of its runs. -/
@[simp] theorem Runs.bytes_length (r : Runs) : (Runs.bytes r).length = Runs.length r := by simp [Runs.bytes]

/-- The written-out string is its runs, one after the other. -/
theorem Runs.bytes_eq_flatMap (r : Runs) : Runs.bytes r = r.flatMap fun c => List.replicate c.1 c.2 := by
  induction r with
  | nil => rfl
  | cons c r ih =>
    rw [Runs.bytes] at ih ⊢
    simp [Runs.take, Runs.length, ih]

@[simp] theorem Runs.bytes_append (r q : Runs) : Runs.bytes (r ++ q) = Runs.bytes r ++ Runs.bytes q := by
  simp [Runs.bytes_eq_flatMap]

/-- Taking n bytes of runs is taking n bytes of the string. -/
theorem Runs.take_eq (r : Runs) : ∀ n, Runs.take r n = (Runs.bytes r).take n := by
  induction r with
  | nil => intro n; simp [Runs.take, Runs.bytes_eq_flatMap]
  | cons c r ih =>
    intro n
    rw [Runs.take, ih, show c :: r = [c] ++ r from rfl, Runs.bytes_append, List.take_append]
    simp [Runs.bytes_eq_flatMap, List.take_replicate, Nat.min_comm]

@[simp] theorem bufferBytes_length (cap : Nat) (str : Runs) : (bufferBytes cap str).length = bufferLength cap str := by
  simp [bufferBytes, bufferLength]

/-- Everything a formatting command can do (46_format R229): with a capacity and a range it stores as much of the string as
fits and a NUL, writes the length and sets TRUNC; otherwise it faults. -/
theorem formatTo_cases (i : Instr) (d b c : XReg) (str : Runs) :
    let a := (s.getX b).toNat
    let cap := (s.getX c).toNat
    (cap = 0 ∧ formatTo i d b c str s = trap i .fmtCapacity s) ∨
    (cap ≠ 0 ∧ s.dmemSize < a + bufferLength cap str ∧ formatTo i d b c str s = trap i (s.rangeTrap a) s) ∨
    (cap ≠ 0 ∧ a + bufferLength cap str ≤ s.dmemSize ∧
      formatTo i d b c str s = .next (((s.store a (bufferBytes cap str)).setX d
        (BitVec.ofNat 64 (Runs.length str))).setFlags (bufferFlags cap str))) := by
  intro a cap
  by_cases h : cap = 0
  · exact .inl ⟨h, by simp [formatTo, State.bufferTrap, show (s.getX c).toNat = 0 from h]⟩
  · by_cases hr : a + bufferLength cap str ≤ s.dmemSize
    · refine .inr (.inr ⟨h, hr, ?_⟩)
      simp [formatTo, State.bufferTrap, show (s.getX c).toNat ≠ 0 from h, a, cap, hr]
    · refine .inr (.inl ⟨h, by omega, ?_⟩)
      simp [formatTo, State.bufferTrap, show (s.getX c).toNat ≠ 0 from h, a, cap, hr]

/-- `WriteBuf`'s checks pass exactly for a capacity of at least 1 and a range inside DMEM (46_format R229). -/
theorem bufferTrap_eq_none (a cap : Nat) (str : Runs) :
    s.bufferTrap a cap str = none ↔ 1 ≤ cap ∧ a + bufferLength cap str ≤ s.dmemSize := by
  unfold State.bufferTrap
  split
  · simp; omega
  · split <;> simp_all [Nat.one_le_iff_ne_zero]

/-- The fields of the record FMT reads, as numbers of FMTCTL (10_state R31, R34). -/
theorem formatRecord_fields :
    s.formatRecord.sign = (if s.fmtctl.toNat % 4 = 1 then .space else if s.fmtctl.toNat % 4 = 2 then .plus else .default) ∧
    s.formatRecord.zeroPad = decide (s.fmtctl.toNat / 4 % 2 = 1) ∧
    s.formatRecord.alwaysDecimal = decide (s.fmtctl.toNat / 8 % 2 = 1) ∧
    s.formatRecord.leftAlign = decide (s.fmtctl.toNat / 16 % 2 = 1) ∧
    s.formatRecord.width = s.fmtwidth.toNat ∧ s.formatRecord.precision = s.fmtprec.toInt := by
  have key : ∀ f : BitVec 5,
      signOf (f.extractLsb' 0 2) =
        (if f.toNat % 4 = 1 then SignStyle.space else if f.toNat % 4 = 2 then .plus else .default) ∧
      f.getLsbD 2 = decide (f.toNat / 4 % 2 = 1) ∧ f.getLsbD 3 = decide (f.toNat / 8 % 2 = 1) ∧
      f.getLsbD 4 = decide (f.toNat / 16 % 2 = 1) := by decide
  obtain ⟨h1, h2, h3, h4⟩ := key s.fmtctl
  exact ⟨h1, h2, h3, h4, rfl, rfl⟩

/-! Newton iterations. -/

/-- The early stop changes no result (44_sqrt_rsqrt R192, R195): the loop is the n-th iterate. -/
theorem newton_eq_iterate (f : Value → Value) : ∀ (n : Nat) (e : Value), newton f n e = f^[n] e := by
  intro n
  induction n with
  | zero => intro e; rfl
  | succ n ih =>
    intro e
    rw [newton]
    split
    · next h => exact (Function.iterate_fixed h (n + 1)).symm
    · rw [ih, Function.iterate_succ_apply]

/-! Commands, the port, the step. -/

/-- A word that decodes runs its command. -/
theorem runCommand_of_ok (w : Command) (i : Instr) (h : decode w = .ok i) : runCommand w s = exec i s.endBusy := by
  simp [runCommand, h]

/-- A word that is no command faults. -/
theorem runCommand_of_error (w : Command) (e : IllegalWord) (h : decode w = .error e) :
    ∃ t, runCommand w s = .next t ∧ Faulted w (illegalTrap e).code (illegalTrap e).faddr s t := by
  refine ⟨_, by rw [runCommand, h], ?_⟩
  simp [Faulted, SameV, SameX, SameMem, SameFormat, SameModel]

theorem step_of_busy (w : Command) (h : s.run = .busy w) : step s = busyStep w s := by
  simp [step, machineStep, h]

theorem step_of_not_busy (h : s.run = .idle ∨ s.run = .faulted) : step s = portStep s := by
  rcases h with h | h <;> simp [step, machineStep, h]

/-- Outside BUSY the host's next transaction is served. -/
theorem portStep_cons (x : HostTxn) (rest : List HostTxn) (h : s.host = x :: rest) :
    portStep s = .next (State.serve { s with host := rest } x) := by
  simp [portStep, h, State.dropTxn]

/-- Everything a step in BUSY can do. -/
theorem busyStep_cases (w : Command) :
    (∃ rest, s.host = .reset :: rest ∧ busyStep w s = .next ((s.dropTxn.abandon w).reply .done)) ∨
    (∃ rest, s.host = .state :: rest ∧ busyStep w s = .next (s.dropTxn.reply .isBusy)) ∨
    (∃ v rest, s.host = .issue v :: rest ∧ busyStep w s = .next (s.dropTxn.reply .notAccepted)) ∨
    (∃ rest, s.host = .elapse :: rest ∧ busyStep w s = runCommand w s.dropTxn) ∨
    (s.hostWaits = true ∧ busyStep w s = runCommand w s) := by
  unfold busyStep State.hostWaits
  split <;> simp_all [HostTxn.waits]

end Sys2Proof.Machine
end

