-- ==== Sys2Proof/Laws/PerInstr.lean ====
section
/-! SUPPORT. The lemmas made per instruction: the family OpcodeField, the opcode byte of every command's word. -/

namespace Sys2Proof.Laws.OpcodeField

/-- The word of a command carries the command's own opcode byte, and that byte stands for no other opcode (30_encoding R85,
R87). -/
def Statement (i : Instr) : Prop :=
  fieldOp (encode i) = i.opcode.code ∧ Opcode.ofCode (fieldOp (encode i)) = some i.opcode

/-- The statement for any command. -/
theorem statement (i : Instr) : Statement i := ⟨fieldOp_encode i, by rw [fieldOp_encode, Opcode.ofCode_code]⟩

theorem nop : Statement .nop := statement _
theorem movv (d a : VReg) : Statement (.movv d a) := statement _
theorem const (d : VReg) (k : ConstName) : Statement (.const d k) := statement _
theorem lix (d : XReg) (imm : BitVec 16) : Statement (.lix d imm) := statement _
theorem ldv (d : VReg) (a : XReg) (off : BitVec 16) : Statement (.ldv d a off) := statement _
theorem stv (d : VReg) (a : XReg) (off : BitVec 16) : Statement (.stv d a off) := statement _
theorem ldx (d : XReg) (a : XReg) (off : BitVec 16) : Statement (.ldx d a off) := statement _
theorem stx (d : XReg) (a : XReg) (off : BitVec 16) : Statement (.stx d a off) := statement _
theorem not (d a : VReg) : Statement (.not d a) := statement _
theorem and (d a b : VReg) : Statement (.and d a b) := statement _
theorem or (d a b : VReg) : Statement (.or d a b) := statement _
theorem xor (d a b : VReg) : Statement (.xor d a b) := statement _
theorem shl (d a : VReg) (b : XReg) : Statement (.shl d a b) := statement _
theorem shr (d a : VReg) (b : XReg) : Statement (.shr d a b) := statement _
theorem sar (d a : VReg) (b : XReg) : Statement (.sar d a b) := statement _
theorem shli (d a : VReg) (n : BitVec 8) : Statement (.shli d a n) := statement _
theorem shri (d a : VReg) (n : BitVec 8) : Statement (.shri d a n) := statement _
theorem sari (d a : VReg) (n : BitVec 8) : Statement (.sari d a n) := statement _
theorem clz (d : XReg) (a : VReg) (h : Half) : Statement (.clz d a h) := statement _
theorem add (d a b : VReg) : Statement (.add d a b) := statement _
theorem sub (d a b : VReg) : Statement (.sub d a b) := statement _
theorem neg (d a : VReg) : Statement (.neg d a) := statement _
theorem abs (d a : VReg) : Statement (.abs d a) := statement _
theorem nabs (d a : VReg) : Statement (.nabs d a) := statement _
theorem isneg (d : XReg) (a : VReg) : Statement (.isneg d a) := statement _
theorem cmp (d : XReg) (a b : VReg) : Statement (.cmp d a b) := statement _
theorem ucmp (d : XReg) (a b : VReg) : Statement (.ucmp d a b) := statement _
theorem min (d a b : VReg) : Statement (.min d a b) := statement _
theorem max (d a b : VReg) : Statement (.max d a b) := statement _
theorem umul (d a b : VReg) (ha hb : Half) : Statement (.umul d a b ha hb) := statement _
theorem udiv (d a b : VReg) (h : Half) : Statement (.udiv d a b h) := statement _
theorem mul (d a b : VReg) : Statement (.mul d a b) := statement _
theorem div (d a b : VReg) : Statement (.div d a b) := statement _
theorem mod (d a b : VReg) : Statement (.mod d a b) := statement _
theorem sqrt (d a : VReg) : Statement (.sqrt d a) := statement _
theorem rsqrt (d a : VReg) : Statement (.rsqrt d a) := statement _
theorem floor (d a : VReg) : Statement (.floor d a) := statement _
theorem ceil (d a : VReg) : Statement (.ceil d a) := statement _
theorem round (d a : VReg) : Statement (.round d a) := statement _
theorem fmt (d : XReg) (a : VReg) (b c : XReg) : Statement (.fmt d a b c) := statement _
theorem fmtd (d : XReg) (a : VReg) (b c : XReg) : Statement (.fmtd d a b c) := statement _
theorem fmtparse (a : XReg) : Statement (.fmtparse a) := statement _
theorem parse (d : VReg) (a b : XReg) : Statement (.parse d a b) := statement _
theorem fromint (d : VReg) (a : XReg) : Statement (.fromint d a) := statement _
theorem toint (d : XReg) (a : VReg) : Statement (.toint d a) := statement _
theorem fromf (d : VReg) (a : XReg) : Statement (.fromf d a) := statement _
theorem tof (d : XReg) (a : VReg) : Statement (.tof d a) := statement _
theorem csrr (d : XReg) (c : Csr) : Statement (.csrr d c) := statement _
theorem csrw (c : Csr) (a : XReg) : Statement (.csrw c a) := statement _

end Sys2Proof.Laws.OpcodeField
end

