-- ==== Sys2Proof/Laws/Scan.lean ====
section
/-! SUPPORT. What the scans of the format-string parser and of the number parser do on a string in DMEM, and where they stop
at the end of DMEM (spec/46_format.md R232; spec/47_parse.md R250 to R256). -/

namespace Sys2Proof.Machine

variable (s : State)

/-- The bytes stand in DMEM from address p on. -/
def State.BytesAt (s : State) : Nat → List Byte → Prop
  | _, [] => True
  | p, b :: bs => s.memByte p = .ok b ∧ s.BytesAt (p + 1) bs

theorem State.bytesAt_append (bs cs : List Byte) : ∀ p, s.BytesAt p (bs ++ cs) ↔ s.BytesAt p bs ∧ s.BytesAt (p + bs.length) cs := by
  induction bs with
  | nil => intro p; simp [State.BytesAt]
  | cons b bs ih => intro p; simp [State.BytesAt, ih, and_assoc, Nat.add_assoc, Nat.add_comm 1]

theorem State.bytesAt_singleton (p : Nat) (b : Byte) : s.BytesAt p [b] ↔ s.memByte p = .ok b := by
  simp [State.BytesAt]

/-- A byte that can be read is inside DMEM. -/
theorem State.memByte_ok_lt (p : Nat) (b : Byte) (h : s.memByte p = .ok b) : p < s.dmemSize := by
  unfold State.memByte at h
  split at h
  · assumption
  · cases h

/-- A byte that cannot be read is reported by its own address, which is outside DMEM. -/
theorem State.memByte_error (p q : Nat) (h : s.memByte p = .error q) : q = p ∧ s.dmemSize ≤ p := by
  unfold State.memByte at h
  split at h
  · cases h
  · cases h; omega

/-- The whitespace in front is skipped, up to the first other byte. -/
theorem State.skipSpaces_eq (ws : List Byte) (c : Byte) (hc : isSpace c = false) : ∀ (left p : Nat),
    (∀ w ∈ ws, isSpace w = true) → s.BytesAt p (ws ++ [c]) → ws.length < left →
    s.skipSpaces left p = .ok (p + ws.length) := by
  induction ws with
  | nil =>
    intro left p _ hb hl
    obtain ⟨left, rfl⟩ : ∃ k, left = k + 1 := ⟨left - 1, by simp at hl; omega⟩
    simp [State.skipSpaces, hb.1, hc]
  | cons w ws ih =>
    intro left p hw hb hl
    obtain ⟨left, rfl⟩ : ∃ k, left = k + 1 := ⟨left - 1, by simp at hl; omega⟩
    have h1 : isSpace w = true := hw w List.mem_cons_self
    rw [State.skipSpaces, hb.1]
    simp only [h1, if_true]
    rw [ih left (p + 1) (fun x hx => hw x (List.mem_cons_of_mem _ hx)) hb.2 (by simp at hl; omega)]
    simp; omega

/-- The digits are read up to the first byte that is no digit. -/
theorem State.scanDigits_eq (base : Nat) (bs : List (Byte × Nat)) (c : Byte) (hc : digitValue base c = none) : ∀ (left p : Nat),
    (∀ d ∈ bs, digitValue base d.1 = some d.2) → s.BytesAt p (bs.map Prod.fst ++ [c]) → bs.length < left →
    s.scanDigits base left p = .ok (bs.map Prod.snd, p + bs.length) := by
  induction bs with
  | nil =>
    intro left p _ hb hl
    obtain ⟨left, rfl⟩ : ∃ k, left = k + 1 := ⟨left - 1, by simp at hl; omega⟩
    simp [State.scanDigits, hb.1, hc]
  | cons d bs ih =>
    intro left p hd hb hl
    obtain ⟨left, rfl⟩ : ∃ k, left = k + 1 := ⟨left - 1, by simp at hl; omega⟩
    have h1 := hd d List.mem_cons_self
    rw [State.scanDigits, hb.1]
    simp only [h1]
    rw [ih left (p + 1) (fun x hx => hd x (List.mem_cons_of_mem _ hx)) hb.2 (by simp at hl; omega)]
    simp; omega

/-- The flags are read up to the first byte that is no flag. -/
theorem State.scanFlags_eq (fs : List Byte) (c : Byte) (hc : ∀ fr, flagChar fr c = none) : ∀ (left p : Nat) (fr : FormatRecord),
    (∀ f ∈ fs, ∀ fr, (flagChar fr f).isSome = true) → s.BytesAt p (fs ++ [c]) → fs.length < left →
    s.scanFlags left p fr = .ok (fs.foldl (fun r f => (flagChar r f).getD r) fr, p + fs.length) := by
  induction fs with
  | nil =>
    intro left p fr _ hb hl
    obtain ⟨left, rfl⟩ : ∃ k, left = k + 1 := ⟨left - 1, by simp at hl; omega⟩
    simp [State.scanFlags, hb.1, hc]
  | cons f fs ih =>
    intro left p fr hf hb hl
    obtain ⟨left, rfl⟩ : ∃ k, left = k + 1 := ⟨left - 1, by simp at hl; omega⟩
    obtain ⟨r, hr⟩ := Option.isSome_iff_exists.1 (hf f List.mem_cons_self fr)
    rw [State.scanFlags, hb.1]
    simp only [hr]
    rw [ih left (p + 1) r (fun x hx => hf x (List.mem_cons_of_mem _ hx)) hb.2 (by simp at hl; omega)]
    simp [hr]; omega

/-- A decimal number is read up to the first byte that is no digit. -/
theorem State.scanNumber_eq (bs : List (Byte × Nat)) (c : Byte) (hc : isDecimal c = false) : ∀ (left p n : Nat),
    (∀ d ∈ bs, isDecimal d.1 = true ∧ d.1.toNat - 0x30 = d.2) → s.BytesAt p (bs.map Prod.fst ++ [c]) → bs.length < left →
    s.scanNumber left p n = .ok ((bs.map Prod.snd).foldl (fun n d => min (2 ^ 31 - 1) (10 * n + d)) n, p + bs.length) := by
  induction bs with
  | nil =>
    intro left p n _ hb hl
    obtain ⟨left, rfl⟩ : ∃ k, left = k + 1 := ⟨left - 1, by simp at hl; omega⟩
    simp [State.scanNumber, hb.1, hc]
  | cons d bs ih =>
    intro left p n hd hb hl
    obtain ⟨left, rfl⟩ : ∃ k, left = k + 1 := ⟨left - 1, by simp at hl; omega⟩
    have h1 := hd d List.mem_cons_self
    rw [State.scanNumber, hb.1]
    simp only [h1.1, if_true]
    rw [ih left (p + 1) _ (fun x hx => hd x (List.mem_cons_of_mem _ hx)) hb.2 (by simp at hl; omega), h1.2]
    simp; omega

/-- A scan that starts at p with the bytes of DMEM that are left stops inside DMEM, or at the first byte outside. -/
theorem State.skipSpaces_end : ∀ (left p : Nat), left = s.dmemSize - p →
    (∀ q, s.skipSpaces left p = .ok q → p ≤ q ∧ q < s.dmemSize) ∧
    (∀ q, s.skipSpaces left p = .error q → q = max p s.dmemSize) := by
  intro left
  induction left with
  | zero => intro p h; simp [State.skipSpaces]; omega
  | succ k ih =>
    intro p h
    obtain ⟨i1, i2⟩ := ih (p + 1) (by omega)
    have hm : s.memByte p = .ok (s.mem.read p) := by simp [State.memByte, show p < s.dmemSize by omega]
    simp only [State.skipSpaces, hm]
    split
    · exact ⟨fun q hq => by have := i1 q hq; omega, fun q hq => by have := i2 q hq; omega⟩
    · exact ⟨fun q hq => by cases hq; omega, fun q hq => by cases hq⟩

/-- As `skipSpaces_end`, for digits. -/
theorem State.scanDigits_end (base : Nat) : ∀ (left p : Nat), left = s.dmemSize - p →
    (∀ r, s.scanDigits base left p = .ok r → p ≤ r.2 ∧ r.2 < s.dmemSize) ∧
    (∀ q, s.scanDigits base left p = .error q → q = max p s.dmemSize) := by
  intro left
  induction left with
  | zero => intro p h; simp [State.scanDigits]; omega
  | succ k ih =>
    intro p h
    obtain ⟨i1, i2⟩ := ih (p + 1) (by omega)
    have hm : s.memByte p = .ok (s.mem.read p) := by simp [State.memByte, show p < s.dmemSize by omega]
    simp only [State.scanDigits, hm]
    split
    · exact ⟨fun q hq => by cases hq; simp only; omega, fun q hq => by cases hq⟩
    · refine ⟨fun r hr => ?_, fun q hq => ?_⟩
      · split at hr
        · cases hr
        · next r' hr' => cases hr; have := i1 _ hr'; simp only; omega
      · split at hq
        · next q' hq' => cases hq; have := i2 _ hq'; omega
        · cases hq

/-- As `skipSpaces_end`, for flags. -/
theorem State.scanFlags_end : ∀ (left p : Nat) (fr : FormatRecord), left = s.dmemSize - p →
    (∀ r, s.scanFlags left p fr = .ok r → p ≤ r.2 ∧ r.2 < s.dmemSize) ∧
    (∀ q, s.scanFlags left p fr = .error q → q = max p s.dmemSize) := by
  intro left
  induction left with
  | zero => intro p fr h; simp [State.scanFlags]; omega
  | succ k ih =>
    intro p fr h
    have hm : s.memByte p = .ok (s.mem.read p) := by simp [State.memByte, show p < s.dmemSize by omega]
    simp only [State.scanFlags, hm]
    split
    · next fr' _ =>
      obtain ⟨i1, i2⟩ := ih (p + 1) fr' (by omega)
      exact ⟨fun q hq => by have := i1 q hq; omega, fun q hq => by have := i2 q hq; omega⟩
    · exact ⟨fun q hq => by cases hq; simp only; omega, fun q hq => by cases hq⟩

/-- As `skipSpaces_end`, for a decimal number. -/
theorem State.scanNumber_end : ∀ (left p n : Nat), left = s.dmemSize - p →
    (∀ r, s.scanNumber left p n = .ok r → p ≤ r.2 ∧ r.2 < s.dmemSize) ∧
    (∀ q, s.scanNumber left p n = .error q → q = max p s.dmemSize) := by
  intro left
  induction left with
  | zero => intro p n h; simp [State.scanNumber]; omega
  | succ k ih =>
    intro p n h
    have hm : s.memByte p = .ok (s.mem.read p) := by simp [State.memByte, show p < s.dmemSize by omega]
    simp only [State.scanNumber, hm]
    split
    · obtain ⟨i1, i2⟩ := ih (p + 1) (min (2 ^ 31 - 1) (10 * n + ((s.mem.read p).toNat - 0x30))) (by omega)
      exact ⟨fun q hq => by have := i1 q hq; omega, fun q hq => by have := i2 q hq; omega⟩
    · exact ⟨fun q hq => by cases hq; simp only; omega, fun q hq => by cases hq⟩

end Sys2Proof.Machine
end

