-- ==== Sys2Proof/Tests/Slice0.lean ====
section
/-! SUPPORT. The model's own tests. Words are written out from spec/30_encoding.md R81 to R85; expected results are the examples
of the rules and the vectors of spec/95_test_vectors.md. The witnesses at the end show, for each statement with hypotheses,
concrete states and operands that meet them, clause by clause. -/

namespace Sys2Proof.Tests

open Sys2Proof.Machine Sys2Proof.Statements

/-! Helpers. -/

/-- The value with the halves h and l. -/
def val (h l : Nat) : Value := BitVec.ofNat 256 (h * 2 ^ 128 + l)

/-- 2^128 - 1, 32 hexadecimal digits F. -/
def ones : Nat := 2 ^ 128 - 1

/-- The reset state with some value registers, scalar registers and DMEM bytes set. -/
def start (vs : List (VReg × Value)) (xs : List (XReg × Scalar)) (a : Nat) (bs : List Nat) : State :=
  (xs.foldl (fun s p => s.setX p.1 p.2) (vs.foldl (fun s p => s.setV p.1 p.2) State.reset)).store a
    (bs.map (BitVec.ofNat 8))

/-- The answer is a next state with the property. -/
def gives (r : Result) (p : State → Bool) : Bool :=
  match r with
  | .next t => p t
  | .fault _ | .refused _ => false

/-- DMEM holds the bytes from an address on. -/
def holds (t : State) (a : Nat) (bs : List Nat) : Bool := t.mem.readBytes a bs.length == bs.map (BitVec.ofNat 8)

/-- The state is FAULTED with the code, word and address. -/
def faultedWith (t : State) (c : BitVec 8) (w : Command) (a : Scalar) : Bool :=
  t.run == .faulted && t.fault == c && t.fcmd == w && t.faddr == a

/-! ### Well-formedness: the one check, on each control register that commands may not write -/

theorem test_wellFormed_refuses_read_only_registers :
    (Instr.csrw .cfg 1).wellFormed = false ∧ (Instr.csrw .fault 1).wellFormed = false ∧
    (Instr.csrw .fcmd 1).wellFormed = false ∧ (Instr.csrw .faddr 1).wellFormed = false := by decide

theorem test_wellFormed_accepts : (Instr.csrw .dpchar 2).wellFormed = true ∧ (Instr.csrr 1 .cfg).wellFormed = true := by decide

/-! ### Decoding: a word for every command -/

theorem test_decode_moves :
    decode 0x00000000 = .ok (.nop) ∧
    decode 0x01120000 = .ok (.movv 1 2) ∧
    decode 0x02300004 = .ok (.const 3 .max) ∧
    decode 0x0310FFFE = .ok (.lix 1 0xFFFE) := by decide

theorem test_decode_memory :
    decode 0x10210010 = .ok (.ldv 2 1 0x10) ∧
    decode 0x11310000 = .ok (.stv 3 1 0) ∧
    decode 0x12220000 = .ok (.ldx 2 2 0) ∧
    decode 0x13410008 = .ok (.stx 4 1 8) := by decide

theorem test_decode_bitwise :
    decode 0x20210000 = .ok (.not 2 1) ∧
    decode 0x21312000 = .ok (.and 3 1 2) ∧
    decode 0x22312000 = .ok (.or 3 1 2) ∧
    decode 0x23312000 = .ok (.xor 3 1 2) := by decide

theorem test_decode_shifts :
    decode 0x24312000 = .ok (.shl 3 1 2) ∧
    decode 0x25312000 = .ok (.shr 3 1 2) ∧
    decode 0x26312000 = .ok (.sar 3 1 2) ∧
    decode 0x273100C1 = .ok (.shli 3 1 193) ∧
    decode 0x28310080 = .ok (.shri 3 1 128) ∧
    decode 0x29310001 = .ok (.sari 3 1 1) ∧
    decode 0x2A120000 = .ok (.clz 1 2 .lo) ∧
    decode 0x2A120001 = .ok (.clz 1 2 .hi) := by decide

theorem test_decode_additive :
    decode 0x30312000 = .ok (.add 3 1 2) ∧
    decode 0x31432000 = .ok (.sub 4 3 2) ∧
    decode 0x32210000 = .ok (.neg 2 1) ∧
    decode 0x33530000 = .ok (.abs 5 3) ∧
    decode 0x34210000 = .ok (.nabs 2 1) ∧
    decode 0x35210000 = .ok (.isneg 2 1) ∧
    decode 0x36834000 = .ok (.cmp 8 3 4) ∧
    decode 0x37312000 = .ok (.ucmp 3 1 2) ∧
    decode 0x38312000 = .ok (.min 3 1 2) ∧
    decode 0x39312000 = .ok (.max 3 1 2) := by decide

theorem test_decode_muldiv :
    decode 0x40312001 = .ok (.umul 3 1 2 .hi .lo) ∧
    decode 0x40312002 = .ok (.umul 3 1 2 .lo .hi) ∧
    decode 0x41324000 = .ok (.udiv 3 2 4 .lo) ∧
    decode 0x41324001 = .ok (.udiv 3 2 4 .hi) ∧
    decode 0x42312000 = .ok (.mul 3 1 2) ∧
    decode 0x43312000 = .ok (.div 3 1 2) ∧
    decode 0x44312000 = .ok (.mod 3 1 2) := by decide

theorem test_decode_roots_rounding :
    decode 0x48210000 = .ok (.sqrt 2 1) ∧
    decode 0x49210000 = .ok (.rsqrt 2 1) ∧
    decode 0x50210000 = .ok (.floor 2 1) ∧
    decode 0x51210000 = .ok (.ceil 2 1) ∧
    decode 0x52210000 = .ok (.round 2 1) := by decide

theorem test_decode_strings :
    decode 0x60412300 = .ok (.fmt 4 1 2 3) ∧
    decode 0x61533400 = .ok (.fmtd 5 3 3 4) ∧
    decode 0x62010000 = .ok (.fmtparse 1) ∧
    decode 0x68213000 = .ok (.parse 2 1 3) := by decide

theorem test_decode_conversions_control :
    decode 0x70210000 = .ok (.fromint 2 1) ∧
    decode 0x71C30000 = .ok (.toint 12 3) ∧
    decode 0x72210000 = .ok (.fromf 2 1) ∧
    decode 0x73730000 = .ok (.tof 7 3) ∧
    decode 0x7E100005 = .ok (.csrr 1 .fmtprec) ∧
    decode 0x7F020002 = .ok (.csrw .dpchar 2) := by decide

/-- Section 2.1 of the vectors. -/
theorem test_decode_illegal_field :
    decode 0x00000001 = .error .field ∧
    decode 0x02300005 = .error .field ∧
    decode 0x02300008 = .error .field ∧
    decode 0x01120100 = .error .field ∧
    decode 0x03110000 = .error .field ∧
    decode 0x2A120002 = .error .field ∧
    decode 0x40312004 = .error .field ∧
    decode 0x41312002 = .error .field ∧
    decode 0x273110FF = .error .field ∧
    decode 0x7E100006 = .error .field ∧
    decode 0x7F010000 = .error .field ∧
    decode 0x7F010008 = .error .field ∧
    decode 0x7F010009 = .error .field ∧
    decode 0x60412301 = .error .field := by decide

/-- Section 2.1 of the vectors. -/
theorem test_decode_illegal_opcode :
    decode 0x04000000 = .error .opcode ∧
    decode 0xFF000000 = .error .opcode ∧
    decode 0x45000000 = .error .opcode ∧
    decode 0x04000001 = .error .opcode := by decide

theorem test_decodeTableWord : decodeTableWord 32 0x01120000 = some (.movv 1 2) ∧ decodeTableWord 32 0x04000000 = none := by decide

/-! ### One step of each command -/

theorem test_nop :
    gives (exec (.nop) (start [] [] 0 [])) (fun t => t == State.reset) = true := by decide

theorem test_movv :
    gives (exec (.movv 1 2) (start [(2, val 1 0)] [] 0 [])) (fun t => t.getV 1 == val 1 0) = true := by decide

theorem test_const :
    gives (exec (.const 3 .max) (start [] [] 0 [])) (fun t => t.getV 3 == val (2 ^ 127 - 1) ones) = true := by decide

theorem test_const_min :
    gives (exec (.const 3 .min) (start [] [] 0 [])) (fun t => t.getV 3 == val (2 ^ 127) 0) = true := by decide

theorem test_lix :
    gives (exec (.lix 1 0xFFFE) (start [] [] 0 [])) (fun t => t.getX 1 == 0xFFFFFFFFFFFFFFFE) = true := by decide

theorem test_ldv :
    gives (exec (.ldv 2 1 0x10) (start [] [(1, 0x40)] 0x60 [1])) (fun t => t.getV 2 == val 1 0) = true := by decide

theorem test_ldv_range :
    gives (exec (.ldv 1 1 0) (start [] [(1, 0xFFF0)] 0 [])) (fun t => faultedWith t 3 0x10110000 0x10000 && t.getV 1 == 0) = true := by decide

theorem test_stv :
    gives (exec (.stv 3 1 0) (start [(3, val ones 0)] [(1, 0x40)] 0 [])) (fun t => holds t 0x4F [0, 255] && holds t 0x5F [255, 0]) = true := by decide

theorem test_stv_range :
    gives (exec (.stv 1 1 0) (start [(1, val 1 0)] [(1, 0xFFE1)] 0 [])) (fun t => faultedWith t 3 0x11110000 0x10000 && t.mem == []) = true := by decide

theorem test_ldx :
    gives (exec (.ldx 2 2 0) (start [] [] 0 [0x2A])) (fun t => t.getX 2 == 0x2A) = true := by decide

theorem test_ldx_last :
    gives (exec (.ldx 1 1 0) (start [] [(1, 0xFFF8)] 0xFFFF [0x80])) (fun t => t.getX 1 == 0x8000000000000000) = true := by decide

theorem test_stx :
    gives (exec (.stx 4 1 8) (start [] [(1, 0x100), (4, 0x0102030405060708)] 0 [])) (fun t => holds t 0x107 [0, 8, 7, 6, 5, 4, 3, 2, 1, 0]) = true := by decide

theorem test_stx_range :
    gives (exec (.stx 1 1 0) (start [] [(1, 0xFFF9)] 0 [])) (fun t => faultedWith t 3 0x13110000 0x10000 && t.mem == []) = true := by decide

theorem test_not :
    gives (exec (.not 2 1) (start [(1, val 1 0)] [] 0 [])) (fun t => t.getV 2 == val (ones - 1) ones) = true := by decide

theorem test_and :
    gives (exec (.and 3 1 2) (start [(1, val 1 (2 ^ 127)), (2, val 1 0)] [] 0 [])) (fun t => t.getV 3 == val 1 0) = true := by decide

theorem test_or :
    gives (exec (.or 3 1 2) (start [(1, val 1 0), (2, val 0 1)] [] 0 [])) (fun t => t.getV 3 == val 1 1) = true := by decide

theorem test_xor :
    gives (exec (.xor 3 1 2) (start [(1, val (2 ^ 127) 0), (2, val (2 ^ 127 - 1) ones)] [] 0 [])) (fun t => t.getV 3 == val ones ones) = true := by decide

theorem test_shl_amount_mod_256 :
    gives (exec (.shl 3 1 2) (start [(1, val 1 0)] [(2, 256)] 0 [])) (fun t => t.getV 3 == val 1 0) = true := by decide

theorem test_shr :
    gives (exec (.shr 3 1 2) (start [(1, val 0xA0000000000000000000000000000000 0)] [(2, 65)] 0 [])) (fun t => t.getV 3 == val 0x00000000000000005000000000000000 0) = true := by decide

theorem test_sar :
    gives (exec (.sar 3 1 2) (start [(1, val ones (ones - 2))] [(2, 1)] 0 [])) (fun t => t.getV 3 == val ones (ones - 1)) = true := by decide

theorem test_shli :
    gives (exec (.shli 3 1 193) (start [(1, val 0 5)] [] 0 [])) (fun t => t.getV 3 == val 0x000000000000000A0000000000000000 0) = true := by decide

theorem test_shri :
    gives (exec (.shri 3 1 128) (start [(1, val 1 0)] [] 0 [])) (fun t => t.getV 3 == val 0 1) = true := by decide

theorem test_sari :
    gives (exec (.sari 3 1 1) (start [(1, val ones 0)] [] 0 [])) (fun t => t.getV 3 == val ones (2 ^ 127)) = true := by decide

theorem test_clz_hi :
    gives (exec (.clz 1 2 .hi) (start [(2, val 1 0)] [] 0 [])) (fun t => t.getX 1 == 127) = true := by decide

theorem test_clz_zero_half :
    gives (exec (.clz 1 2 .lo) (start [(2, val 1 0)] [] 0 [])) (fun t => t.getX 1 == 128) = true := by decide

theorem test_add_carry :
    gives (exec (.add 3 1 2) (start [(1, val 0 ones), (2, val 0 1)] [] 0 [])) (fun t => t.getV 3 == val 1 0) = true := by decide

theorem test_add_wrap :
    gives (exec (.add 3 1 2) (start [(1, val (2 ^ 127 - 1) ones), (2, val 0 1)] [] 0 [])) (fun t => t.getV 3 == val (2 ^ 127) 0 && t.status == 0) = true := by decide

theorem test_sub :
    gives (exec (.sub 3 1 2) (start [(2, val 1 0)] [] 0 [])) (fun t => t.getV 3 == val ones 0) = true := by decide

theorem test_neg_min :
    gives (exec (.neg 2 1) (start [(1, val (2 ^ 127) 0)] [] 0 [])) (fun t => t.getV 2 == val (2 ^ 127) 0) = true := by decide

theorem test_abs :
    gives (exec (.abs 2 1) (start [(1, val (ones - 2) (2 ^ 127))] [] 0 [])) (fun t => t.getV 2 == val 2 (2 ^ 127)) = true := by decide

theorem test_nabs :
    gives (exec (.nabs 2 1) (start [(1, val 1 0)] [] 0 [])) (fun t => t.getV 2 == val ones 0) = true := by decide

theorem test_isneg :
    gives (exec (.isneg 2 1) (start [(1, val (2 ^ 127) 0)] [] 0 [])) (fun t => t.getX 2 == 1) = true := by decide

theorem test_cmp :
    gives (exec (.cmp 3 1 2) (start [(1, val (2 ^ 127 - 1) ones), (2, val (2 ^ 127) 0)] [] 0 [])) (fun t => t.getX 3 == 1) = true := by decide

theorem test_cmp_less :
    gives (exec (.cmp 3 1 2) (start [(1, val ones 0), (2, val 1 0)] [] 0 [])) (fun t => t.getX 3 == 0xFFFFFFFFFFFFFFFF) = true := by decide

theorem test_ucmp :
    gives (exec (.ucmp 3 1 2) (start [(1, val ones 0), (2, val 1 0)] [] 0 [])) (fun t => t.getX 3 == 1) = true := by decide

theorem test_min :
    gives (exec (.min 3 1 2) (start [(1, 0), (2, val ones ones)] [] 0 [])) (fun t => t.getV 3 == val ones ones) = true := by decide

theorem test_max :
    gives (exec (.max 3 1 2) (start [(1, val ones ones)] [] 0 [])) (fun t => t.getV 3 == 0) = true := by decide

theorem test_umul :
    gives (exec (.umul 3 1 2 .hi .lo) (start [(1, val 3 0), (2, val 0 7)] [] 0 [])) (fun t => t.getV 3 == val 0 0x15) = true := by decide

theorem test_umul_largest :
    gives (exec (.umul 3 1 2 .lo .lo) (start [(1, val 0 ones), (2, val 0 ones)] [] 0 [])) (fun t => t.getV 3 == val (ones - 1) 1) = true := by decide

theorem test_udiv :
    gives (exec (.udiv 3 1 2 .lo) (start [(1, val 6 5), (2, val 0 7)] [] 0 [])) (fun t => t.getV 3 == val 1 0xDB6DB6DB6DB6DB6DB6DB6DB6DB6DB6DC) = true := by decide

theorem test_udiv_precond :
    gives (exec (.udiv 3 2 4 .lo) (start [(2, val 5 0), (4, val 0 5)] [] 0 [])) (fun t => faultedWith t 4 0x41324000 0 && t.getV 3 == 0) = true := by decide

theorem test_mul :
    gives (exec (.mul 3 1 2) (start [(1, val (ones - 2) 0), (2, val 2 (2 ^ 127))] [] 0 [])) (fun t => t.getV 3 == val (ones - 7) (2 ^ 127)) = true := by decide

theorem test_mul_rounds :
    gives (exec (.mul 3 1 2) (start [(1, val ones ones), (2, val 0 (2 ^ 127))] [] 0 [])) (fun t => t.getV 3 == val ones ones) = true := by decide

theorem test_div :
    gives (exec (.div 3 1 2) (start [(1, val ones 0), (2, val 3 0)] [] 0 [])) (fun t => t.getV 3 == val ones 0xAAAAAAAAAAAAAAAAAAAAAAAAAAAAAAAB && t.status == 0) = true := by decide

theorem test_div_overflow :
    gives (exec (.div 3 1 2) (start [(1, val (2 ^ 127) 0), (2, val ones 0)] [] 0 [])) (fun t => t.getV 3 == val (2 ^ 127 - 1) ones && t.status == 2) = true := by decide

theorem test_mod :
    gives (exec (.mod 3 1 2) (start [(1, val (ones - 7) (2 ^ 127)), (2, val 2 0)] [] 0 [])) (fun t => t.getV 3 == val (ones - 1) (2 ^ 127) && t.status == 0) = true := by decide

theorem test_mod_overflow :
    gives (exec (.mod 3 1 2) (start [(1, val 1 0), (2, val 0 1)] [] 0 [])) (fun t => t.getV 3 == val 0 0x80000000000000000000000000000001 && t.status == 2) = true := by decide

theorem test_sqrt :
    gives (exec (.sqrt 2 1) (start [(1, val 2 0)] [] 0 [])) (fun t => t.getV 2 == val 1 0x6A09E667F3BCC908B2FB1366EA957D3E) = true := by decide

theorem test_sqrt_negative :
    gives (exec (.sqrt 2 1) (start [(1, val ones ones)] [] 0 [])) (fun t => t.getV 2 == val (2 ^ 127) 0 && t.status == 4) = true := by decide

theorem test_rsqrt :
    gives (exec (.rsqrt 2 1) (start [(1, val 4 0)] [] 0 [])) (fun t => t.getV 2 == val 0 0x7FFFFFFFFFFFFFFFFFFB3FDC65CCCFA0) = true := by decide

theorem test_rsqrt_smallest :
    gives (exec (.rsqrt 2 1) (start [(1, val 0 1)] [] 0 [])) (fun t => t.getV 2 == val (0x88B * 2 ^ 56) 0) = true := by decide

theorem test_floor :
    gives (exec (.floor 2 1) (start [(1, val (ones - 2) (2 ^ 127))] [] 0 [])) (fun t => t.getV 2 == val (ones - 2) 0) = true := by decide

theorem test_ceil :
    gives (exec (.ceil 2 1) (start [(1, val (ones - 2) (2 ^ 127))] [] 0 [])) (fun t => t.getV 2 == val (ones - 1) 0) = true := by decide

theorem test_round_negative :
    gives (exec (.round 2 1) (start [(1, val (ones - 2) (2 ^ 127))] [] 0 [])) (fun t => t.getV 2 == val (ones - 2) 0) = true := by decide

theorem test_round_positive :
    gives (exec (.round 2 1) (start [(1, val 2 (2 ^ 127))] [] 0 [])) (fun t => t.getV 2 == val 3 0) = true := by decide

/-- "+0001.50" and a NUL. -/
theorem test_fmt :
    gives (exec (.fmt 4 1 2 3) ({ start [(1, val 1 (2 ^ 127))] [(2, 0x100), (3, 16)] 0 [] with fmtctl := 6, fmtwidth := 8, fmtprec := 2 })) (fun t => holds t 0x100 [43, 48, 48, 48, 49, 46, 53, 48, 0] && t.getX 4 == 8 && t.status == 0) = true := by decide

/-- "1." and a NUL at the end of DMEM. -/
theorem test_fmt_truncates :
    gives (exec (.fmt 4 1 2 3) (start [(1, val 1 (2 ^ 127))] [(2, 0xFFFD), (3, 3)] 0 [])) (fun t => holds t 0xFFFD [49, 46, 0] && t.getX 4 == 3 && t.status == 16) = true := by decide

/-- The last digits of "3.33...32". -/
theorem test_fmtd :
    gives (exec (.fmtd 5 3 3 4) (start [(3, val 3 0x55555555555555555555555555555555)] [(3, 0x100), (4, 64)] 0 [])) (fun t => holds t 0x124 [51, 51, 51, 51, 50, 0] && t.getX 5 == 41) = true := by decide

/-- Capacity 0 comes before the range (R304). -/
theorem test_fmtd_capacity :
    gives (exec (.fmtd 1 2 2 0) (start [] [(2, 0x10000)] 0 [])) (fun t => faultedWith t 5 0x61122000 0) = true := by decide

/-- "%+08.2f". -/
theorem test_fmtparse :
    gives (exec (.fmtparse 1) (start [] [(1, 0x200)] 0x200 [37, 43, 48, 56, 46, 50, 102, 0])) (fun t => t.fmtctl == 6 && t.fmtwidth == 8 && t.fmtprec == 2) = true := by decide

/-- "%-010.99999999999". -/
theorem test_fmtparse_saturates :
    gives (exec (.fmtparse 1) (start [] [] 0 [37, 45, 48, 49, 48, 46, 57, 57, 57, 57, 57, 57, 57, 57, 57, 57, 57])) (fun t => t.fmtctl == 0x14 && t.fmtwidth == 10 && t.fmtprec == 0x7FFFFFFF) = true := by decide

/-- "  -12.75xyz". -/
theorem test_parse :
    gives (exec (.parse 2 1 3) (start [] [(1, 0x300)] 0x300 [32, 32, 45, 49, 50, 46, 55, 53, 120, 121, 122, 0])) (fun t => t.getV 2 == val (ones - 12) (2 ^ 126) && t.getX 3 == 0x308) = true := by decide

/-- "0x1.8", the end address to the same register. -/
theorem test_parse_hex :
    gives (exec (.parse 2 1 1) (start [] [(1, 0x300)] 0x300 [48, 120, 49, 46, 56, 0])) (fun t => t.getV 2 == val 1 (2 ^ 127) && t.getX 1 == 0x305) = true := by decide

theorem test_fromint :
    gives (exec (.fromint 2 1) (start [] [(1, 0x8000000000000000)] 0 [])) (fun t => t.getV 2 == val 0xFFFFFFFFFFFFFFFF8000000000000000 0) = true := by decide

theorem test_toint :
    gives (exec (.toint 2 1) (start [(1, val (ones - 2) (2 ^ 127))] [] 0 [])) (fun t => t.getX 2 == 0xFFFFFFFFFFFFFFFE) = true := by decide

theorem test_fromf :
    gives (exec (.fromf 2 1) (start [] [(1, 0x4007581A3D6CE3F9)] 0 [])) (fun t => t.getV 2 == val 2 0xEB0347AD9C7F20000000000000000000 && t.status == 0) = true := by decide +kernel

theorem test_fromf_range :
    gives (exec (.fromf 2 1) (start [] [(1, 0x47E0000000000000)] 0 [])) (fun t => t.getV 2 == val (2 ^ 127 - 1) ones && t.status == 8) = true := by decide +kernel

theorem test_tof :
    gives (exec (.tof 2 1) (start [(1, val (ones - 2) 0xE0000000000000000000000000000000)] [] 0 [])) (fun t => t.getX 2 == 0xC001000000000000) = true := by decide +kernel

theorem test_tof_rounds :
    gives (exec (.tof 2 1) (start [(1, val 3 0x55555555555555555555555555555555)] [] 0 [])) (fun t => t.getX 2 == 0x400AAAAAAAAAAAAB) = true := by decide +kernel

theorem test_csrr :
    gives (exec (.csrr 1 .fmtprec) (start [] [] 0 [])) (fun t => t.getX 1 == 0xFFFFFFFFFFFFFFFF) = true := by decide

theorem test_csrr_cfg :
    gives (exec (.csrr 1 .cfg) (start [] [] 0 [])) (fun t => t.getX 1 == 0x10000) = true := by decide

theorem test_csrw_fmtctl :
    gives (exec (.csrw .fmtctl 2) (start [] [(2, 0x1F)] 0 [])) (fun t => t.fmtctl == 0x1C) = true := by decide

theorem test_csrw_fmtprec :
    gives (exec (.csrw .fmtprec 2) (start [] [(2, 0x10000000000)] 0 [])) (fun t => t.fmtprec == 0x7FFFFFFF) = true := by decide
/-! ### The host port, faults and reset (program E of the vectors, section 3.5) -/

/-- The reset state with the host's transactions. -/
def hosted (h : List HostTxn) : State := { State.reset with host := h }

/-- A FAULTED state with MEM_RANGE recorded, as after step 1 of program E, and the host's transactions. -/
def stopped (h : List HostTxn) : State :=
  { State.reset with fault := 3, fcmd := 0x10110000, faddr := 0x10000, run := .faulted, host := h }

/-- A BUSY state with the word and the host's transactions, X1 at 16 bytes below the end of DMEM and X3 = 4. -/
def busyWith (w : Command) (h : List HostTxn) : State :=
  { start [(2, val 1 0)] [(1, 0xFFF0), (3, 4)] 0 [] with run := .busy w, host := h }

/-- Step 1 of program E. -/
theorem test_step_takes_a_fault :
    gives (step (busyWith 0x10110000 [.elapse])) (· == { busyWith 0x10110000 [] with
      fault := 3, fcmd := 0x10110000, faddr := 0x10000, run := .faulted }) = true := by decide

/-- Steps 2 to 5 of program E: not accepted, FADDR read, cleared, accepted, run. -/
theorem test_host_clears_a_fault :
    gives (Sys2Proof.core.run 5 (stopped [.issue 0, .readCsr 0x0A, .writeCsr 0x08 0, .issue 0x02200001]))
      (fun t => t.replies == [.accepted, .done, .csr 0x10000, .notAccepted] && t.run == .idle && t.fault == 0 &&
        t.getV 2 == val 1 0) = true := by decide

/-- Step 8 of program E, and ILLEGAL_FIELD of step 10. -/
theorem test_illegal_words_fault :
    gives (step (busyWith 0x04000000 [])) (faultedWith · 1 0x04000000 0) = true ∧
    gives (step (busyWith 0x02300005 [])) (faultedWith · 2 0x02300005 0) = true := by decide

theorem test_host_transfers :
    gives (Sys2Proof.core.run 5 (hosted [.state, .writeMem 0xFFFE [7#8, 8#8], .readMem 0xFFFD 3, .readMem 0xFFFF 2,
        .readX 16])) (fun t => t.replies ==
      [.refused, .refused, .bytes [0#8, 7#8, 8#8], .done, .isIdle] && t.host == []) = true := by decide

/-- RESET while FAULTED: every register and the run state at reset, DMEM kept (70_reset_and_hazards R340). -/
theorem test_reset_keeps_memory :
    gives (step ({ (stopped [.reset]).store 5 [9#8] with status := 1 })) (fun t =>
      t == { State.reset with mem := [(5, 9#8)], replies := [.done] }) = true := by decide

/-- RESET during `stv v3, 0(x1)` with X1 = 0xFFF0, which would have raised MEM_RANGE: no byte is drawn (R303, R342). -/
theorem test_reset_of_a_faulting_store :
    gives (step (busyWith 0x11310000 [.reset])) (fun t => t == { State.reset with replies := [.done] }) = true := by decide

theorem test_state_during_busy :
    gives (step (busyWith 0 [.state])) (fun t => t.replies == [.isBusy] && t.run == .busy 0) = true := by decide

theorem test_withFetchWord_runs_next :
    gives (step (State.reset.withFetchWord 32 0x02300004)) (fun t => t == State.reset.setV 3 (val (2 ^ 127 - 1) ones)) = true := by
  decide

theorem test_reset_is_well_formed : State.reset.mem.wf = true ∧ State.reset.host = [] := by decide

/-! ### Witnesses: states and operands that meet the hypotheses of the statements -/

theorem witness_DecodeOfEncodeIsTheCommand :
    (Instr.csrw .status 3).wellFormed = true ∧ (Instr.csrw .fmtprec 15).wellFormed = true ∧
    (Instr.umul 15 0 7 .hi .lo).wellFormed = true := by decide

theorem witness_DecodedWordIsTheCommandsEncoding : decode 0x7F020002 = .ok (.csrw .dpchar 2) := by decide

/-- The first and the last undefined opcode bytes, beside defined ones, and the two outcomes of a word. -/
theorem witness_UndefinedOpcodesRaiseIllegalOpcode :
    UndefinedOpcode ((0x04000000#32).toNat / 2 ^ 24) ∧ UndefinedOpcode ((0xFFFFFFFF#32).toNat / 2 ^ 24) ∧
    UndefinedOpcode ((0x7D000000#32).toNat / 2 ^ 24) ∧ UndefinedOpcode ((0x80000000#32).toNat / 2 ^ 24) ∧
    ¬ UndefinedOpcode ((0x03000000#32).toNat / 2 ^ 24) ∧ ¬ UndefinedOpcode ((0x7F000000#32).toNat / 2 ^ 24) ∧
    encode (.csrr 15 .faddr) = 0x7EF0000A ∧ decode 0x7EF0000B = .error .field := by
  refine ⟨?_, ?_, ?_, ?_, ?_, ?_, by decide, by decide⟩ <;> unfold UndefinedOpcode <;> decide

theorem witness_DecoderAgreesWithTheOpcodeTable :
    0x2A120001#32 &&& 0xFF00FFFE#32 = 0x2A000000 ∧ (0x2A000000, 0xFF00FFFE) ∈ tableRows ∧ selectorOk 0x2A120001 ∧
    selectorOk 0x02300004 ∧ ¬ selectorOk 0x02300005 ∧ selectorOk 0x7E10000A ∧ ¬ selectorOk 0x7E10000B ∧
    ¬ selectorOk 0x7E100006 ∧ selectorOk 0x7F010005 ∧ ¬ selectorOk 0x7F010000 := by
  refine ⟨by decide, by decide, ?_, ?_, ?_, ?_, ?_, ?_, ?_, ?_⟩ <;> dsimp only [selectorOk] <;> decide

theorem witness_StepRunsTheDecodedCommand :
    decode 0x01120000 = .ok (.movv 1 2) ∧ (busyWith 0x01120000 [.elapse]).run = .busy 0x01120000 ∧
    (busyWith 0x01120000 [.elapse]).host.head? = some .elapse ∧ (busyWith 0x01120000 []).hostWaits = true ∧
    (busyWith 0x01120000 [.readX 3]).hostWaits = true := by decide

theorem witness_StepFaultsOnIllegalWords :
    (busyWith 0x04000000 []).run = .busy 0x04000000 ∧ decode 0x04000000 = .error .opcode ∧
    decode 0x01120100 = .error .field ∧ (busyWith 0x04000000 []).hostWaits = true ∧
    (busyWith 0x01120100 [.elapse]).host.head? = some .elapse := by decide

theorem witness_IssueIsAcceptedOnlyInIdle :
    (hosted [.issue 0]).run = .idle ∧ (hosted [.issue 0]).host = [.issue 0] ∧ (stopped [.issue 0]).run ≠ .idle ∧
    (busyWith 0 [.issue 1]).run ≠ .idle ∧ (busyWith 0 [.issue 1]).host = [.issue 1] := by decide

theorem witness_BusyEndsInBoundedSteps : (busyWith 0 [.state, .state]).run = .busy 0 := by decide

theorem witness_HostWriteToFaultClearsIt :
    (stopped [.writeCsr 0x08 0xFFFFFFFFFFFFFFFF]).run = .faulted ∧
    (stopped [.writeCsr 0x08 0xFFFFFFFFFFFFFFFF]).host = [.writeCsr 0x08 0xFFFFFFFFFFFFFFFF] := by decide

theorem witness_FaultedCoreRunsNoCommand :
    (stopped [.issue 0]).run = .faulted ∧
    step (stopped [.issue 0]) = .next { stopped [] with replies := [.notAccepted] } ∧
    (stopped [.issue 0]).host.head? ≠ some .reset ∧
    ∀ d, (stopped [.issue 0]).host.head? ≠ some (.writeCsr 0x08 d) := by
  refine ⟨by decide, rfl, by decide, ?_⟩
  intro d h
  simp [stopped] at h

/-- One transaction for each clause, at the boundaries of its range; the range ends one byte past DMEM. -/
theorem witness_RefusedTransactionsChangeNothing :
    (hosted [.readV 16]).run = .idle ∧ (stopped [.readV 16]).run = .faulted ∧
    (stopped [.readV 16]).host = [.readV 16] ∧
    (∃ i, 16 ≤ i ∧ HostTxn.readV 16 = .readV i) ∧
    (∃ n : BitVec 8, (n = 6 ∨ n = 7 ∨ 0x0B ≤ n) ∧ HostTxn.readCsr 0x0B = .readCsr n) ∧
    (∃ (n : BitVec 8) (d : Scalar), (n = 0 ∨ n = 9 ∨ n = 10) ∧ HostTxn.writeCsr 10 0 = .writeCsr n d) ∧
    (∃ a n, State.reset.dmemSize < a + n ∧ HostTxn.readMem 0xFFFF 2 = .readMem a n) ∧
    (∃ a n, State.reset.dmemSize < a + n ∧
      ∃ bs : List Byte, bs.length = n ∧ HostTxn.writeMem 0x10000 [1#8] = .writeMem a bs) := by
  refine ⟨by decide, by decide, by decide, ⟨16, by decide, rfl⟩, ⟨0x0B, by decide, rfl⟩, ⟨10, 0, by decide, rfl⟩,
    ⟨0xFFFF, 2, by decide, rfl⟩, ⟨0x10000, 1, by decide, [1#8], rfl, rfl⟩⟩

theorem witness_RegisterTransfersCarryImages :
    (hosted [.writeV 15 (Vector.replicate 32 7#8), .readV 15]).run = .idle ∧
    (hosted [.writeV 15 (Vector.replicate 32 7#8), .readV 15]).host =
      .writeV 15 (Vector.replicate 32 7#8) :: .readV 15 :: [] ∧
    (stopped [.writeX 0 (Vector.replicate 8 7#8), .readX 0]).run = .faulted ∧
    (stopped [.writeX 0 (Vector.replicate 8 7#8), .readX 0]).host =
      .writeX 0 (Vector.replicate 8 7#8) :: .readX 0 :: [] := by decide

/-- The last two bytes of DMEM. -/
theorem witness_MemoryTransfersCarryBytes :
    (hosted [.writeMem 0xFFFE [7#8, 8#8], .readMem 0xFFFE 2]).run = .idle ∧ [7#8, 8#8] ≠ [] ∧
    0xFFFE + [7#8, 8#8].length ≤ State.reset.dmemSize ∧
    (hosted [.writeMem 0xFFFE [7#8, 8#8], .readMem 0xFFFE 2]).host =
      .writeMem 0xFFFE [7#8, 8#8] :: .readMem 0xFFFE [7#8, 8#8].length :: [] := by decide

/-- Data that no scalar register holds, written while IDLE and FADDR read while FAULTED. -/
theorem witness_HostControlRegisterTransfers :
    (stopped [.readCsr Csr.faddr.number]).run = .faulted ∧
    (stopped [.readCsr Csr.faddr.number]).host = .readCsr Csr.faddr.number :: [] ∧
    (hosted [.writeCsr Csr.fmtprec.number 0xFFFFFFFFFFFFFFFF]).run = .idle ∧ Csr.fmtprec.writable = true ∧
    (hosted [.writeCsr Csr.fmtprec.number 0xFFFFFFFFFFFFFFFF]).host =
      .writeCsr Csr.fmtprec.number 0xFFFFFFFFFFFFFFFF :: [] := by decide

theorem witness_ResetSetsEveryRegister :
    (hosted [.reset]).host = .reset :: [] ∧ (hosted [.reset]).run = .idle ∧ (stopped [.reset]).run = .faulted ∧
    (busyWith 0 [.reset]).host = .reset :: [] := by decide

/-- A word of each storing command, and one that stores nothing; ranges that end at the end of DMEM and one byte later; a
capacity of 0. V2 is ONE, which formats as "1.". -/
theorem witness_AbandonedCommandLeavesOtherBytes :
    (busyWith 0x11310000 [.reset]).run = .busy 0x11310000 ∧ (busyWith 0x11310000 [.reset]).host = .reset :: [] ∧
    (decode 0x1133FFDC = .ok (.stv 3 3 0xFFDC) ∧ ((busyWith 0 []).getX 3).toNat + (0xFFDC#16).toNat + 32 = 0x10000) ∧
    (decode 0x1133FFDD = .ok (.stv 3 3 0xFFDD) ∧ (busyWith 0 []).dmemSize = 0x10000) ∧
    (decode 0x13410008 = .ok (.stx 4 1 8) ∧ ((busyWith 0 []).getX 1).toNat + (8#16).toNat + 8 = 0x10000) ∧
    decode 0x13410009 = .ok (.stx 4 1 9) ∧
    (decode 0x60421300 = .ok (.fmt 4 2 1 3) ∧ ((busyWith 0 []).getX 1).toNat = 0xFFF0 ∧
      writtenLength (fmtText (busyWith 0 []) 2) ((busyWith 0 []).getX 3).toNat = 3) ∧
    (decode 0x61421000 = .ok (.fmtd 4 2 1 0) ∧ ¬ 1 ≤ ((busyWith 0 []).getX 0).toNat) ∧
    (∀ d a off, decode 0x01120000 ≠ .ok (.stv d a off)) ∧ (∀ d a off, decode 0x01120000 ≠ .ok (.stx d a off)) ∧
    (∀ d a b c, decode 0x01120000 ≠ .ok (.fmt d a b c)) ∧ (∀ d a b c, decode 0x01120000 ≠ .ok (.fmtd d a b c)) := by
  have h : decode 0x01120000 = .ok (.movv 1 2) := by decide
  simp only [h]
  refine ⟨by decide, by decide, by decide, by decide, by decide, by decide, by decide, by decide, ?_⟩
  simp

/-- The smallest and the largest DMEM. -/
theorem witness_InvariantHoldsAtPowerOn :
    1 ≤ 2 ^ 64 ∧ Memory.wf [(0, 5#8)] = true ∧ (∀ c ∈ [(0, 5#8)], c.1 < 1) ∧
    Memory.wf [(3, 1#8), (2 ^ 64 - 1, 5#8)] = true ∧ (∀ c ∈ [(3, 1#8), (2 ^ 64 - 1, 5#8)], c.1 < 2 ^ 64) := by decide

theorem reset_inv : State.reset.Inv := by
  unfold State.Inv State.memOk State.csrOk State.faultOk; decide

/-- A state in which the step ends BUSY with a fault. -/
theorem witness_EveryStepKeepsTheInvariant :
    (busyWith 0x10110000 []).Inv ∧ step (busyWith 0x10110000 []) = .next { busyWith 0x10110000 [] with
      fault := 3, fcmd := 0x10110000, faddr := 0x10000, run := .faulted } := by
  refine ⟨?_, rfl⟩
  unfold State.Inv State.memOk State.csrOk State.faultOk; decide

theorem witness_CfgNeverChanges :
    (State.powerOn (2 ^ 64) []).dmemSize = 2 ^ 64 ∧ step (hosted [.state]) = .next { hosted [] with replies := [.isIdle] } :=
  ⟨rfl, rfl⟩

/-- A dividing command that sets a flag, a storing command, and one of neither kind. -/
theorem witness_FlagsAreSticky :
    (∀ a, Instr.div 3 2 4 ≠ .csrw .status a) ∧ (∀ a, Instr.movv 1 2 ≠ .csrw .status a) ∧
    (∃ t, exec (.div 3 2 4) (busyWith 0 []) = .next t ∧ t.status = 1) ∧
    (∃ t, exec (.movv 1 2) (busyWith 0 []) = .next t ∧ t.status = 0) := by
  refine ⟨by simp, by simp, ⟨_, rfl, by decide⟩, ⟨_, rfl, by decide⟩⟩

theorem witness_OnlyStoringCommandsChangeDmem :
    (∃ t, exec (.stv 2 0 0) (busyWith 0 []) = .next t ∧ t.mem.read 16 = 1) ∧
    (∃ t, exec (.movv 1 2) (busyWith 0 []) = .next t ∧ t.mem.read 16 = 0) :=
  ⟨⟨_, rfl, by decide⟩, ⟨_, rfl, by decide⟩⟩

theorem witness_FormatRegistersChangeOnlyByCsrwAndFmtparse :
    (∃ t, exec (.movv 1 2) (busyWith 0 []) = .next t) ∧ (∀ c a, Instr.movv 1 2 ≠ .csrw c a) ∧
    (∀ a, Instr.movv 1 2 ≠ .fmtparse a) := ⟨⟨_, rfl⟩, by simp, by simp⟩

/-- The constants' rows, and the first and the last undefined k. -/
theorem witness_ConstLoadsANamedConstant :
    (ConstName.min, 3, 2 ^ 255) ∈ [(ConstName.zero, 0, 0), (.one, 1, 2 ^ 128), (.smallest, 2, 1), (.min, 3, 2 ^ 255),
      (.max, 4, 2 ^ 255 - 1)] ∧ 4 < (5#8).toNat ∧ 4 < (255#8).toNat := by decide

theorem witness_LixWritesTheSignExtendedImmediate : (1#4) ≠ 0 := by decide

/-- A range that ends at the end of DMEM, and one that ends a byte later. -/
theorem witness_LdvLoadsAnImageOrFaults :
    (start [] [(1, 0xFFDF)] 0 []).getX 1 = 0xFFDF ∧ (0xFFDF#64).toNat + (1#16).toNat + 32 ≤ State.reset.dmemSize ∧
    State.reset.dmemSize < (0xFFDF#64).toNat + (2#16).toNat + 32 := by decide

theorem witness_StvStoresAnImageOrFaults :
    ((busyWith 0 []).getX 1).toNat + (0#16).toNat = 0xFFF0 ∧ (busyWith 0 []).dmemSize < 0xFFF0 + 32 ∧
    ((busyWith 0 []).getX 3).toNat + (0xFFDC#16).toNat + 32 ≤ (busyWith 0 []).dmemSize := by decide

theorem witness_LdxLoadsAnImageOrFaults :
    ((busyWith 0 []).getX 1).toNat + (8#16).toNat + 8 ≤ (busyWith 0 []).dmemSize ∧
    (busyWith 0 []).dmemSize < ((busyWith 0 []).getX 1).toNat + (9#16).toNat + 8 := by decide

theorem witness_StxStoresAnImageOrFaults :
    ((busyWith 0 []).getX 3).toNat + (0xFFF4#16).toNat + 8 ≤ (busyWith 0 []).dmemSize ∧
    (busyWith 0 []).dmemSize < ((busyWith 0 []).getX 3).toNat + (0xFFF5#16).toNat + 8 := by decide

/-- A zero half and a non-zero half of ONE. -/
theorem witness_ClzCountsLeadingZeros : (val 1 0).toNat % 2 ^ 128 = 0 ∧ (val 1 0).toNat / 2 ^ 128 ≠ 0 := by decide

/-- hi(N) one below the divisor, a zero divisor, hi(N) equal to the divisor. -/
theorem witness_UdivDividesOrFaults :
    (val 6 5).toNat / 2 ^ 128 < (val 0 7).toNat % 2 ^ 128 ∧ (val 7 0).toNat % 2 ^ 128 = 0 ∧
    (val 0 7).toNat % 2 ^ 128 ≤ (val 7 0).toNat / 2 ^ 128 := by decide

/-- A zero divisor; a quotient of magnitude 2^255 (MIN / ONE); one of magnitude 2^255 - 1 (MAX / ONE). -/
theorem witness_DivTruncatesAndSaturates :
    (val 0 0).toInt = 0 ∧ (val 1 0).toInt ≠ 0 ∧
    maxNat < (((val (2 ^ 127) 0).toInt * 2 ^ 128).tdiv (val 1 0).toInt).natAbs ∧
    (((val (2 ^ 127 - 1) ones).toInt * 2 ^ 128).tdiv (val 1 0).toInt).natAbs ≤ maxNat := by decide

theorem witness_ModIsTheTruncatedRemainder :
    (val 0 0).toInt = 0 ∧ (val ones 0).toInt ≠ 0 ∧
    maxNat < (((val (2 ^ 127) 0).toInt * 2 ^ 128).tdiv (val ones 0).toInt).natAbs ∧
    (((val (2 ^ 127) 1).toInt * 2 ^ 128).tdiv (val ones 0).toInt).natAbs ≤ maxNat := by decide

/-- MIN, ZERO, SMALLEST and MAX. -/
theorem witness_SqrtGivesTheSeventhIterate :
    2 ^ 255 ≤ (val (2 ^ 127) 0).toNat ∧ (val 0 0).toNat = 0 ∧ 0 < (val 0 1).toNat ∧
    (val (2 ^ 127 - 1) ones).toNat < 2 ^ 255 := by decide

theorem witness_RsqrtGivesTheSeventhIterate :
    2 ^ 255 ≤ (val (2 ^ 127) 0).toNat ∧ (val 0 0).toNat = 0 ∧ 0 < (val 0 1).toNat ∧
    (val (2 ^ 127 - 1) ones).toNat < 2 ^ 255 := by decide

/-- V2 = ONE formats as "1.", 2 bytes and a NUL: at X1 = 0xFFF0 it fits, at 0xFFFD it ends at the end of DMEM, at 0xFFFE it
needs the byte at 0x10000, and X0 = 0 is capacity 0. -/
theorem witness_FmtAndFmtdWriteTheString :
    (Instr.fmt 5 2 1 3, wordR 0x60 5 2 1 3 0, fmtText (busyWith 0 []) 2) ∈
      [(Instr.fmt 5 2 1 3, wordR 0x60 5 2 1 3 0, fmtText (busyWith 0 []) 2),
       (Instr.fmtd 5 2 1 3, wordR 0x61 5 2 1 3 0, fmtdText (busyWith 0 []) 2)] ∧
    (fmtText (busyWith 0 []) 2).length = 2 ∧ (fmtdText (busyWith 0 []) 2).length = 2 ∧
    1 ≤ ((busyWith 0 []).getX 3).toNat ∧
    (((busyWith 0 []).setX 1 0xFFFD).getX 1).toNat + min 2 (((busyWith 0 []).getX 3).toNat - 1) + 1 ≤
      ((busyWith 0 []).setX 1 0xFFFD).dmemSize ∧
    ((busyWith 0 []).getX 0).toNat = 0 ∧
    ((busyWith 0 []).setX 1 0xFFFE).dmemSize <
      (((busyWith 0 []).setX 1 0xFFFE).getX 1).toNat + min 2 (((busyWith 0 []).getX 3).toNat - 1) + 1 := by
  refine ⟨List.mem_cons_self, by decide, by decide, by decide, by decide, by decide, by decide⟩

/-- "%+08.2f" at 0x200 of DMEM. -/
theorem witness_FmtparseReadsAFormatString :
    (∀ f ∈ [43#8, 48#8], f ∈ [32#8, 43#8, 48#8, 45#8, 35#8]) ∧ (∀ x ∈ [8], x ≤ 9) ∧ [8].head? ≠ some 0 ∧
    (∀ ds ∈ some [2], ∀ x ∈ ds, x ≤ 9) ∧ (∀ x, x ≤ 9 → asciiDigit x ≠ 102#8) ∧
    StringAt (start [] [(1, 0x200)] 0x200 [37, 43, 48, 56, 46, 50, 102])
      ((start [] [(1, 0x200)] 0x200 [37, 43, 48, 56, 46, 50, 102]).getX 1).toNat
      (formatText true [43#8, 48#8] [8] (some [2]) 102#8) := by
  unfold StringAt; decide

/-- "%%" at the end of DMEM: no flag, width or precision, so that every premise on the ending byte, the second '%', applies. -/
theorem witness_FmtparseReadsAFormatString_percent :
    (∀ x, x ≤ 9 → asciiDigit x ≠ 37#8) ∧ (37#8 : Byte) ≠ 46#8 ∧ (37#8 : Byte) ∉ [32#8, 43#8, 48#8, 45#8, 35#8] ∧
    StringAt (start [] [(1, 0xFFFE)] 0xFFFE [37, 37]) ((start [] [(1, 0xFFFE)] 0xFFFE [37, 37]).getX 1).toNat
      (formatText true [] [] none 37#8) := by
  unfold StringAt; decide

/-- "abc" and an empty string (a NUL) at 0x200: without '%', the first byte ends the parse. -/
theorem witness_FmtparseReadsAFormatString_plain :
    ∀ last ∈ [97#8, 0#8], (∀ x, x ≤ 9 → asciiDigit x ≠ last) ∧ last ≠ 46#8 ∧ last ∉ [32#8, 43#8, 48#8, 45#8, 35#8] ∧
    last ≠ 37#8 ∧ StringAt (start [] [(1, 0x200)] 0x200 [last.toNat]) ((start [] [(1, 0x200)] 0x200 [last.toNat]).getX 1).toNat
      (formatText false [] [] none last) := by
  unfold StringAt; decide

/-- A string inside DMEM, and one that starts at the end of DMEM. -/
theorem witness_FmtparseCompletesOrFaults :
    (∃ fr, State.reset.formatParse (State.reset.getX 1).toNat = .ok fr) ∧
    (∃ q, (State.reset.setX 1 0x10000).formatParse ((State.reset.setX 1 0x10000).getX 1).toNat = .error q) :=
  ⟨⟨_, rfl⟩, ⟨_, rfl⟩⟩

/-- " -0x1F,8" ended by 'G', with DPCHAR ',', at 0x300 of DMEM: a base 16 number with a fraction. -/
theorem witness_ParseReadsANumber :
    let s := { start [] [(1, 0x300)] 0x300 [32, 45, 48, 120, 49, 70, 44, 56, 71] with dpchar := 44 }
    let fs := some [(8, true)]
    (∀ c ∈ [32#8], c ∈ [0x20#8, 0x09#8, 0x0D#8, 0x0A#8, 0x0B#8]) ∧ [45#8] ∈ [[], [43#8], [45#8]] ∧
    ([48#8, 120#8], 16) ∈ [([], 10), ([48#8, 120#8], 16), ([48#8, 88#8], 16)] ∧
    (∀ x ∈ [(1, true), (15, true)], x.1 < 16) ∧ (∀ ds ∈ fs, ∀ x ∈ ds, x.1 < 16) ∧
    (∀ x : Nat × Bool, x.1 < 16 → hexByte x ≠ 71#8 ∧ (fs ≠ none → hexByte x ≠ s.dpchar)) ∧
    (fs = none → 71#8 ≠ s.dpchar) ∧
    (([45#8] : List Byte) = [] → ([48#8, 120#8] : List Byte) = [] → [(1, true), (15, true)] = [] →
      afterInteger s.dpchar 71 fs ∉ [0x20#8, 0x09#8, 0x0D#8, 0x0A#8, 0x0B#8, 43#8, 45#8]) ∧
    (([48#8, 120#8] : List Byte) = [] → [(1, true), (15, true)].map Prod.fst = [0] →
      afterInteger s.dpchar 71 fs ∉ [120#8, 88#8]) ∧
    StringAt s (s.getX 1).toNat (numberText s.dpchar 71 [32] [45] [48, 120] [(1, true), (15, true)] fs) := by
  intro s fs
  refine ⟨by decide, by decide, by decide, by decide, by decide, fun x hx => ?_, by decide, by simp, by simp, ?_⟩
  · have k : ∀ d : Fin 16, ∀ b : Bool, hexByte (d.1, b) ≠ 71#8 ∧ hexByte (d.1, b) ≠ 44#8 := by decide
    exact ⟨(k ⟨x.1, hx⟩ x.2).1, fun _ => (k ⟨x.1, hx⟩ x.2).2⟩
  · unfold StringAt; decide

/-- The same for base 10 without a sign or a fraction: "0" ended by 'y', with DPCHAR '5', a digit. -/
theorem witness_ParseReadsANumber_no_fraction :
    let s := { start [] [(1, 0x300)] 0x300 [48, 121] with dpchar := 53 }
    (∀ x ∈ [(0, false)], x.1 < 10) ∧
    (∀ x : Nat × Bool, x.1 < 10 → hexByte x ≠ 121#8 ∧
      ((none : Option (List (Nat × Bool))) ≠ none → hexByte x ≠ s.dpchar)) ∧ 121#8 ≠ s.dpchar ∧
    afterInteger s.dpchar 121 none ∉ [120#8, 88#8] ∧
    StringAt s (s.getX 1).toNat (numberText s.dpchar 121 [] [] [] [(0, false)] none) := by
  intro s
  refine ⟨by decide, fun x hx => ?_, by decide, by decide, ?_⟩
  · have k : ∀ d : Fin 10, ∀ b : Bool, hexByte (d.1, b) ≠ 121#8 := by decide
    exact ⟨k ⟨x.1, hx⟩ x.2, fun h => absurd rfl h⟩
  · unfold StringAt; decide

theorem witness_ParseCompletesOrFaults :
    (∃ v e, State.reset.parse (State.reset.getX 1).toNat State.reset.dpchar = .ok (v, e)) ∧
    (∃ q, (State.reset.setX 1 0x10000).parse ((State.reset.setX 1 0x10000).getX 1).toNat State.reset.dpchar = .error q) :=
  ⟨⟨_, _, rfl⟩, ⟨_, rfl⟩⟩

/-- Exponent and fraction of a NaN; 2^127 and -2^127 and the patterns beside them; magnitudes in units of 2^-1074. -/
theorem witness_FromfConvertsADouble :
    (0x7FF8000000000000 / 2 ^ 52 % 2048 = 2047 ∧ 0x7FF8000000000000 % 2 ^ 52 ≠ 0) ∧
    (0x47E0000000000000 / 2 ^ 52 % 2048 = 1150 ∧ 0x47E0000000000000 < 2 ^ 63 ∧
      2 ^ 1201 ≤ (2 ^ 52 + 0x47E0000000000000 % 2 ^ 52) * 2 ^ (1150 - 1)) ∧
    (0xC7E0000000000001 / 2 ^ 52 % 2048 = 1150 ∧ 2 ^ 63 ≤ 0xC7E0000000000001 ∧
      2 ^ 1201 < (2 ^ 52 + 0xC7E0000000000001 % 2 ^ 52) * 2 ^ (1150 - 1)) ∧
    (0x47DFFFFFFFFFFFFF / 2 ^ 52 % 2048 = 1149 ∧ 0x47DFFFFFFFFFFFFF < 2 ^ 63 ∧
      (2 ^ 52 + 0x47DFFFFFFFFFFFFF % 2 ^ 52) * 2 ^ (1149 - 1) < 2 ^ 1201) ∧
    (0xC7E0000000000000 / 2 ^ 52 % 2048 = 1150 ∧ 2 ^ 63 ≤ 0xC7E0000000000000 ∧
      (2 ^ 52 + 0xC7E0000000000000 % 2 ^ 52) * 2 ^ (1150 - 1) ≤ 2 ^ 1201) := by decide +kernel

/-- The halfway point past the largest finite pattern, the number below it, and the pattern of 1. -/
theorem witness_RneIsNearestTiesToEven :
    (2 ^ 54 - 1) * 2 ^ 2044 ≤ (2 ^ 54 - 1) * 2 ^ 2044 ∧
    (2 ^ 54 - 1) * 2 ^ 2044 - 1 < (2 ^ 54 - 1) * 2 ^ 2044 ∧ 0x3FF0000000000000 < 2047 * 2 ^ 52 := by norm_num

theorem witness_CsrrReadsEveryRegister :
    State.reset.faultOk ∧ State.reset.run ≠ .faulted ∧ (0x0B#8 : BitVec 8) ≤ 0xFF ∧
    (Csr.fmtprec, 5, (State.reset.fmtprec.toInt % 2 ^ 64).toNat) ∈
      [(Csr.cfg, 0, State.reset.dmemSize), (.status, 1, State.reset.status.toNat), (.dpchar, 2, State.reset.dpchar.toNat),
        (.fmtctl, 3, State.reset.fmtctl.toNat), (.fmtwidth, 4, State.reset.fmtwidth.toNat),
        (.fmtprec, 5, (State.reset.fmtprec.toInt % 2 ^ 64).toNat), (.fault, 8, State.reset.fault.toNat),
        (.fcmd, 9, State.reset.fcmd.toNat), (.faddr, 10, State.reset.faddr.toNat)] := by
  unfold State.faultOk; decide

theorem witness_CsrwFollowsTheWriteRules :
    (Csr.fmtprec, 5) ∈ [(Csr.status, 1), (.dpchar, 2), (.fmtctl, 3), (.fmtwidth, 4), (.fmtprec, 5)] ∧
    (6#8 : BitVec 8) ≤ 6 ∧ (6#8 : BitVec 8) ≤ 0xFF := by decide

end Sys2Proof.Tests
end

section
/-! PROOFS. What any command can do to the fault registers, the run state and the model's own fields: it keeps all of them, or
it takes the fault entry (spec/60_exceptions.md R302, R303). -/

namespace Sys2Proof.Machine

/-! Traps. -/

/-- The causes a decoded command can raise: every one but ILLEGAL_OPCODE (60_exceptions R300). -/
theorem Trap.code_mem (tr : Trap) (h : tr ≠ .illegalOpcode) : tr.code ∈ [2#8, 3#8, 4#8, 5#8] := by
  cases tr with
  | illegalOpcode => exact absurd rfl h
  | illegalField | memRange | divPrecond | fmtCapacity => simp [Trap.code]

/-- Only MEM_RANGE, code 3, reports an address (60_exceptions R302). -/
theorem Trap.faddr_eq_zero (tr : Trap) (h : tr.code ≠ 3) : tr.faddr = 0 := by
  cases tr with
  | memRange => exact absurd rfl h
  | illegalOpcode | illegalField | divPrecond | fmtCapacity => rfl

/-! Updates that are no fault entry. -/

/-- The fault registers, the run state, DMEM_SIZE and the model's own fields hold what they held. -/
def KeepsFault (s t : State) : Prop := SameFault s t ∧ SameModel s t

namespace KeepsFault

variable (s : State)

theorem refl : KeepsFault s s := by simp [KeepsFault, SameFault, SameModel]

theorem trans {s t u : State} (hst : KeepsFault s t) (htu : KeepsFault t u) : KeepsFault s u := by
  obtain ⟨⟨f1, f2, f3, f4⟩, m1, m2, m3, m4⟩ := hst
  obtain ⟨⟨g1, g2, g3, g4⟩, n1, n2, n3, n4⟩ := htu
  exact ⟨⟨g1.trans f1, g2.trans f2, g3.trans f3, g4.trans f4⟩, n1.trans m1, n2.trans m2, n3.trans m3, n4.trans m4⟩

theorem setV (d : VReg) (w : Value) : KeepsFault s (s.setV d w) := by
  simp [KeepsFault, SameFault, SameModel]

theorem setX (d : XReg) (w : Scalar) : KeepsFault s (s.setX d w) := by
  simp [KeepsFault, SameFault, SameModel]

theorem store (a : Nat) (bs : List Byte) : KeepsFault s (s.store a bs) := by
  simp [KeepsFault, SameFault, SameModel]

theorem setFlags (fs : List Flag) : KeepsFault s (s.setFlags fs) := by
  simp [KeepsFault, SameFault, SameModel]

theorem setRecord (fr : FormatRecord) : KeepsFault s (s.setRecord fr) := by
  simp [KeepsFault, SameFault, SameModel]

theorem csrWrite (c : Csr) (d : Scalar) : KeepsFault s (s.csrWrite c d) := by
  simp [KeepsFault, SameFault, SameModel]

end KeepsFault

/-! Answers of commands. -/

/-- The answer of a meaning of the command i in s: a next state with the fault registers as before, or the fault entry with a
cause other than ILLEGAL_OPCODE. -/
def CompletesOrTraps (i : Instr) (s : State) (r : Result) : Prop :=
  (∃ t, r = .next t ∧ KeepsFault s t) ∨ ∃ tr, tr ≠ .illegalOpcode ∧ r = trap i tr s

namespace CompletesOrTraps

variable {i : Instr} {s : State}

theorem next {t : State} (h : KeepsFault s t) : CompletesOrTraps i s (.next t) := .inl ⟨t, rfl, h⟩

theorem trap (tr : Trap) (h : tr ≠ .illegalOpcode) : CompletesOrTraps i s (trap i tr s) := .inr ⟨tr, h, rfl⟩

theorem rangeTrap (a : Nat) : CompletesOrTraps i s (Machine.trap i (s.rangeTrap a) s) := trap _ nofun

theorem setV (d : VReg) (w : Value) : CompletesOrTraps i s (.next (s.setV d w)) := next (.setV ..)

theorem setX (d : XReg) (w : Scalar) : CompletesOrTraps i s (.next (s.setX d w)) := next (.setX ..)

theorem setV_setFlags (d : VReg) (w : Value) (fs : List Flag) :
    CompletesOrTraps i s (.next ((s.setV d w).setFlags fs)) := next ((KeepsFault.setV ..).trans (.setFlags ..))

/-- A check that picks between two answers. -/
theorem ite {c : Prop} [Decidable c] {r q : Result} (hr : CompletesOrTraps i s r) (hq : CompletesOrTraps i s q) :
    CompletesOrTraps i s (if c then r else q) := by
  split
  · exact hr
  · exact hq

/-- FMT and FMTD (46_format R229): WriteBuf's two checks, or the string, its length and TRUNC. -/
theorem formatTo (d b c : XReg) (str : Runs) : CompletesOrTraps i s (formatTo i d b c str s) := by
  obtain ⟨-, h⟩ | ⟨-, -, h⟩ | ⟨-, -, h⟩ := formatTo_cases s i d b c str <;> rw [h]
  · exact trap _ nofun
  · exact rangeTrap _
  · exact next (((KeepsFault.store ..).trans (.setX ..)).trans (.setFlags ..))

/-- FMTPARSE (46_format R233): the record, or MEM_RANGE where the string runs off DMEM. -/
theorem execFmtparse (a : XReg) : CompletesOrTraps (.fmtparse a) s (execFmtparse a s) := by
  unfold Machine.execFmtparse
  split
  · exact rangeTrap _
  · exact next (.setRecord ..)

/-- PARSE (47_parse R258): the value and the end address, or MEM_RANGE where the number runs off DMEM. -/
theorem execParse (d : VReg) (a b : XReg) : CompletesOrTraps (.parse d a b) s (execParse d a b s) := by
  unfold Machine.execParse
  split
  · exact rangeTrap _
  · exact next ((KeepsFault.setV ..).trans (.setX ..))

end CompletesOrTraps

/-- Every command completes with the fault registers as before, or takes the fault entry (60_exceptions R302, R303). -/
theorem exec_completesOrTraps (i : Instr) (s : State) : CompletesOrTraps i s (exec i s) := by
  cases i with
  | nop => exact .next (.refl s)
  | movv | const | not | and | or | xor | shl | shr | sar | shli | shri | sari | add | sub | neg | abs | nabs | min | max
  | umul | mul | floor | ceil | round | fromint => exact .setV ..
  | lix | clz | isneg | cmp | ucmp | toint | tof | csrr => exact .setX ..
  | div | mod | sqrt | rsqrt | fromf => exact .setV_setFlags ..
  | ldv => exact .ite (.setV ..) (.rangeTrap _)
  | ldx => exact .ite (.setX ..) (.rangeTrap _)
  | stv | stx => exact .ite (.next (.store ..)) (.rangeTrap _)
  | udiv => exact .ite (.trap _ nofun) (.setV ..)
  | fmt | fmtd => exact .formatTo ..
  | fmtparse => exact .execFmtparse _
  | parse => exact .execParse ..
  | csrw => exact .ite (.next (.csrWrite ..)) (.trap _ nofun)

/-- Settles O22: a completing command keeps the fault registers, and a trap is the fault entry alone. -/
theorem commandsFaultPrecisely : Obligations.CommandsFaultPrecisely := by
  intro i s
  obtain ⟨t, ht, hkeep⟩ | ⟨tr, htr, he⟩ := exec_completesOrTraps i s
  · exact ⟨t, ht, .inl hkeep⟩
  · obtain ⟨t, ht, hfault⟩ := trap_faulted s i tr
    exact ⟨t, he.trans ht, .inr ⟨tr.code, tr.faddr, tr.code_mem htr, tr.faddr_eq_zero, hfault⟩⟩

end Sys2Proof.Machine
end

section
/-! PROOFS. How BUSY ends and how ISSUE is answered (spec/10_state.md R26, spec/60_exceptions.md R321, R322). -/

namespace Sys2Proof.Machine

variable (s : State)

/-! The branches of a step in BUSY, by what the host's list begins with. -/

/-- When the host's list says time elapses, the command runs with that entry taken (log 4). -/
theorem busyStep_of_elapse (w : Command) (h : s.host.head? = some .elapse) : busyStep w s = runCommand w s.dropTxn := by
  obtain ⟨rest, hh, -⟩ | ⟨rest, hh, -⟩ | ⟨v, rest, hh, -⟩ | ⟨rest, -, hstep⟩ | ⟨hwaits, -⟩ := busyStep_cases s w
  · simp [hh] at h
  · simp [hh] at h
  · simp [hh] at h
  · exact hstep
  · simp [State.hostWaits, h, HostTxn.waits] at hwaits

/-- When the host can only wait, the command runs and the host's list is left (log 4). -/
theorem busyStep_of_hostWaits (w : Command) (h : s.hostWaits = true) : busyStep w s = runCommand w s := by
  obtain ⟨rest, hh, -⟩ | ⟨rest, hh, -⟩ | ⟨v, rest, hh, -⟩ | ⟨rest, hh, -⟩ | ⟨-, hstep⟩ := busyStep_cases s w
  · simp [State.hostWaits, hh, HostTxn.waits] at h
  · simp [State.hostWaits, hh, HostTxn.waits] at h
  · simp [State.hostWaits, hh, HostTxn.waits] at h
  · simp [State.hostWaits, hh, HostTxn.waits] at h
  · exact hstep

/-- ISSUE in BUSY is answered and does nothing else (60_exceptions R321). -/
theorem busyStep_of_issue (w v : Command) (rest : List HostTxn) (h : s.host = .issue v :: rest) :
    busyStep w s = .next (s.dropTxn.reply .notAccepted) := by
  simp [busyStep, h]

/-- ISSUE in IDLE starts BUSY with its word (10_state R26). -/
theorem issue_of_idle (w : Command) (h : s.run = .idle) :
    s.issue w = { s with run := .busy w, replies := .accepted :: s.replies } := by
  simp [State.issue, h, State.reply]

/-- ISSUE outside IDLE does nothing but answer (60_exceptions R321). -/
theorem issue_of_ne_idle (w : Command) (h : s.run ≠ .idle) :
    s.issue w = { s with replies := .notAccepted :: s.replies } := by
  simp [State.issue, h, State.reply]

theorem RunState.busy_or_faulted_of_ne_idle (r : RunState) (h : r ≠ .idle) : (∃ w, r = .busy w) ∨ r = .faulted := by
  cases r with
  | idle => exact absurd rfl h
  | busy w => exact .inl ⟨w, rfl⟩
  | faulted => exact .inr rfl

/-! A word placed by `withFetchWord`. -/

/-- The word placed is the word itself, as a command has 32 bits. -/
theorem withFetchWord_toNat (w : Command) : s.withFetchWord 32 w.toNat = s.loadCommand w := by
  simp [State.withFetchWord, Nat.mod_eq_of_lt w.isLt]

/-- The step after a word is placed runs it from the state with a pending fault cleared (log 9). -/
theorem step_loadCommand (w : Command) : step (s.loadCommand w) = runCommand w s.clearFault := by
  rw [step_of_busy _ w rfl, busyStep_of_elapse _ w rfl]
  rfl

/-- Settles O6: each way BUSY ends leads to `runCommand`, which is exec of the decoded command. -/
theorem stepRunsTheDecodedCommand : Obligations.StepRunsTheDecodedCommand := by
  intro s w i hdec
  refine ⟨fun hrun helapse => ?_, fun hrun hwaits => ?_, ?_⟩
  · rw [step_of_busy s w hrun, busyStep_of_elapse s w helapse, runCommand_of_ok _ w i hdec]
    rfl
  · rw [step_of_busy s w hrun, busyStep_of_hostWaits s w hwaits, runCommand_of_ok s w i hdec]
    rfl
  · rw [withFetchWord_toNat, step_loadCommand, runCommand_of_ok _ w i hdec]
    rfl

/-- Settles O8, by the run state: outside BUSY the port serves ISSUE, in BUSY the step only answers it. -/
theorem issueIsAcceptedOnlyInIdle : Obligations.IssueIsAcceptedOnlyInIdle := by
  intro s w rest hhost
  refine ⟨fun hidle => ?_, fun hne => ?_⟩
  · rw [step_of_not_busy s (.inl hidle), portStep_cons s _ _ hhost]
    exact congrArg _ (issue_of_idle _ w hidle)
  · obtain ⟨v, hrun⟩ | hrun := s.run.busy_or_faulted_of_ne_idle hne
    · rw [step_of_busy s v hrun, busyStep_of_issue s v w rest hhost]
      simp [State.reply, State.dropTxn, hhost]
    · rw [step_of_not_busy s (.inr hrun), portStep_cons s _ _ hhost]
      exact congrArg _ (issue_of_ne_idle _ w hne)

end Sys2Proof.Machine
end

section
/-! PROOFS. What any command can do to STATUS, DPCHAR and the format control registers (spec/10_state.md R29 to R33). -/

namespace Sys2Proof.Machine

/-! The flags each command owns. -/

/-- The flags a command may set (10_state R29). -/
def ownFlags : Instr → List Flag
  | .div .. | .mod .. => [.dz, .ovf]
  | .sqrt .. | .rsqrt .. => [.inv]
  | .fromf .. => [.inv, .rng]
  | .fmt .. | .fmtd .. => [.trunc]
  | _ => []

/-- The STATUS bits f are no flag, or one of those given. -/
def AtMostOneOf (own : List Flag) (f : BitVec 5) : Prop := f = 0 ∨ ∃ g ∈ own, f = g.mask

theorem atMostOneOf_nil (own : List Flag) : AtMostOneOf own (flagBits []) := .inl rfl

theorem atMostOneOf_singleton {own : List Flag} {g : Flag} (h : g ∈ own) : AtMostOneOf own (flagBits [g]) :=
  .inr ⟨g, h, by simp⟩

/-- A quotient by a divisor other than 0: truncated, or saturated with OVF (43_muldiv R168). -/
theorem fxDiv_of_ne_zero (a b : Value) (h : b ≠ 0) :
    fxDiv a b =
      if (abs a).toNat * 2 ^ 128 / (abs b).toNat > 2 ^ 255 - 1 then (saturated (isNeg a != isNeg b), [.ovf])
      else (if isNeg a != isNeg b then neg (u256 ((abs a).toNat * 2 ^ 128 / (abs b).toNat))
        else u256 ((abs a).toNat * 2 ^ 128 / (abs b).toNat), []) := by
  rw [fxDiv, if_neg h]

/-- A quotient sets DZ for a zero divisor, OVF for an overflow, and nothing otherwise (43_muldiv R168). -/
theorem fxDiv_flags (a b : Value) : AtMostOneOf [.dz, .ovf] (flagBits (fxDiv a b).2) := by
  by_cases hb : b = 0
  · rw [fxDiv, if_pos hb]
    exact atMostOneOf_singleton (by simp)
  · rw [fxDiv_of_ne_zero a b hb]
    split
    · exact atMostOneOf_singleton (by simp)
    · exact atMostOneOf_nil _

/-- A remainder sets its quotient's flags (43_muldiv R171). -/
theorem fxMod_flags (a b : Value) : AtMostOneOf [.dz, .ovf] (flagBits (fxMod a b).2) := by
  unfold fxMod
  split
  · exact atMostOneOf_singleton (by simp)
  · exact fxDiv_flags a b

/-- A square root sets INV for a negative value alone (44_sqrt_rsqrt R190). -/
theorem fxSqrt_flags (x : Value) : AtMostOneOf [.inv] (flagBits (fxSqrt x).2) := by
  unfold fxSqrt
  split
  · exact atMostOneOf_singleton (by simp)
  · split <;> exact atMostOneOf_nil _

/-- A reciprocal square root sets INV for a non-positive value alone (44_sqrt_rsqrt R194). -/
theorem fxRsqrt_flags (x : Value) : AtMostOneOf [.inv] (flagBits (fxRsqrt x).2) := by
  unfold fxRsqrt
  split
  · exact atMostOneOf_singleton (by simp)
  · exact atMostOneOf_nil _

/-- A conversion from a double sets INV for a NaN, RNG out of range on either side, and nothing otherwise
(48_conversions R273). -/
theorem fromFloat_flags (x : Scalar) : AtMostOneOf [.inv, .rng] (flagBits (fromFloat x).2) := by
  unfold fromFloat
  split
  · exact atMostOneOf_singleton (by simp)
  split
  · exact atMostOneOf_singleton (by simp)
  split
  · exact atMostOneOf_singleton (by simp)
  · exact atMostOneOf_nil _

/-- `WriteBuf` sets TRUNC when the string does not fit (46_format R229). -/
theorem bufferFlags_flags (cap : Nat) (str : Runs) : AtMostOneOf [.trunc] (flagBits (bufferFlags cap str)) := by
  unfold bufferFlags
  split
  · exact atMostOneOf_singleton (by simp)
  · exact atMostOneOf_nil _

/-! Answers of commands. -/

/-- STATUS gained the flags f, and DPCHAR and the format control registers hold what they held. -/
def AddsFlags (f : BitVec 5) (s t : State) : Prop := t.status = s.status ||| f ∧ t.dpchar = s.dpchar ∧ SameFormat s t

/-- The answer is a next state that at most gained one of the flags given, and kept the other control registers that a
command can change. -/
def SetsOnly (own : List Flag) (s : State) (r : Result) : Prop :=
  ∃ f t, AtMostOneOf own f ∧ r = .next t ∧ AddsFlags f s t

namespace SetsOnly

variable {own : List Flag} {s : State}

/-- No flag is set. -/
theorem next {t : State} (h : AddsFlags 0 s t) : SetsOnly own s (.next t) := ⟨0, t, .inl rfl, rfl, h⟩

theorem refl : SetsOnly own s (.next s) := next (by simp [AddsFlags, SameFormat])

theorem setV (d : VReg) (w : Value) : SetsOnly own s (.next (s.setV d w)) := next (by simp [AddsFlags, SameFormat])

theorem setX (d : XReg) (w : Scalar) : SetsOnly own s (.next (s.setX d w)) := next (by simp [AddsFlags, SameFormat])

theorem store (a : Nat) (bs : List Byte) : SetsOnly own s (.next (s.store a bs)) :=
  next (by simp [AddsFlags, SameFormat])

/-- The fault entry writes none of these registers (60_exceptions R302). -/
theorem trap (i : Instr) (tr : Trap) : SetsOnly own s (trap i tr s) := next (by simp [AddsFlags, SameFormat])

theorem setV_setFlags (d : VReg) (w : Value) {fs : List Flag} (h : AtMostOneOf own (flagBits fs)) :
    SetsOnly own s (.next ((s.setV d w).setFlags fs)) := ⟨_, _, h, rfl, by simp [AddsFlags, SameFormat]⟩

/-- A check that picks between two answers. -/
theorem ite {c : Prop} [Decidable c] {r q : Result} (hr : SetsOnly own s r) (hq : SetsOnly own s q) :
    SetsOnly own s (if c then r else q) := by
  split
  · exact hr
  · exact hq

/-- FMT and FMTD own TRUNC (46_format R229). -/
theorem formatTo (i : Instr) (d b c : XReg) (str : Runs) : SetsOnly [.trunc] s (formatTo i d b c str s) := by
  obtain ⟨-, h⟩ | ⟨-, -, h⟩ | ⟨-, -, h⟩ := formatTo_cases s i d b c str <;> rw [h]
  · exact trap i _
  · exact trap i _
  · exact ⟨_, _, bufferFlags_flags (s.getX c).toNat str, rfl, by simp [AddsFlags, SameFormat]⟩

/-- PARSE sets no flag (47_parse R258). -/
theorem execParse (d : VReg) (a b : XReg) : SetsOnly own s (execParse d a b s) := by
  unfold Machine.execParse
  split
  · exact trap _ _
  · exact next (by simp [AddsFlags, SameFormat])

end SetsOnly

/-- Every command but CSRW and FMTPARSE keeps DPCHAR and the format control registers, and sets at most one flag, its own
(10_state R29 to R33). -/
theorem exec_setsOnly (i : Instr) (s : State) (hcsrw : ∀ c a, i ≠ .csrw c a) (hfmtparse : ∀ a, i ≠ .fmtparse a) :
    SetsOnly (ownFlags i) s (exec i s) := by
  cases i with
  | nop => exact .refl
  | movv | const | not | and | or | xor | shl | shr | sar | shli | shri | sari | add | sub | neg | abs | nabs | min | max
  | umul | mul | floor | ceil | round | fromint => exact .setV ..
  | lix | clz | isneg | cmp | ucmp | toint | tof | csrr => exact .setX ..
  | div => exact .setV_setFlags _ _ (fxDiv_flags ..)
  | mod => exact .setV_setFlags _ _ (fxMod_flags ..)
  | sqrt => exact .setV_setFlags _ _ (fxSqrt_flags _)
  | rsqrt => exact .setV_setFlags _ _ (fxRsqrt_flags _)
  | fromf => exact .setV_setFlags _ _ (fromFloat_flags _)
  | ldv => exact .ite (.setV ..) (.trap ..)
  | ldx => exact .ite (.setX ..) (.trap ..)
  | stv | stx => exact .ite (.store ..) (.trap ..)
  | udiv => exact .ite (.trap ..) (.setV ..)
  | fmt | fmtd => exact .formatTo ..
  | parse => exact .execParse ..
  | fmtparse a => exact absurd rfl (hfmtparse a)
  | csrw c a => exact absurd rfl (hcsrw c a)

/-- FMTPARSE keeps STATUS and DPCHAR, whether it completes or faults (46_format R233). -/
theorem exec_fmtparse_keeps (a : XReg) (s : State) :
    ∃ t, exec (.fmtparse a) s = .next t ∧ t.status = s.status ∧ t.dpchar = s.dpchar := by
  change ∃ t, execFmtparse a s = .next t ∧ _
  unfold execFmtparse
  split
  · exact ⟨_, rfl, by simp, by simp⟩
  · exact ⟨_, rfl, by simp, by simp⟩

/-- A write to a control register other than STATUS keeps STATUS (49_control R291). -/
theorem State.csrWrite_status_of_ne (s : State) (c : Csr) (d : Scalar) (h : c ≠ .status) :
    (s.csrWrite c d).status = s.status := by
  cases c with
  | status => exact absurd rfl h
  | cfg | dpchar | fmtctl | fmtwidth | fmtprec | fault | fcmd | faddr => rfl

/-- CSRW of a register other than STATUS keeps STATUS, whether it completes or faults. -/
theorem exec_csrw_status_of_ne (c : Csr) (a : XReg) (s : State) (h : c ≠ .status) :
    ∃ t, exec (.csrw c a) s = .next t ∧ t.status = s.status := by
  change ∃ t, execCsrw c a s = .next t ∧ _
  unfold execCsrw
  split
  · exact ⟨_, rfl, s.csrWrite_status_of_ne c _ h⟩
  · exact ⟨_, rfl, by simp⟩

/-- Every command but CSRW STATUS at most adds one of its own flags to STATUS (10_state R29). -/
theorem exec_status (i : Instr) (s : State) (h : ∀ a, i ≠ .csrw .status a) :
    ∃ f t, AtMostOneOf (ownFlags i) f ∧ exec i s = .next t ∧ t.status = s.status ||| f := by
  by_cases hcsrw : ∃ c a, i = .csrw c a
  · obtain ⟨c, a, rfl⟩ := hcsrw
    obtain ⟨t, ht, hstatus⟩ := exec_csrw_status_of_ne c a s (by rintro rfl; exact h a rfl)
    exact ⟨0, t, .inl rfl, ht, by simp [hstatus]⟩
  by_cases hfmtparse : ∃ a, i = .fmtparse a
  · obtain ⟨a, rfl⟩ := hfmtparse
    obtain ⟨t, ht, hstatus, -⟩ := exec_fmtparse_keeps a s
    exact ⟨0, t, .inl rfl, ht, by simp [hstatus]⟩
  push Not at hcsrw hfmtparse
  obtain ⟨f, t, hf, ht, hstatus, -⟩ := exec_setsOnly i s hcsrw hfmtparse
  exact ⟨f, t, hf, ht, hstatus⟩

/-- Settles O23: `exec_status`, with the flags of each command written out. -/
theorem flagsAreSticky : Obligations.FlagsAreSticky := by
  intro i s t hi ht
  obtain ⟨f, u, hf, hu, hstatus⟩ := exec_status i s hi
  obtain rfl : t = u := by simpa [ht] using hu
  refine ⟨f, hstatus, ?_⟩
  cases i <;> simpa [AtMostOneOf, ownFlags, Flag.mask] using hf

/-- Settles O25: FMTPARSE keeps DPCHAR, and every other command but CSRW keeps all four registers. -/
theorem formatRegistersChangeOnlyByCsrwAndFmtparse : Obligations.FormatRegistersChangeOnlyByCsrwAndFmtparse := by
  intro i s t ht hcsrw
  by_cases hfmtparse : ∃ a, i = .fmtparse a
  · obtain ⟨a, rfl⟩ := hfmtparse
    obtain ⟨u, hu, -, hdpchar⟩ := exec_fmtparse_keeps a s
    obtain rfl : t = u := by simpa [ht] using hu
    exact ⟨hdpchar, fun h => absurd rfl (h a)⟩
  · push Not at hfmtparse
    obtain ⟨f, u, -, hu, -, hdpchar, hformat⟩ := exec_setsOnly i s hcsrw hfmtparse
    obtain rfl : t = u := by simpa [ht] using hu
    exact ⟨hdpchar, fun _ => hformat⟩

end Sys2Proof.Machine
end

section
/-! PROOFS. DMEM_SIZE, which no command, no host transaction and no reset changes (spec/10_state.md R28), and the invariant
at power-on (spec/70_reset_and_hazards.md R341). -/

namespace Sys2Proof.Machine

variable (s : State)

/-! No CSRW of a read-only register decodes. -/

/-- CSRW decodes for a writable register alone (30_encoding R86). -/
theorem writable_of_decode_csrw (w : Command) (c : Csr) (a : XReg) (h : decode w = .ok (.csrw c a)) :
    c.writable = true := by
  obtain ⟨o, -, hfields⟩ := decode_eq_ok w _ h
  cases o with
  | csrw =>
    obtain ⟨-, ⟨-, hwritable⟩, -⟩ := by simpa [decodeFields, Option.filter_eq_some_iff] using hfields
    exact hwritable
  | _ => simp [decodeFields] at hfields

/-! DMEM_SIZE. -/

/-- A command keeps DMEM_SIZE: a completing one keeps the model's own fields, and the fault entry does not write them. -/
theorem exec_dmemSize (i : Instr) {t : State} (h : exec i s = .next t) : t.dmemSize = s.dmemSize := by
  obtain ⟨u, hu, -, hsize, -⟩ | ⟨tr, -, htrap⟩ := exec_completesOrTraps i s
  · cases h.symm.trans hu
    exact hsize
  · cases h.symm.trans htrap
    rfl

/-- A word run at the end of BUSY keeps DMEM_SIZE, whether it decodes or not. -/
theorem runCommand_dmemSize (w : Command) {t : State} (h : runCommand w s = .next t) : t.dmemSize = s.dmemSize := by
  unfold runCommand at h
  split at h
  · next i _ => exact exec_dmemSize s.endBusy i h
  · cases h
    rfl

/-- A command abandoned by RESET leaves DMEM_SIZE (70_reset_and_hazards R342). -/
@[simp] theorem State.abandon_dmemSize (w : Command) : (s.abandon w).dmemSize = s.dmemSize := by
  unfold State.abandon
  split
  · split <;> simp
  · simp

/-- No host transaction changes DMEM_SIZE: a write to CFG is refused (60_exceptions R323). -/
@[simp] theorem State.serve_dmemSize (x : HostTxn) : (s.serve x).dmemSize = s.dmemSize := by
  cases x with
  | issue w => simp only [State.serve, State.issue]; split <;> rfl
  | state | reset | elapse => rfl
  | readV i | readX i => simp only [State.serve, State.hostReadReg]; split <;> rfl
  | writeV i b | writeX i b => simp only [State.serve, State.hostWriteReg]; split <;> rfl
  | readCsr n => simp only [State.serve, State.hostReadCsr]; split <;> rfl
  | writeCsr n d =>
    simp only [State.serve, State.hostWriteCsr]
    split
    · split
      · rfl
      · split <;> simp
    · rfl
  | readMem a n => simp only [State.serve, State.hostReadMem]; split <;> rfl
  | writeMem a bs => simp only [State.serve, State.hostWriteMem]; split <;> rfl

theorem busyStep_dmemSize (w : Command) {t : State} (h : busyStep w s = .next t) : t.dmemSize = s.dmemSize := by
  obtain ⟨_, -, hb⟩ | ⟨_, -, hb⟩ | ⟨_, _, -, hb⟩ | ⟨_, -, hb⟩ | ⟨-, hb⟩ := busyStep_cases s w
  · cases h.symm.trans hb
    simp
  · cases h.symm.trans hb
    simp
  · cases h.symm.trans hb
    simp
  · exact runCommand_dmemSize s.dropTxn w (hb.symm.trans h)
  · exact runCommand_dmemSize s w (hb.symm.trans h)

theorem portStep_dmemSize {t : State} (h : portStep s = .next t) : t.dmemSize = s.dmemSize := by
  unfold portStep at h
  split at h <;> cases h
  · rfl
  · simp

/-- No step changes DMEM_SIZE (10_state R28). -/
theorem step_dmemSize {t : State} (h : step s = .next t) : t.dmemSize = s.dmemSize := by
  cases hrun : s.run with
  | busy w => exact busyStep_dmemSize s w ((step_of_busy s w hrun).symm.trans h)
  | idle => exact portStep_dmemSize s ((step_of_not_busy s (.inl hrun)).symm.trans h)
  | faulted => exact portStep_dmemSize s ((step_of_not_busy s (.inr hrun)).symm.trans h)

/-- CFG reads DMEM_SIZE mod 2^64 (10_state R28). -/
theorem csrRead_cfg : s.csrRead .cfg = BitVec.ofNat 64 s.dmemSize := rfl

/-- Settles O21: CFG is a reading of DMEM_SIZE, which every step keeps, and CFG is not writable. -/
theorem cfgNeverChanges : Obligations.CfgNeverChanges := by
  refine ⟨fun s => ?_, fun s hsize => ?_, fun w a hdec => ?_, fun s t hstep => ?_⟩
  · rw [csrRead_cfg, BitVec.toNat_ofNat]
  · rw [csrRead_cfg, hsize]
    rfl
  · exact absurd (writable_of_decode_csrw w .cfg a hdec) (by decide)
  · have hsize : t.dmemSize = s.dmemSize := step_dmemSize s hstep
    exact ⟨hsize, by rw [csrRead_cfg, csrRead_cfg, hsize]⟩

/-! Power-on. -/

/-- After power-on the invariant is that of DMEM: the control and fault registers have legal reset values (10_state R39). -/
theorem powerOn_inv (n : Nat) (m : Memory) (h : (State.powerOn n m).memOk) : (State.powerOn n m).Inv := by
  refine ⟨h, ?_, ?_⟩
  · show (0#5).extractLsb' 0 2 ≠ 3#2 ∧ -1 ≤ (-1#32).toInt
    decide
  · exact ⟨rfl, rfl, rfl⟩

/-- Settles O19; `State.reset` is the power-on state of an empty DMEM of 0x10000 bytes (logs 1, 2). -/
theorem invariantHoldsAtPowerOn : Obligations.InvariantHoldsAtPowerOn := by
  refine ⟨powerOn_inv _ _ ⟨by decide, by decide, rfl, by simp [State.powerOn]⟩, fun n m hpos hmax hwf hbelow => ?_⟩
  exact powerOn_inv n m ⟨hpos, hmax, hwf, hbelow⟩

end Sys2Proof.Machine
end

section
/-! PROOFS. What any command can do to DMEM: STV, STX, FMT and FMTD write the range `storedRange` names, and no other command
writes a byte (spec/20_memory.md R65, spec/46_format.md R229). -/

namespace Sys2Proof.Machine

open Sys2Proof.Statements

/-! Writing over a range. -/

/-- DMEM differs by bytes written over the whole of the range, (first address, count); with no range it is as it was. -/
def StoresIn (r : Option (Nat × Nat)) (s t : State) : Prop :=
  match r with
  | none => t.mem = s.mem
  | some (a, n) => ∃ bs : List Byte, bs.length = n ∧ t.mem = s.mem.writeBytes a bs

namespace StoresIn

variable {r : Option (Nat × Nat)} {s t : State}

theorem store (a : Nat) (bs : List Byte) : StoresIn (some (a, bs.length)) s (s.store a bs) := ⟨bs, rfl, rfl⟩

/-- With no range every byte reads as before. -/
theorem sameMem (h : StoresIn none s t) : SameMem s t := fun a => congrArg (Memory.read · a) h

/-- Outside the range every byte reads as before. -/
theorem sameMemOutside {a n : Nat} (h : StoresIn (some (a, n)) s t) : SameMemOutside a n s t := by
  obtain ⟨bs, rfl, hmem⟩ := h
  intro b hb
  rw [hmem, Memory.read_writeBytes_outside _ _ _ _ hb]

/-- A range that is there exactly when a write of n bytes at A passes its checks. -/
theorem sameMemUnlessWritten {ok : Prop} {A n : Nat} (h : StoresIn r s t)
    (hin : ok ∧ A + n ≤ s.dmemSize → r = some (A, n)) (hout : ¬ (ok ∧ A + n ≤ s.dmemSize) → r = none) :
    SameMemUnlessWritten ok A n s t := by
  refine ⟨fun hc => ?_, fun hc => ?_⟩
  · rw [hin hc] at h
    exact h.sameMemOutside
  · rw [hout hc] at h
    exact h.sameMem

end StoresIn

/-! The ranges commands write. -/

variable (s : State)

/-- An image is written when its range lies inside DMEM (20_memory R61). -/
theorem imageRange_eq_some (a n : Nat) (h : a + n ≤ s.dmemSize) : s.imageRange a n = some (a, n) := by
  simp [State.imageRange, h]

theorem imageRange_eq_none (a n : Nat) (h : ¬ a + n ≤ s.dmemSize) : s.imageRange a n = none := by
  simp [State.imageRange, h]

/-- A string is written when WriteBuf's checks pass (46_format R229). -/
theorem bufferRange_eq_some (b c : XReg) (str : Runs)
    (h : 1 ≤ (s.getX c).toNat ∧ (s.getX b).toNat + bufferLength (s.getX c).toNat str ≤ s.dmemSize) :
    s.bufferRange b c str = some ((s.getX b).toNat, bufferLength (s.getX c).toNat str) := by
  rw [State.bufferRange, if_pos ((bufferTrap_eq_none s _ _ str).2 h)]

theorem bufferRange_eq_none (b c : XReg) (str : Runs)
    (h : ¬ (1 ≤ (s.getX c).toNat ∧ (s.getX b).toNat + bufferLength (s.getX c).toNat str ≤ s.dmemSize)) :
    s.bufferRange b c str = none := by
  rw [State.bufferRange, if_neg (mt (bufferTrap_eq_none s _ _ str).1 h)]

/-- The record FMT reads, in the terms of the statements (10_state R34). -/
theorem formatRecord_eq_controlRecord : s.formatRecord = controlRecord s := by
  obtain ⟨hsign, hzero, halt, hleft, hwidth, hprec⟩ := formatRecord_fields s
  rw [controlRecord, ← hsign, ← hzero, ← halt, ← hleft, ← hwidth, ← hprec]

theorem fmtString_bytes (a : VReg) : (s.fmtString a).bytes = fmtText s a := by
  rw [State.fmtString, formatRecord_eq_controlRecord, fmtText]

theorem fmtdString_bytes (a : VReg) : (s.fmtdString a).bytes = fmtdText s a := rfl

theorem bufferLength_eq_writtenLength (cap : Nat) (str : Runs) : bufferLength cap str = writtenLength str.bytes cap := by
  simp [bufferLength, writtenLength]

/-- What STV and STX may change, in the terms of the statements. -/
theorem StoresIn.image {s t : State} {a n : Nat} (h : StoresIn (s.imageRange a n) s t) :
    SameMemUnlessWritten True a n s t :=
  h.sameMemUnlessWritten (fun hc => imageRange_eq_some s a n hc.2)
    (fun hc => imageRange_eq_none s a n fun hin => hc ⟨trivial, hin⟩)

/-- What FMT and FMTD may change, in the terms of the statements. -/
theorem StoresIn.buffer {s t : State} {b c : XReg} {str : Runs} {text : List Byte}
    (h : StoresIn (s.bufferRange b c str) s t) (htext : str.bytes = text) :
    SameMemUnlessWritten (1 ≤ (s.getX c).toNat) (s.getX b).toNat (writtenLength text (s.getX c).toNat) s t := by
  rw [← htext, ← bufferLength_eq_writtenLength]
  exact h.sameMemUnlessWritten (bufferRange_eq_some s b c str) (bufferRange_eq_none s b c str)

/-! Answers of commands. -/

/-- The answer is a next state with bytes written over the range, or over nothing. -/
def AnswersStoring (r : Option (Nat × Nat)) (s : State) (ans : Result) : Prop := ∃ t, ans = .next t ∧ StoresIn r s t

namespace AnswersStoring

variable {s : State}

theorem unchanged {t : State} (h : t.mem = s.mem) : AnswersStoring none s (.next t) := ⟨t, rfl, h⟩

theorem setV (d : VReg) (w : Value) : AnswersStoring none s (.next (s.setV d w)) := unchanged (by simp)

theorem setX (d : XReg) (w : Scalar) : AnswersStoring none s (.next (s.setX d w)) := unchanged (by simp)

theorem setV_setFlags (d : VReg) (w : Value) (fs : List Flag) :
    AnswersStoring none s (.next ((s.setV d w).setFlags fs)) := unchanged (by simp)

/-- The fault entry writes no byte (60_exceptions R302, R303). -/
theorem trap (i : Instr) (tr : Trap) : AnswersStoring none s (trap i tr s) := unchanged (by simp)

/-- A check that picks between two answers. -/
theorem ite {r : Option (Nat × Nat)} {c : Prop} [Decidable c] {p q : Result} (hp : AnswersStoring r s p)
    (hq : AnswersStoring r s q) : AnswersStoring r s (if c then p else q) := by
  split
  · exact hp
  · exact hq

/-- STV and STX (40_move_memory R106, R108): the image, or MEM_RANGE and no byte. -/
theorem storeImage (i : Instr) (tr : Trap) (a n : Nat) {bs : List Byte} (hlen : bs.length = n) :
    AnswersStoring (s.imageRange a n) s (if s.inRange a n then .next (s.store a bs) else Machine.trap i tr s) := by
  by_cases h : a + n ≤ s.dmemSize
  · rw [imageRange_eq_some s a n h, if_pos ((inRange_eq_true s a n).2 h)]
    exact ⟨_, rfl, bs, hlen, by simp⟩
  · rw [imageRange_eq_none s a n h, if_neg (mt (inRange_eq_true s a n).1 h)]
    exact trap i tr

/-- FMT and FMTD (46_format R229): the string with its NUL, or a fault and no byte. -/
theorem formatTo (i : Instr) (d b c : XReg) (str : Runs) :
    AnswersStoring (s.bufferRange b c str) s (formatTo i d b c str s) := by
  obtain ⟨hcap, h⟩ | ⟨-, hrange, h⟩ | ⟨hcap, hrange, h⟩ := formatTo_cases s i d b c str <;> rw [h]
  · rw [bufferRange_eq_none s b c str (by omega)]
    exact trap i _
  · rw [bufferRange_eq_none s b c str (by omega)]
    exact trap i _
  · rw [bufferRange_eq_some s b c str (by omega)]
    exact ⟨_, rfl, _, bufferBytes_length _ str, by simp⟩

theorem execFmtparse (a : XReg) : AnswersStoring none s (execFmtparse a s) := by
  unfold Machine.execFmtparse
  split
  · exact trap _ _
  · exact unchanged (by simp)

theorem execParse (d : VReg) (a b : XReg) : AnswersStoring none s (execParse d a b s) := by
  unfold Machine.execParse
  split
  · exact trap _ _
  · exact unchanged (by simp)

end AnswersStoring

/-- Every command writes bytes over its `storedRange`, and over nothing when it has none (20_memory R65). -/
theorem exec_answersStoring (i : Instr) : AnswersStoring (storedRange i s) s (exec i s) := by
  cases i with
  | nop => exact .unchanged rfl
  | movv | const | not | and | or | xor | shl | shr | sar | shli | shri | sari | add | sub | neg | abs | nabs | min | max
  | umul | mul | floor | ceil | round | fromint => exact .setV ..
  | lix | clz | isneg | cmp | ucmp | toint | tof | csrr => exact .setX ..
  | div | mod | sqrt | rsqrt | fromf => exact .setV_setFlags ..
  | ldv => exact .ite (.setV ..) (.trap ..)
  | ldx => exact .ite (.setX ..) (.trap ..)
  | stv d => exact .storeImage _ _ _ 32 (valueBytes_length (s.getV d))
  | stx d => exact .storeImage _ _ _ 8 (scalarBytes_length (s.getX d))
  | udiv => exact .ite (.trap ..) (.setV ..)
  | fmt | fmtd => exact .formatTo ..
  | fmtparse => exact .execFmtparse _
  | parse => exact .execParse ..
  | csrw => exact .ite (.unchanged (by simp)) (.trap ..)

theorem exec_storesIn (i : Instr) {t : State} (h : exec i s = .next t) : StoresIn (storedRange i s) s t := by
  obtain ⟨u, hu, hstores⟩ := exec_answersStoring s i
  cases h.symm.trans hu
  exact hstores

/-- Settles O24: the range of each storing command is there exactly when its checks pass, and the others have none. -/
theorem onlyStoringCommandsChangeDmem : Obligations.OnlyStoringCommandsChangeDmem := by
  intro i s t h
  have hstores : StoresIn (storedRange i s) s t := exec_storesIn s i h
  cases i with
  | stv | stx => exact hstores.image
  | fmt d a b c => exact hstores.buffer (fmtString_bytes s a)
  | fmtd d a b c => exact hstores.buffer (fmtdString_bytes s a)
  | _ => exact hstores.sameMem

end Sys2Proof.Machine
end

section
/-! PROOFS. The invariant at every step, in its three parts: DMEM inside its size in canonical form (spec/20_memory.md R60),
legal format registers (spec/10_state.md R31, R33) and consistent fault registers (spec/60_exceptions.md R302, R305). -/

namespace Sys2Proof.Machine

variable (s : State)

/-! DMEM. -/

theorem memOk_iff : s.memOk ↔
    1 ≤ s.dmemSize ∧ s.dmemSize ≤ 2 ^ 64 ∧ s.mem.wf = true ∧ s.mem.below s.dmemSize = true := by
  simp [State.memOk, Memory.below]

/-- Bytes written over a range inside DMEM keep its canonical form and its bound. -/
theorem StoresIn.memOk {r : Option (Nat × Nat)} {s t : State} (h : StoresIn r s t)
    (hrange : ∀ a n, r = some (a, n) → a + n ≤ s.dmemSize) (hsize : t.dmemSize = s.dmemSize) (hs : s.memOk) :
    t.memOk := by
  rw [memOk_iff] at hs ⊢
  obtain ⟨hpos, hmax, hwf, hbelow⟩ := hs
  rw [hsize]
  cases r with
  | none =>
    rw [show t.mem = s.mem from h]
    exact ⟨hpos, hmax, hwf, hbelow⟩
  | some p =>
    obtain ⟨bs, hlen, hmem⟩ := h
    have hin : p.1 + bs.length ≤ s.dmemSize := hlen ▸ hrange p.1 p.2 rfl
    rw [hmem]
    exact ⟨hpos, hmax, Memory.wf_writeBytes bs _ _ hwf, Memory.below_writeBytes _ bs _ _ hbelow hin⟩

theorem imageRange_inRange (a n : Nat) (p : Nat × Nat) (h : s.imageRange a n = some p) : p.1 + p.2 ≤ s.dmemSize := by
  by_cases hin : a + n ≤ s.dmemSize
  · cases (imageRange_eq_some s a n hin).symm.trans h
    exact hin
  · cases (imageRange_eq_none s a n hin).symm.trans h

theorem bufferRange_inRange (b c : XReg) (str : Runs) (p : Nat × Nat) (h : s.bufferRange b c str = some p) :
    p.1 + p.2 ≤ s.dmemSize := by
  by_cases hin : 1 ≤ (s.getX c).toNat ∧ (s.getX b).toNat + bufferLength (s.getX c).toNat str ≤ s.dmemSize
  · cases (bufferRange_eq_some s b c str hin).symm.trans h
    exact hin.2
  · cases (bufferRange_eq_none s b c str hin).symm.trans h

/-- The range a command writes lies inside DMEM (20_memory R61). -/
theorem storedRange_inRange (i : Instr) (a n : Nat) (h : storedRange i s = some (a, n)) : a + n ≤ s.dmemSize := by
  cases i with
  | stv | stx => exact imageRange_inRange s _ _ (a, n) h
  | fmt | fmtd => exact bufferRange_inRange s _ _ _ (a, n) h
  | _ => cases h

theorem exec_memOk (i : Instr) {t : State} (hs : s.memOk) (h : exec i s = .next t) : t.memOk :=
  (exec_storesIn s i h).memOk (storedRange_inRange s i) (exec_dmemSize s i h) hs

theorem store_memOk (a : Nat) (bs : List Byte) (hin : a + bs.length ≤ s.dmemSize) (hs : s.memOk) :
    (s.store a bs).memOk :=
  (StoresIn.store a bs).memOk (fun _ _ h => by cases h; exact hin) rfl hs

/-! The format control registers. -/

/-- A write to FMTCTL never stores SIGN = 3 (10_state R31). -/
theorem fmtctlStored_sign (d : Scalar) : (fmtctlStored d).extractLsb' 0 2 ≠ 3#2 := by
  have hmask : ∀ f : BitVec 5, (f &&& 0b11100#5).extractLsb' 0 2 ≠ 3#2 := by decide
  have hlow : (d.setWidth 5).extractLsb' 0 2 = d.extractLsb' 0 2 := by
    apply BitVec.eq_of_toNat_eq
    simp [BitVec.extractLsb'_toNat]
  unfold fmtctlStored
  split
  · exact hmask _
  · next h => rwa [hlow]

/-- A number up to 2^31 - 1 is held in FMTPREC as itself. -/
theorem toInt_ofInt_precision (p : Int) (hlow : -1 ≤ p) (hhigh : p ≤ 2 ^ 31 - 1) : (BitVec.ofInt 32 p).toInt = p :=
  BitVec.toInt_ofInt_eq_self (by decide) (by omega) (by omega)

/-- A write to FMTPREC stores at least -1 (10_state R33). -/
theorem fmtprecStored_ge (d : Scalar) : -1 ≤ (fmtprecStored d).toInt := by
  unfold fmtprecStored
  split
  · decide
  · rw [toInt_ofInt_precision _ (by omega) (by omega)]
    omega

/-- A write to a control register keeps the format registers legal (49_control R291). -/
theorem csrWrite_csrOk (c : Csr) (d : Scalar) (hs : s.csrOk) : (s.csrWrite c d).csrOk := by
  obtain ⟨hsign, hprec⟩ := hs
  cases c with
  | fmtctl => exact ⟨fmtctlStored_sign d, hprec⟩
  | fmtprec => exact ⟨hsign, fmtprecStored_ge d⟩
  | cfg | status | dpchar | fmtwidth | fault | fcmd | faddr => exact ⟨hsign, hprec⟩

/-- FMTCTL never gets SIGN = 3 from a record (46_format R233). -/
theorem recordFmtctl_sign (fr : FormatRecord) : (recordFmtctl fr).extractLsb' 0 2 ≠ 3#2 := by
  have hcode : fr.sign.code ≤ 2 := by cases fr.sign <;> decide
  intro h
  have := congrArg BitVec.toNat h
  simp [recordFmtctl, BitVec.extractLsb'_toNat] at this
  omega

/-- A flag character leaves the precision (46_format R232). -/
theorem flagChar_precision (fr fr' : FormatRecord) (c : Byte) (h : flagChar fr c = some fr') :
    fr'.precision = fr.precision := by
  unfold flagChar at h
  grind

/-- The flags of a format string leave the precision. -/
theorem scanFlags_precision (left : Nat) : ∀ (p : Nat) (fr : FormatRecord) (r : FormatRecord × Nat),
    s.scanFlags left p fr = .ok r → r.1.precision = fr.precision := by
  induction left with
  | zero => intro p fr r h; cases h
  | succ k ih =>
    intro p fr r h
    unfold State.scanFlags at h
    split at h
    · cases h
    · split at h
      · next fr' hfr => exact (ih _ _ r h).trans (flagChar_precision fr fr' _ hfr)
      · cases h; rfl

/-- A scanned number saturates at 2^31 - 1 (46_format R232). -/
theorem scanNumber_le (left : Nat) : ∀ (p n : Nat) (r : Nat × Nat), n ≤ 2 ^ 31 - 1 →
    s.scanNumber left p n = .ok r → r.1 ≤ 2 ^ 31 - 1 := by
  induction left with
  | zero => intro p n r _ h; cases h
  | succ k ih =>
    intro p n r hn h
    unfold State.scanNumber at h
    split at h
    · cases h
    · split at h
      · exact ih _ _ r (Nat.min_le_left _ _) h
      · cases h; exact hn

/-- The precision scanned is a number up to 2^31 - 1, or the one given. -/
theorem scanPrecision_precision (p : Nat) (fr fr' : FormatRecord) (h : s.scanPrecision p fr = .ok fr') :
    fr'.precision = fr.precision ∨ 0 ≤ fr'.precision ∧ fr'.precision ≤ 2 ^ 31 - 1 := by
  unfold State.scanPrecision at h
  split at h
  · cases h
  · split at h
    · split at h
      · cases h
      · next r hr =>
        cases h
        have := scanNumber_le s _ _ _ r (Nat.zero_le _) hr
        right
        simp only
        omega
    · cases h
      exact .inl rfl

/-- A format string's precision is one FMTPREC holds: -1 when the string has none (46_format R232). -/
theorem formatParse_precision (a : Nat) (fr : FormatRecord) (h : s.formatParse a = .ok fr) :
    -1 ≤ fr.precision ∧ fr.precision ≤ 2 ^ 31 - 1 := by
  unfold State.formatParse at h
  split at h
  · cases h
  split at h
  · cases h
  · next fp hflags =>
    have hdefault : fp.1.precision = -1 := scanFlags_precision s _ _ _ fp hflags
    split at h
    · cases h
    · obtain hsame | hscanned := scanPrecision_precision s _ _ fr h
      · have : fr.precision = -1 := hsame.trans hdefault
        omega
      · omega

/-- FMTPARSE leaves the format registers legal (46_format R233). -/
theorem execFmtparse_csrOk (a : XReg) {t : State} (hs : s.csrOk) (h : execFmtparse a s = .next t) : t.csrOk := by
  unfold execFmtparse at h
  split at h
  · cases h
    exact hs
  · next fr hfr =>
    cases h
    obtain ⟨hlow, hhigh⟩ := formatParse_precision s _ fr hfr
    refine ⟨recordFmtctl_sign fr, ?_⟩
    rw [State.setRecord_fmtprec, toInt_ofInt_precision _ hlow hhigh]
    exact hlow

theorem execCsrw_csrOk (c : Csr) (a : XReg) {t : State} (hs : s.csrOk) (h : execCsrw c a s = .next t) : t.csrOk := by
  unfold execCsrw at h
  split at h <;> cases h
  · exact csrWrite_csrOk s c _ hs
  · exact hs

/-- Every command keeps the format registers legal: only CSRW and FMTPARSE write them. -/
theorem exec_csrOk (i : Instr) {t : State} (hs : s.csrOk) (h : exec i s = .next t) : t.csrOk := by
  by_cases hcsrw : ∃ c a, i = .csrw c a
  · obtain ⟨c, a, rfl⟩ := hcsrw
    exact execCsrw_csrOk s c a hs h
  by_cases hfmtparse : ∃ a, i = .fmtparse a
  · obtain ⟨a, rfl⟩ := hfmtparse
    exact execFmtparse_csrOk s a hs h
  push Not at hcsrw hfmtparse
  obtain ⟨-, hformat⟩ := formatRegistersChangeOnlyByCsrwAndFmtparse i s t h hcsrw
  obtain ⟨hfmtctl, -, hfmtprec⟩ := hformat hfmtparse
  rwa [State.csrOk, hfmtctl, hfmtprec]

/-! The fault registers. -/

/-- Outside FAULTED the invariant of the fault registers is that nothing is recorded (10_state R35). -/
theorem faultOk_of_ne_faulted (h : s.run ≠ .faulted) : s.faultOk ↔ s.fault = 0 ∧ s.fcmd = 0 ∧ s.faddr = 0 := by
  rw [State.faultOk, if_neg h]

theorem KeepsFault.faultOk {s t : State} (h : KeepsFault s t) (hs : s.faultOk) : t.faultOk := by
  obtain ⟨⟨hfault, hfcmd, hfaddr, hrun⟩, -⟩ := h
  rwa [State.faultOk, hfault, hfcmd, hfaddr, hrun]

/-- Fault entry records a cause of 60_exceptions R300, with an address for MEM_RANGE alone (R302). -/
theorem raise_faultOk (w : Command) (tr : Trap) : (s.raise w tr).faultOk := by
  rw [State.faultOk, if_pos (State.raise_run s w tr)]
  refine ⟨?_, tr.faddr_eq_zero⟩
  cases tr <;> simp [Trap.code]

/-- The host's clearing leaves nothing recorded and no FAULTED state (60_exceptions R305). -/
theorem clearFault_faultOk : s.clearFault.faultOk := by
  rw [faultOk_of_ne_faulted]
  · exact ⟨rfl, rfl, rfl⟩
  · rw [State.clearFault_run]
    split
    · nofun
    · assumption

theorem exec_faultOk (i : Instr) {t : State} (hs : s.faultOk) (h : exec i s = .next t) : t.faultOk := by
  obtain ⟨u, hu, hkeep⟩ | ⟨tr, -, htrap⟩ := exec_completesOrTraps i s
  · cases h.symm.trans hu
    exact hkeep.faultOk hs
  · cases h.symm.trans htrap
    exact raise_faultOk s _ tr

/-! The invariant. -/

@[simp] theorem reply_inv (ans : Reply) : (s.reply ans).Inv ↔ s.Inv := .rfl

@[simp] theorem dropTxn_inv : s.dropTxn.Inv ↔ s.Inv := .rfl

@[simp] theorem setV_inv (d : VReg) (w : Value) : (s.setV d w).Inv ↔ s.Inv := .rfl

@[simp] theorem setX_inv (d : XReg) (w : Scalar) : (s.setX d w).Inv ↔ s.Inv := .rfl

/-- Every command keeps the invariant. -/
theorem exec_inv (i : Instr) {t : State} (hs : s.Inv) (h : exec i s = .next t) : t.Inv := by
  obtain ⟨hmem, hcsr, hfault⟩ := hs
  exact ⟨exec_memOk s i hmem h, exec_csrOk s i hcsr h, exec_faultOk s i hfault h⟩

theorem raise_inv (w : Command) (tr : Trap) (hs : s.Inv) : (s.raise w tr).Inv := by
  obtain ⟨hmem, hcsr, -⟩ := hs
  exact ⟨hmem, hcsr, raise_faultOk s w tr⟩

theorem clearFault_inv (hs : s.Inv) : s.clearFault.Inv := by
  obtain ⟨hmem, hcsr, -⟩ := hs
  exact ⟨hmem, hcsr, clearFault_faultOk s⟩

theorem csrWrite_inv (c : Csr) (d : Scalar) (hs : s.Inv) : (s.csrWrite c d).Inv := by
  obtain ⟨hmem, hcsr, hfault⟩ := hs
  refine ⟨?_, csrWrite_csrOk s c d hcsr, (KeepsFault.csrWrite s c d).faultOk hfault⟩
  simpa [State.memOk] using hmem

theorem store_inv (a : Nat) (bs : List Byte) (hin : a + bs.length ≤ s.dmemSize) (hs : s.Inv) : (s.store a bs).Inv := by
  obtain ⟨hmem, hcsr, hfault⟩ := hs
  exact ⟨store_memOk s a bs hin hmem, hcsr, hfault⟩

/-- RESET asks nothing of the registers it overwrites (70_reset_and_hazards R340). -/
theorem applyReset_inv (hs : s.memOk) : s.applyReset.Inv := powerOn_inv s.dmemSize s.mem hs

/-- The run state may change between IDLE and BUSY: nothing is recorded in either (10_state R26, R35). -/
theorem setRun_inv (r : RunState) (hrun : s.run ≠ .faulted) (hr : r ≠ .faulted) (hs : s.Inv) :
    State.Inv { s with run := r } := by
  obtain ⟨hmem, hcsr, hfault⟩ := hs
  refine ⟨hmem, hcsr, (faultOk_of_ne_faulted _ hr).2 ?_⟩
  exact (faultOk_of_ne_faulted s hrun).1 hfault

/-- The end of BUSY keeps the invariant, whether the word is a command or not. -/
theorem runCommand_inv (w : Command) {t : State} (hrun : s.run ≠ .faulted) (hs : s.Inv)
    (h : runCommand w s = .next t) : t.Inv := by
  have hidle : s.endBusy.Inv := setRun_inv s .idle hrun nofun hs
  unfold runCommand at h
  split at h
  · next i _ => exact exec_inv s.endBusy i hidle h
  · cases h
    exact raise_inv _ w _ hidle

/-- RESET during BUSY: the free bytes stand inside the range the command would have written (70_reset_and_hazards R342). -/
theorem abandon_inv (w : Command) (hs : s.memOk) : (s.abandon w).Inv := by
  unfold State.abandon
  split
  · next i _ =>
    split
    · next p hp =>
      have hin : p.1 + p.2 ≤ s.dmemSize := storedRange_inRange s i p.1 p.2 hp
      have hstores : StoresIn (some p) s (s.scramble p.1 p.2) := ⟨_, freeBytes_length p.2 s.freeIndex, rfl⟩
      exact applyReset_inv _ (hstores.memOk (fun _ _ h => by cases h; exact hin) rfl hs)
    · exact applyReset_inv s hs
  · exact applyReset_inv s hs

/-- ISSUE enters BUSY from IDLE alone (60_exceptions R321). -/
theorem issue_inv (w : Command) (hs : s.Inv) : (s.issue w).Inv := by
  unfold State.issue
  split
  · next hidle => exact (reply_inv _ _).2 (setRun_inv s _ (by simp [hidle]) nofun hs)
  · exact hs

/-- WRITE_CSR clears a fault or follows the write rule of CSRW (60_exceptions R305, R321). -/
theorem hostWriteCsr_inv (n : BitVec 8) (d : Scalar) (hs : s.Inv) : (s.hostWriteCsr n d).Inv := by
  unfold State.hostWriteCsr
  split
  · next c _ =>
    split
    · exact (reply_inv _ _).2 (clearFault_inv s hs)
    · split
      · exact (reply_inv _ _).2 (csrWrite_inv s c d hs)
      · exact hs
  · exact hs

/-- WRITE_MEM is refused outside DMEM (60_exceptions R321). -/
theorem hostWriteMem_inv (a : Nat) (bs : List Byte) (hs : s.Inv) : (s.hostWriteMem a bs).Inv := by
  unfold State.hostWriteMem
  split
  · next h =>
    obtain ⟨-, hin⟩ := h
    exact (reply_inv _ _).2 (store_inv s a bs ((inRange_eq_true s a _).1 hin) hs)
  · exact hs

/-- Every host transaction outside BUSY keeps the invariant (60_exceptions R321). -/
theorem serve_inv (x : HostTxn) (hs : s.Inv) : (s.serve x).Inv := by
  cases x with
  | issue w => exact issue_inv s w hs
  | state | elapse => exact hs
  | readV i | readX i => simp only [State.serve, State.hostReadReg]; split <;> simpa
  | writeV i b | writeX i b => simp only [State.serve, State.hostWriteReg]; split <;> simpa
  | readCsr n => simp only [State.serve, State.hostReadCsr]; split <;> simpa
  | writeCsr n d => exact hostWriteCsr_inv s n d hs
  | readMem a n => simp only [State.serve, State.hostReadMem]; split <;> simpa
  | writeMem a bs => exact hostWriteMem_inv s a bs hs
  | reset => exact (reply_inv _ _).2 (applyReset_inv s hs.1)

theorem busyStep_inv (w : Command) {t : State} (hrun : s.run = .busy w) (hs : s.Inv) (h : busyStep w s = .next t) :
    t.Inv := by
  have hne : s.run ≠ .faulted := by simp [hrun]
  obtain ⟨_, -, hb⟩ | ⟨_, -, hb⟩ | ⟨_, _, -, hb⟩ | ⟨_, -, hb⟩ | ⟨-, hb⟩ := busyStep_cases s w
  · cases h.symm.trans hb
    exact (reply_inv _ _).2 (abandon_inv s.dropTxn w hs.1)
  · cases h.symm.trans hb
    exact hs
  · cases h.symm.trans hb
    exact hs
  · exact runCommand_inv s.dropTxn w hne hs (hb.symm.trans h)
  · exact runCommand_inv s w hne hs (hb.symm.trans h)

theorem portStep_inv {t : State} (hs : s.Inv) (h : portStep s = .next t) : t.Inv := by
  unfold portStep at h
  split at h <;> cases h
  · exact hs
  · exact serve_inv s.dropTxn _ hs

/-- Settles O20, by the run state: in BUSY a command runs, is abandoned or goes on; outside BUSY the port serves the host. -/
theorem everyStepKeepsTheInvariant : Obligations.EveryStepKeepsTheInvariant := by
  intro s t hs h
  cases hrun : s.run with
  | busy w => exact busyStep_inv s w hrun hs ((step_of_busy s w hrun).symm.trans h)
  | idle => exact portStep_inv s hs ((step_of_not_busy s (.inl hrun)).symm.trans h)
  | faulted => exact portStep_inv s hs ((step_of_not_busy s (.inr hrun)).symm.trans h)

end Sys2Proof.Machine
end

section
/-! PROOFS. Decoder and encoder undo each other (spec/30_encoding.md R84 to R86, R88), which opcode bytes are undefined (R87),
and the decoder against the match and mask columns of spec/opcode_table.json (R85, R86). -/

namespace Sys2Proof

open Machine Statements

/-! The round trip, through the fields of a word whose opcode is known. -/

/-- The fields of a well-formed command's word read as the command. -/
theorem decodeFields_encode (i : Instr) (h : i.wellFormed = true) : decodeFields i.opcode (encode i) = some i := by
  cases i with
  | csrw c a =>
    have hwritable : c.writable = true := h
    simp [encode, decodeFields, Instr.opcode, hwritable]
  | _ => simp [encode, decodeFields, Instr.opcode]

theorem decode_encode (i : Instr) (h : i.wellFormed = true) : decode (encode i) = .ok i := by
  rw [decode_of_opcode _ _ (fieldOp_encode i), decodeFields_encode i h]

/-- A word whose fields read as a command is that command's: a format R or M word of its own fields, in which the field checks
set the unused ones to 0 and each selector is the one its name stands for. -/
theorem encode_of_decodeFields (o : Opcode) (w : Command) (i : Instr) (hop : fieldOp w = o.code)
    (h : decodeFields o w = some i) : encode i = w ∧ i.wellFormed = true := by
  have hR := formatR_fields o w hop
  have hM := formatM_fields o w hop
  cases o <;>
    simp only [decodeFields, Option.ite_none_right_eq_some, Option.map_eq_some_iff, Option.filter_eq_some_iff,
      Option.some.injEq] at h
  case ldv | stv | ldx | stx =>
    subst h
    exact ⟨hM, rfl⟩
  case lix =>
    obtain ⟨hzero, rfl⟩ := h
    simpa [encode, Instr.wellFormed, hzero] using hM
  case const =>
    obtain ⟨hzero, k, hk, rfl⟩ := h
    simpa [encode, Instr.wellFormed, hzero, ConstName.k_of_ofK _ _ hk] using hR
  case clz | udiv =>
    obtain ⟨hzero, k, hk, rfl⟩ := h
    simpa [encode, Instr.wellFormed, hzero, Half.sel_of_ofSel _ _ hk] using hR
  case umul =>
    obtain ⟨hzero, k, hk, rfl⟩ := h
    simpa [encode, Instr.wellFormed, hzero, umulSel_of_umulHalves _ _ hk] using hR
  case csrr =>
    obtain ⟨hzero, c, hc, rfl⟩ := h
    simpa [encode, Instr.wellFormed, hzero, Csr.number_of_ofNumber _ _ hc] using hR
  case csrw =>
    obtain ⟨hzero, c, ⟨hc, hwritable⟩, rfl⟩ := h
    simpa [encode, Instr.wellFormed, hzero, Csr.number_of_ofNumber _ _ hc, hwritable] using hR
  all_goals
    obtain ⟨hzero, rfl⟩ := h
    simpa [encode, Instr.wellFormed, hzero] using hR

theorem encode_of_decode (w : Command) (i : Instr) (h : decode w = .ok i) : encode i = w ∧ i.wellFormed = true := by
  obtain ⟨o, hop, hfields⟩ := decode_eq_ok w i h
  exact encode_of_decodeFields o w i hop hfields

/-- The commands a word encodes are what it decodes to, so there is at most one. -/
theorem wellFormed_and_encode_eq_iff (w : Command) (i : Instr) :
    i.wellFormed = true ∧ encode i = w ↔ decode w = .ok i := by
  constructor
  · rintro ⟨hwf, rfl⟩
    exact decode_encode i hwf
  · exact fun h => (encode_of_decode w i h).symm

/-- Settles O1: the encoder writes the opcode byte and the fields that the decoder reads back. -/
theorem decodeOfEncodeIsTheCommand : Obligations.DecodeOfEncodeIsTheCommand := decode_encode

/-- Settles O2, by the opcode of the word. -/
theorem decodedWordIsTheCommandsEncoding : Obligations.DecodedWordIsTheCommandsEncoding := encode_of_decode

/-! Undefined opcodes. -/

/-- The bytes that stand for no opcode are those of R87's list. -/
theorem Opcode.ofCode_eq_none_iff : ∀ c : BitVec 8, Opcode.ofCode c = none ↔ UndefinedOpcode c.toNat := by
  unfold UndefinedOpcode
  decide

theorem toNat_fieldOp (w : Command) : (fieldOp w).toNat = w.toNat / 2 ^ 24 := by
  simp only [fieldOp, BitVec.extractLsb'_toNat]
  omega

theorem toNat_fieldImm8 (w : Command) : (fieldImm8 w).toNat = w.toNat % 2 ^ 8 := by
  simp [fieldImm8, BitVec.extractLsb'_toNat]

/-- The decoder rejects a word for its opcode before it looks at a field (30_encoding R87). -/
theorem decode_eq_error_opcode_iff_ofCode (w : Command) :
    decode w = .error .opcode ↔ Opcode.ofCode (fieldOp w) = none := by
  cases hop : Opcode.ofCode (fieldOp w) with
  | none => simp [decode, hop]
  | some o =>
    rw [decode_of_opcode w o (Opcode.code_of_ofCode _ _ hop).symm]
    cases decodeFields o w <;> simp

theorem decode_eq_error_opcode_iff (w : Command) :
    decode w = .error .opcode ↔ UndefinedOpcode (w.toNat / 2 ^ 24) := by
  rw [decode_eq_error_opcode_iff_ofCode, Opcode.ofCode_eq_none_iff, toNat_fieldOp]

/-- No decode fault reports an address (60_exceptions R302). -/
theorem faddr_illegalTrap (e : IllegalWord) : (illegalTrap e).faddr = 0 := by
  cases e <;> rfl

/-- Settles O3: a word encodes what it decodes to, and one that does not decode takes the fault of its check. -/
theorem undefinedOpcodesRaiseIllegalOpcode : Obligations.UndefinedOpcodesRaiseIllegalOpcode := by
  intro w
  refine ⟨decode_eq_error_opcode_iff w, fun hundef s => ?_, ?_⟩
  · exact runCommand_of_error s w .opcode ((decode_eq_error_opcode_iff w).2 hundef)
  · simp only [wellFormed_and_encode_eq_iff]
    cases hdec : decode w with
    | ok i => exact .inl ⟨i, rfl, fun j hj => (Except.ok.inj hj).symm⟩
    | error e =>
      refine .inr ⟨nofun, fun s => ?_⟩
      obtain ⟨t, hrun, hfault⟩ := runCommand_of_error s w e hdec
      exact ⟨t, _, hrun, faddr_illegalTrap e ▸ hfault⟩

/-! The opcode table. A row's mask is read field by field: which bits of d, a, b, c and imm8 must be 0 for an opcode. -/

/-- The bits of w[23:20], w[19:16], w[15:12], w[11:8] and w[7:0] that must be 0 under an opcode, as the mask column of
spec/opcode_table.json has them. -/
def Opcode.zeroBits : Opcode → BitVec 4 × BitVec 4 × BitVec 4 × BitVec 4 × BitVec 8
  | .nop => (0xF, 0xF, 0xF, 0xF, 0xFF)
  | .const => (0, 0xF, 0xF, 0xF, 0xF8)
  | .lix => (0, 0xF, 0, 0, 0)
  | .ldv | .stv | .ldx | .stx => (0, 0, 0, 0, 0)
  | .shli | .shri | .sari => (0, 0, 0xF, 0xF, 0)
  | .clz => (0, 0, 0xF, 0xF, 0xFE)
  | .umul => (0, 0, 0, 0xF, 0xFC)
  | .udiv => (0, 0, 0, 0xF, 0xFE)
  | .fmt | .fmtd => (0, 0, 0, 0, 0xFF)
  | .fmtparse => (0xF, 0, 0xF, 0xF, 0xFF)
  | .csrr => (0, 0xF, 0xF, 0xF, 0)
  | .csrw => (0xF, 0, 0xF, 0xF, 0)
  | .and | .or | .xor | .shl | .shr | .sar | .add | .sub | .cmp | .ucmp | .min | .max | .mul | .div | .mod | .parse =>
    (0, 0, 0, 0xF, 0xFF)
  | .movv | .not | .neg | .abs | .nabs | .isneg | .sqrt | .rsqrt | .floor | .ceil | .round | .fromint | .toint | .fromf
  | .tof => (0, 0, 0xF, 0xF, 0xFF)

/-- The match and mask columns of an opcode's row. -/
def Opcode.row (o : Opcode) : BitVec 32 × BitVec 32 :=
  let (d, a, b, c, imm8) := o.zeroBits
  (o.code ++ 0#4 ++ 0#4 ++ 0#4 ++ 0#4 ++ 0#8, 0xFF#8 ++ d ++ a ++ b ++ c ++ imm8)

/-- The table has one row for each opcode. -/
theorem tableRows_eq_map_row : tableRows = Opcode.all.map Opcode.row := by decide

theorem Opcode.mem_all (o : Opcode) : o ∈ Opcode.all := by cases o <;> decide

/-- The mask check of an opcode's row on the operand fields of a word. -/
def Opcode.FieldsZero (o : Opcode) (w : Command) : Prop :=
  let (d, a, b, c, imm8) := o.zeroBits
  fieldD w &&& d = 0 ∧ fieldA w &&& a = 0 ∧ fieldB w &&& b = 0 ∧ fieldC w &&& c = 0 ∧ fieldImm8 w &&& imm8 = 0

theorem Opcode.matches_row_iff (o : Opcode) (w : Command) :
    w &&& o.row.2 = o.row.1 ↔ fieldOp w = o.code ∧ o.FieldsZero w := and_mask_eq_iff ..

/-- A row that matches a word is the row of the word's own opcode: every mask holds the whole opcode byte. -/
theorem exists_tableRow_iff (w : Command) :
    (∃ r ∈ tableRows, w &&& r.2 = r.1) ↔ ∃ o : Opcode, fieldOp w = o.code ∧ o.FieldsZero w := by
  simp [tableRows_eq_map_row, Opcode.mem_all, Opcode.matches_row_iff]

/-- The check of 30_encoding R86 on the selector of an opcode that its mask does not say. -/
def Opcode.SelectorOk (o : Opcode) (n : Nat) : Prop :=
  match o with
  | .const => n ≤ 4
  | .csrr => n ≤ 5 ∨ (8 ≤ n ∧ n ≤ 10)
  | .csrw => 1 ≤ n ∧ n ≤ 5
  | _ => True

theorem selectorOk_iff (o : Opcode) (w : Command) (hop : fieldOp w = o.code) :
    selectorOk w ↔ o.SelectorOk (fieldImm8 w).toNat := by
  simp only [selectorOk, ← toNat_fieldOp, ← toNat_fieldImm8, hop]
  cases o <;> simp [Opcode.code, Opcode.SelectorOk]

/-! The selectors, over all their 256 values. -/

theorem ConstName.isSome_ofK_iff : ∀ n : BitVec 8, (ConstName.ofK n).isSome = true ↔ n &&& 0xF8 = 0 ∧ n.toNat ≤ 4 := by
  decide

theorem Half.isSome_ofSel_iff : ∀ n : BitVec 8, (Half.ofSel n).isSome = true ↔ n &&& 0xFE = 0 := by
  decide

theorem isSome_umulHalves_iff : ∀ n : BitVec 8, (umulHalves n).isSome = true ↔ n &&& 0xFC = 0 := by
  decide

theorem Csr.isSome_ofNumber_iff :
    ∀ n : BitVec 8, (Csr.ofNumber n).isSome = true ↔ n.toNat ≤ 5 ∨ (8 ≤ n.toNat ∧ n.toNat ≤ 10) := by
  decide

theorem Csr.any_writable_ofNumber_iff :
    ∀ n : BitVec 8, (Csr.ofNumber n).any (·.writable) = true ↔ 1 ≤ n.toNat ∧ n.toNat ≤ 5 := by
  decide

/-- The fields of a word read as a command of an opcode exactly when the opcode's mask and selector check pass. -/
theorem isSome_decodeFields_iff (o : Opcode) (w : Command) :
    (decodeFields o w).isSome = true ↔ o.FieldsZero w ∧ o.SelectorOk (fieldImm8 w).toNat := by
  have all4 (x : BitVec 4) : x &&& 0xF = x := BitVec.and_allOnes
  have all8 (x : BitVec 8) : x &&& 0xFF = x := BitVec.and_allOnes
  cases o <;>
    simp only [decodeFields, Opcode.FieldsZero, Opcode.zeroBits, Opcode.SelectorOk, all4, all8, apply_ite Option.isSome,
      Option.isSome_map]
  case const => simp [ConstName.isSome_ofK_iff, and_assoc]
  case clz | udiv => simp [Half.isSome_ofSel_iff, and_assoc]
  case umul => simp [isSome_umulHalves_iff]
  case csrr => simp [Csr.isSome_ofNumber_iff, and_assoc]
  case csrw => simp [Csr.any_writable_ofNumber_iff, and_assoc]
  all_goals simp

theorem exists_decode_eq_ok_iff (w : Command) :
    (∃ i, decode w = .ok i) ↔ ∃ o : Opcode, fieldOp w = o.code ∧ (decodeFields o w).isSome = true := by
  constructor
  · rintro ⟨i, h⟩
    obtain ⟨o, hop, hfields⟩ := decode_eq_ok w i h
    exact ⟨o, hop, by simp [hfields]⟩
  · rintro ⟨o, hop, hsome⟩
    obtain ⟨i, hfields⟩ := Option.isSome_iff_exists.1 hsome
    exact ⟨i, by rw [decode_of_opcode w o hop, hfields]⟩

/-- The row of the word's opcode and the selector check are together the field checks of that opcode. -/
theorem exists_decode_eq_ok_iff_tableRow (w : Command) :
    (∃ i, decode w = .ok i) ↔ (∃ r ∈ tableRows, w &&& r.2 = r.1) ∧ selectorOk w := by
  rw [exists_decode_eq_ok_iff, exists_tableRow_iff, ← exists_and_right]
  refine exists_congr fun o => ?_
  rw [isSome_decodeFields_iff, and_assoc]
  exact and_congr_right fun hop => and_congr_right' (selectorOk_iff o w hop).symm

/-- ILLEGAL_FIELD is what is left: the opcode is defined and the word does not decode. -/
theorem decode_eq_error_field_iff (w : Command) :
    decode w = .error .field ↔ decode w ≠ .error .opcode ∧ ¬ ∃ i, decode w = .ok i := by
  cases decode w with
  | ok i => simp
  | error e => cases e <;> simp

/-- Settles O4, by reading the table's masks field by field. -/
theorem decoderAgreesWithTheOpcodeTable : Obligations.DecoderAgreesWithTheOpcodeTable := by
  intro w
  refine ⟨exists_decode_eq_ok_iff_tableRow w, ?_⟩
  rw [decode_eq_error_field_iff, Ne, decode_eq_error_opcode_iff, exists_decode_eq_ok_iff_tableRow]

/-- Settles O5, by running the decoder on each word. -/
theorem exampleWordsDecode : Obligations.ExampleWordsDecode := by
  unfold Obligations.ExampleWordsDecode
  decide

end Sys2Proof
end

section
/-! PROOFS. Images in DMEM byte by byte (spec/20_memory.md R61 to R63), and what moves, constants, loads and stores answer
(spec/40_move_memory.md). -/

namespace Sys2Proof.Machine

open Sys2Proof.Statements

/-! Images, byte by byte. -/

/-- Byte i of the integer of a little-endian image is the image's i-th byte (20_memory R61). -/
theorem ofLeBytes_byte (bs : List Byte) (i : Nat) (h : i < bs.length) :
    ofLeBytes bs / 2 ^ (8 * i) % 256 = (bs.getD i 0).toNat := by
  have hbyte := leBytes_getD bs.length (ofLeBytes bs) i h
  rw [leBytes_ofLeBytes] at hbyte
  rw [hbyte, BitVec.toNat_ofNat]

/-- The image the statements write out is the one the machine stores. -/
theorem image_eq_leBytes (n v : Nat) : image n v = leBytes n v := by
  refine List.ext_getElem (by simp [image]) fun i hi hi' => ?_
  have hbyte := leBytes_getD n v i (by simpa using hi')
  rw [List.getD_eq_getElem _ _ hi'] at hbyte
  simp [image, hbyte]

variable (s : State)

theorem memRead_lt (a n : Nat) : s.memRead a n < 2 ^ (8 * n) := by
  simpa [State.memRead] using ofLeBytes_lt (s.mem.readBytes a n)

/-- Byte i of what MemRead returns is the byte at a + i (20_memory R61). -/
theorem memRead_byte (a n i : Nat) (h : i < n) : s.memRead a n / 2 ^ (8 * i) % 256 = (s.mem.read (a + i)).toNat := by
  rw [State.memRead, ofLeBytes_byte _ _ (by simpa using h), Memory.readBytes_getD _ _ _ _ h]

/-- A register as wide as the image holds its bytes (20_memory R62, R63). -/
theorem ofNat_memRead_byte (a n i : Nat) (h : i < n) :
    (BitVec.ofNat (8 * n) (s.memRead a n)).toNat / 2 ^ (8 * i) % 256 = (s.mem.read (a + i)).toNat := by
  rw [BitVec.toNat_ofNat, Nat.mod_eq_of_lt (memRead_lt s a n), memRead_byte s a n i h]

/-! The range check of an access (20_memory R61, 40_move_memory R104): its two outcomes. -/

theorem rangeChecked_of_inRange (r q : Result) {ea n : Nat} (h : ea + n ≤ s.dmemSize) :
    (if s.inRange ea n then r else q) = r :=
  if_pos ((inRange_eq_true s ea n).2 h)

/-- An access past the end of DMEM raises MEM_RANGE, with the lowest address outside DMEM, and has no other effect. -/
theorem rangeChecked_faulted (i : Instr) (r : Result) {ea n : Nat} (h : s.dmemSize < ea + n) :
    ∃ t, (if s.inRange ea n then r else trap i (s.rangeTrap ea) s) = .next t ∧
      Faulted (encode i) 3 (BitVec.ofNat 64 (max ea s.dmemSize)) s t := by
  rw [if_neg (mt (inRange_eq_true s ea n).1 (Nat.not_le.2 h))]
  exact trap_faulted s i (s.rangeTrap ea)

/-! What the commands answer. -/

section exec

variable (d a : BitVec 4) (off : BitVec 16)

theorem exec_movv : exec (.movv d a) s = .next (s.setV d (s.getV a)) := rfl

theorem exec_const (k : ConstName) : exec (.const d k) s = .next (s.setV d (constValue k)) := rfl

theorem exec_lix (imm : BitVec 16) : exec (.lix d imm) s = .next (s.setX d (imm16 imm)) := rfl

theorem exec_ldv : exec (.ldv d a off) s =
    if s.inRange (s.ea a off) 32 then .next (s.setV d (u256 (s.memRead (s.ea a off) 32)))
    else trap (.ldv d a off) (s.rangeTrap (s.ea a off)) s := rfl

theorem exec_stv : exec (.stv d a off) s =
    if s.inRange (s.ea a off) 32 then .next (s.store (s.ea a off) (valueBytes (s.getV d)))
    else trap (.stv d a off) (s.rangeTrap (s.ea a off)) s := rfl

theorem exec_ldx : exec (.ldx d a off) s =
    if s.inRange (s.ea a off) 8 then .next (s.setX d (BitVec.ofNat 64 (s.memRead (s.ea a off) 8)))
    else trap (.ldx d a off) (s.rangeTrap (s.ea a off)) s := rfl

theorem exec_stx : exec (.stx d a off) s =
    if s.inRange (s.ea a off) 8 then .next (s.store (s.ea a off) (scalarBytes (s.getX d)))
    else trap (.stx d a off) (s.rangeTrap (s.ea a off)) s := rfl

end exec

/-! Moves and constants. -/

/-- Writing a value register's own value back changes nothing. -/
@[simp] theorem State.setV_getV_self (d : VReg) : s.setV d (s.getV d) = s := by
  simp [State.setV, State.getV]

theorem constValue_one : constValue .one = BitVec.ofNat 256 (2 ^ 128) := by decide

theorem constValue_smallest : constValue .smallest = BitVec.ofNat 256 1 := by decide

/-- No constant has a selector above 4 (40_move_memory R102). -/
theorem ofK_eq_none (k : BitVec 8) (h : 4 < k.toNat) : ConstName.ofK k = none := by
  rw [← Option.not_isSome_iff_eq_none, ConstName.isSome_ofK_iff]
  omega

/-- A word of a defined opcode whose field checks fail is ILLEGAL_FIELD (30_encoding R86). -/
theorem decode_eq_error_field_of_decodeFields (w : Command) (o : Opcode) (hop : fieldOp w = o.code)
    (hfields : decodeFields o w = none) : decode w = .error .field := by
  rw [decode_of_opcode w o hop, hfields]

theorem decode_const_eq_error (d : VReg) (k : BitVec 8) (h : 4 < k.toNat) :
    decode (formatR .const d 0 0 0 k) = .error .field :=
  decode_eq_error_field_of_decodeFields _ .const (by simp) (by simp [decodeFields, ofK_eq_none k h])

theorem decode_lix_eq_error (d : XReg) (a : BitVec 4) (imm : BitVec 16) (h : a ≠ 0) :
    decode (formatM .lix d a imm) = .error .field :=
  decode_eq_error_field_of_decodeFields _ .lix (by simp) (by simpa [decodeFields] using h)

/-- Sign extension, as the signed value of the immediate (40_move_memory R103). -/
theorem imm16_eq_ofInt (imm : BitVec 16) : imm16 imm = BitVec.ofInt 64 imm.toInt := rfl

/-- Settles O26: NOP is well formed and its word is 0, so it is what 0 alone decodes to. -/
theorem nopChangesNothing : Obligations.NopChangesNothing := by
  have hword : encode .nop = 0 := by decide
  refine ⟨fun w => ?_, fun s => rfl⟩
  rw [← wellFormed_and_encode_eq_iff, hword, eq_comm (a := 0)]
  exact and_iff_right rfl

/-- Settles O27, by the effect of a value register write. -/
theorem movvCopiesAValue : Obligations.MovvCopiesAValue := by
  intro d a s
  refine ⟨rfl, ⟨_, exec_movv s d a, setV_writesV s d _⟩, ?_⟩
  rw [exec_movv, State.setV_getV_self]

/-- Settles O28: one case for each constant, and no constant for any other selector. -/
theorem constLoadsANamedConstant : Obligations.ConstLoadsANamedConstant := by
  intro d s
  have hexec (k : ConstName) : ∃ t, exec (.const d k) s = .next t ∧ WritesV d (constValue k) 0 s t :=
    ⟨_, exec_const s d k, setV_writesV s d _⟩
  refine ⟨fun k n v hmem => ?_, decode_const_eq_error d⟩
  simp only [List.mem_cons, Prod.mk.injEq, List.not_mem_nil, or_false] at hmem
  obtain ⟨rfl, rfl, rfl⟩ | ⟨rfl, rfl, rfl⟩ | ⟨rfl, rfl, rfl⟩ | ⟨rfl, rfl, rfl⟩ | ⟨rfl, rfl, rfl⟩ := hmem
  · exact ⟨rfl, hexec .zero⟩
  · exact ⟨rfl, constValue_one ▸ hexec .one⟩
  · exact ⟨rfl, constValue_smallest ▸ hexec .smallest⟩
  · exact ⟨rfl, hexec .min⟩
  · exact ⟨rfl, hexec .max⟩

/-- Settles O29, by the effect of a scalar register write and the field check on w[19:16]. -/
theorem lixWritesTheSignExtendedImmediate : Obligations.LixWritesTheSignExtendedImmediate := by
  intro d imm s
  rw [exec_lix, imm16_eq_ofInt]
  exact ⟨rfl, ⟨_, rfl, setX_writesX s d _⟩, fun a => decode_lix_eq_error d a imm⟩

/-! Loads and stores. -/

/-- Settles O30, by the two outcomes of the range check. -/
theorem ldvLoadsAnImageOrFaults : Obligations.LdvLoadsAnImageOrFaults := by
  intro d a off s ea
  rw [exec_ldv]
  refine ⟨rfl, fun h => ?_, rangeChecked_faulted s (.ldv d a off) _⟩
  exact ⟨_, _, rangeChecked_of_inRange s _ _ h, setV_writesV s d _, ofNat_memRead_byte s ea 32⟩

/-- Settles O31, by the two outcomes of the range check. -/
theorem stvStoresAnImageOrFaults : Obligations.StvStoresAnImageOrFaults := by
  intro d a off s ea
  rw [exec_stv, image_eq_leBytes]
  refine ⟨rfl, fun h => ?_, rangeChecked_faulted s (.stv d a off) _⟩
  exact ⟨_, rangeChecked_of_inRange s _ _ h, store_writesMem s ea _⟩

/-- Settles O32, by the two outcomes of the range check. -/
theorem ldxLoadsAnImageOrFaults : Obligations.LdxLoadsAnImageOrFaults := by
  intro d a off s ea
  rw [exec_ldx]
  refine ⟨rfl, fun h => ?_, rangeChecked_faulted s (.ldx d a off) _⟩
  exact ⟨_, _, rangeChecked_of_inRange s _ _ h, setX_writesX s d _, ofNat_memRead_byte s ea 8⟩

/-- Settles O33, by the two outcomes of the range check. -/
theorem stxStoresAnImageOrFaults : Obligations.StxStoresAnImageOrFaults := by
  intro d a off s ea
  rw [exec_stx, image_eq_leBytes]
  refine ⟨rfl, fun h => ?_, rangeChecked_faulted s (.stx d a off) _⟩
  exact ⟨_, rangeChecked_of_inRange s _ _ h, store_writesMem s ea _⟩

end Sys2Proof.Machine
end

section
/-! PROOFS. What the bitwise and shift commands and CLZ answer (spec/41_bitwise_shift.md): the shifts as arithmetic on the
number a value holds, and the bounds that the count of leading zeros puts on a half. -/

namespace Sys2Proof.Machine

open Sys2Proof.Statements

/-! Shifts, as multiplication and division by a power of 2 (41_bitwise_shift R124). -/

theorem shl_eq_ofNat_mul (v : Value) {n : Nat} (h : n < 256) : shl v n = BitVec.ofNat 256 (v.toNat * 2 ^ n) := by
  rw [shl, Nat.mod_eq_of_lt h]
  exact BitVec.eq_of_toNat_eq (by simp [Nat.shiftLeft_eq])

theorem shr_eq_ofNat_div (v : Value) {n : Nat} (h : n < 256) : shr v n = BitVec.ofNat 256 (v.toNat / 2 ^ n) := by
  have hlt : v.toNat / 2 ^ n < 2 ^ 256 := (Nat.div_le_self ..).trans_lt v.isLt
  rw [shr, Nat.mod_eq_of_lt h]
  refine BitVec.eq_of_toNat_eq ?_
  rw [BitVec.toNat_ushiftRight, Nat.shiftRight_eq_div_pow, BitVec.toNat_ofNat, Nat.mod_eq_of_lt hlt]

/-- Division of integers rounds toward minus infinity for a positive divisor, as the sign fill does. -/
theorem sar_eq_ofInt_div (v : Value) {n : Nat} (h : n < 256) : sar v n = BitVec.ofInt 256 (v.toInt / 2 ^ n) := by
  rw [sar, Nat.mod_eq_of_lt h, BitVec.sshiftRight, Int.shiftRight_eq_div_pow, Nat.cast_pow, Nat.cast_ofNat]

/-- An amount from a scalar register is reduced before it reaches the shift (41_bitwise_shift R125). -/
theorem State.shiftAmount_lt (s : State) (b : XReg) : s.shiftAmount b < 256 := Nat.mod_lt _ (by decide)

/-! Halves and leading zeros. -/

theorem toNat_half (h : Half) (v : Value) :
    (half h v).toNat = if h = .hi then v.toNat / 2 ^ 128 else v.toNat % 2 ^ 128 := by
  cases h with
  | lo => simp [half, lo]
  | hi =>
    have hlt : v.toNat / 2 ^ 128 < 2 ^ 128 := by omega
    simp only [half, hi, BitVec.extractLsb'_toNat, Nat.shiftRight_eq_div_pow, Nat.mod_eq_of_lt hlt, if_true]

theorem clz128_of_toNat_eq_zero (x : BitVec 128) (h : x.toNat = 0) : clz128 x = 128 := by simp [clz128, h]

/-- The count is what is left of 127 above the highest one bit (41_bitwise_shift R131). -/
theorem clz128_add_log2 (x : BitVec 128) (h : x.toNat ≠ 0) : clz128 x + Nat.log2 x.toNat = 127 := by
  have hlog : Nat.log2 x.toNat < 128 := (Nat.log2_lt h).2 x.isLt
  rw [clz128, if_neg h]
  omega

/-- The highest one bit bounds a half that is not 0 from both sides. -/
theorem clz128_bounds (x : BitVec 128) (h : x.toNat ≠ 0) :
    clz128 x ≤ 127 ∧ 2 ^ (127 - clz128 x) ≤ x.toNat ∧ x.toNat < 2 ^ (128 - clz128 x) := by
  have hsum := clz128_add_log2 x h
  have hlow : 127 - clz128 x = Nat.log2 x.toNat := by omega
  have hhigh : 128 - clz128 x = Nat.log2 x.toNat + 1 := by omega
  rw [hlow, hhigh]
  exact ⟨by omega, Nat.log2_self_le h, Nat.lt_log2_self⟩

/-! Words whose field checks fail (30_encoding R86). -/

/-- The immediate shifts have no operand in the fields b and c. -/
theorem decode_shiftImmediate_eq_error (o : Opcode) (ho : o = .shli ∨ o = .shri ∨ o = .sari) (d a e f : BitVec 4)
    (imm : BitVec 8) (h : e ≠ 0 ∨ f ≠ 0) : decode (formatR o d a e f imm) = .error .field := by
  have hfields : ¬ (e = 0 ∧ f = 0) := not_and_or.2 h
  refine decode_eq_error_field_of_decodeFields _ o (by simp) ?_
  obtain rfl | rfl | rfl := ho
  all_goals simp only [decodeFields, fieldB_formatR, fieldC_formatR, if_neg hfields]

/-- A half has no selector above 1. -/
theorem ofSel_eq_none (k : BitVec 8) (h : 1 < k.toNat) : Half.ofSel k = none := by
  have hlo : k ≠ 0 := by rintro rfl; exact absurd h (by decide)
  have hhi : k ≠ 1 := by rintro rfl; exact absurd h (by decide)
  rw [Half.ofSel, if_neg hlo, if_neg hhi]

theorem decode_clz_eq_error (d a e f : BitVec 4) (k : BitVec 8) (h : e ≠ 0 ∨ f ≠ 0 ∨ 1 < k.toNat) :
    decode (formatR .clz d a e f k) = .error .field := by
  refine decode_eq_error_field_of_decodeFields _ .clz (by simp) ?_
  simp only [decodeFields, fieldB_formatR, fieldC_formatR, fieldImm8_formatR]
  by_cases hfields : e = 0 ∧ f = 0
  · obtain ⟨rfl, rfl⟩ := hfields
    have hsel : 1 < k.toNat := by simpa using h
    simp [ofSel_eq_none k hsel]
  · rw [if_neg hfields]

/-! What the commands answer. -/

/-- A command that writes one value register and sets no flag, as an effect. -/
theorem exec_writesV {i : Instr} {s : State} {d : VReg} {w : Value} (h : exec i s = .next (s.setV d w)) :
    ∃ t, exec i s = .next t ∧ WritesV d w 0 s t := ⟨_, h, setV_writesV s d w⟩

section exec

variable (s : State) (d a b : BitVec 4) (imm : BitVec 8)

theorem exec_not : exec (.not d a) s = .next (s.setV d (~~~ s.getV a)) := rfl

theorem exec_and : exec (.and d a b) s = .next (s.setV d (s.getV a &&& s.getV b)) := rfl

theorem exec_or : exec (.or d a b) s = .next (s.setV d (s.getV a ||| s.getV b)) := rfl

theorem exec_xor : exec (.xor d a b) s = .next (s.setV d (s.getV a ^^^ s.getV b)) := rfl

theorem exec_shl :
    exec (.shl d a b) s = .next (s.setV d (BitVec.ofNat 256 ((s.getV a).toNat * 2 ^ s.shiftAmount b))) := by
  rw [← shl_eq_ofNat_mul _ (s.shiftAmount_lt b)]
  rfl

theorem exec_shr :
    exec (.shr d a b) s = .next (s.setV d (BitVec.ofNat 256 ((s.getV a).toNat / 2 ^ s.shiftAmount b))) := by
  rw [← shr_eq_ofNat_div _ (s.shiftAmount_lt b)]
  rfl

theorem exec_sar :
    exec (.sar d a b) s = .next (s.setV d (BitVec.ofInt 256 ((s.getV a).toInt / 2 ^ s.shiftAmount b))) := by
  rw [← sar_eq_ofInt_div _ (s.shiftAmount_lt b)]
  rfl

theorem exec_shli : exec (.shli d a imm) s = .next (s.setV d (BitVec.ofNat 256 ((s.getV a).toNat * 2 ^ imm.toNat))) := by
  rw [← shl_eq_ofNat_mul _ imm.isLt]
  rfl

theorem exec_shri : exec (.shri d a imm) s = .next (s.setV d (BitVec.ofNat 256 ((s.getV a).toNat / 2 ^ imm.toNat))) := by
  rw [← shr_eq_ofNat_div _ imm.isLt]
  rfl

theorem exec_sari : exec (.sari d a imm) s = .next (s.setV d (BitVec.ofInt 256 ((s.getV a).toInt / 2 ^ imm.toNat))) := by
  rw [← sar_eq_ofInt_div _ imm.isLt]
  rfl

theorem exec_clz (h : Half) :
    exec (.clz d a h) s = .next (s.setX d (BitVec.ofNat 64 (clz128 (half h (s.getV a))))) := rfl

end exec

/-- Settles O36, by the bounds on the chosen half and the field and selector checks. -/
theorem clzCountsLeadingZeros : Obligations.ClzCountsLeadingZeros := by
  intro d a h s x
  have hx : (half h (s.getV a)).toNat = x := toNat_half h (s.getV a)
  rw [exec_clz, ← hx]
  have hword : encode (.clz d a h) = wordR 0x2A d a 0 0 (if h = .hi then 1 else 0) := by cases h <;> rfl
  exact ⟨hword, decode_clz_eq_error d a, _, _, rfl, setX_writesX s d _, clz128_of_toNat_eq_zero _, clz128_bounds _⟩

/-- Settles O34, by the library's account of each bit of a complement, conjunction, disjunction and exclusive or. -/
theorem bitwiseCommandsActBitByBit : Obligations.BitwiseCommandsActBitByBit := by
  intro d a b s
  refine ⟨rfl, rfl, rfl, rfl, ?not, ?and, ?or, ?xor⟩
  case not =>
    refine ⟨_, _, exec_not s d a, setV_writesV s d _, fun i hi => ?_⟩
    rw [BitVec.getLsbD_not, decide_eq_true hi, Bool.true_and]
  case and => exact ⟨_, _, exec_and s d a b, setV_writesV s d _, fun _ _ => BitVec.getLsbD_and⟩
  case or => exact ⟨_, _, exec_or s d a b, setV_writesV s d _, fun _ _ => BitVec.getLsbD_or⟩
  case xor => exact ⟨_, _, exec_xor s d a b, setV_writesV s d _, fun _ _ => BitVec.getLsbD_xor⟩

/-- Settles O35, by the shifts as arithmetic for amounts below 256 and the field checks of the immediate forms. -/
theorem shiftCommands : Obligations.ShiftCommands := by
  intro d a b imm s v n m
  refine ⟨rfl, rfl, rfl, rfl, rfl, rfl, fun e f h => ⟨?shli, ?shri, ?sari⟩,
    exec_writesV (exec_shl s d a b), exec_writesV (exec_shr s d a b), exec_writesV (exec_sar s d a b),
    exec_writesV (exec_shli s d a imm), exec_writesV (exec_shri s d a imm), exec_writesV (exec_sari s d a imm)⟩
  case shli => exact decode_shiftImmediate_eq_error .shli (by simp) d a e f imm h
  case shri => exact decode_shiftImmediate_eq_error .shri (by simp) d a e f imm h
  case sari => exact decode_shiftImmediate_eq_error .sari (by simp) d a e f imm h

end Sys2Proof.Machine
end

section
/-! PROOFS. What the additive, sign and compare commands answer (spec/42_additive.md): negation and absolute value as integers
mod 2^256, and the three-way compares as signs of exact differences. -/

namespace Sys2Proof.Machine

/-! Sums and signs, as integers mod 2^256 (42_additive R140 to R144). -/

theorem add_eq_ofInt_add (v w : Value) : v + w = BitVec.ofInt 256 (v.toInt + w.toInt) := by
  rw [BitVec.ofInt_add, BitVec.ofInt_toInt, BitVec.ofInt_toInt]

theorem sub_eq_ofInt_sub (v w : Value) : v - w = BitVec.ofInt 256 (v.toInt - w.toInt) := by
  rw [Int.sub_eq_add_neg, BitVec.ofInt_add, BitVec.ofInt_neg, BitVec.ofInt_toInt, BitVec.ofInt_toInt, BitVec.sub_eq_add_neg]

theorem neg_eq_ofInt_neg (v : Value) : neg v = BitVec.ofInt 256 (-v.toInt) := by
  rw [BitVec.ofInt_neg, BitVec.ofInt_toInt]
  exact BitVec.eq_of_toNat_eq (by rw [neg, u256, BitVec.toNat_ofNat, BitVec.toNat_neg])

/-- Bit 255 is the sign of the signed value (10_state R20). -/
theorem isNeg_iff_toInt_neg (v : Value) : isNeg v = true ↔ v.toInt < 0 := by
  rw [isNeg, BitVec.msb_eq_toInt, decide_eq_true_iff]

theorem not_isNeg_iff_toInt_nonneg (v : Value) : ¬ isNeg v = true ↔ 0 ≤ v.toInt := by
  rw [isNeg_iff_toInt_neg, not_lt]

theorem abs_eq_ofInt_abs (v : Value) : abs v = BitVec.ofInt 256 |v.toInt| := by
  by_cases h : isNeg v
  · rw [abs, if_pos h, neg_eq_ofInt_neg, abs_of_neg ((isNeg_iff_toInt_neg v).1 h)]
  · rw [abs, if_neg h, abs_of_nonneg ((not_isNeg_iff_toInt_nonneg v).1 h), BitVec.ofInt_toInt]

/-- The value that NABS writes (R146). -/
theorem nabs_eq_ofInt_neg_abs (v : Value) : (if isNeg v then v else neg v) = BitVec.ofInt 256 (-|v.toInt|) := by
  by_cases h : isNeg v
  · rw [if_pos h, abs_of_neg ((isNeg_iff_toInt_neg v).1 h), neg_neg, BitVec.ofInt_toInt]
  · rw [if_neg h, abs_of_nonneg ((not_isNeg_iff_toInt_nonneg v).1 h), neg_eq_ofInt_neg]

/-! Compares (42_additive R148, R150). -/

/-- The three-way compare of two integers is the sign of their exact difference. -/
theorem threeWay_eq_sign_sub (x y : Int) : (if x < y then -1 else if x = y then 0 else 1) = (x - y).sign := by
  obtain h | rfl | h := lt_trichotomy x y
  · rw [if_pos h, Int.sign_eq_neg_one_of_neg (sub_neg.2 h)]
  · rw [if_neg (lt_irrefl x), if_pos rfl, sub_self, Int.sign_zero]
  · rw [if_neg h.not_gt, if_neg h.ne', Int.sign_eq_one_of_pos (sub_pos.2 h)]

theorem cmp_eq_sign_sub (v w : Value) : cmp v w = (v.toInt - w.toInt).sign := threeWay_eq_sign_sub _ _

theorem ucmp_eq_sign_sub (v w : Value) : ucmp v w = ((v.toNat : Int) - w.toNat).sign := by
  rw [← threeWay_eq_sign_sub, ucmp]
  simp only [Nat.cast_lt, Nat.cast_inj]

theorem cmp_nonpos_iff (v w : Value) : cmp v w ≤ 0 ↔ v.toInt ≤ w.toInt := by
  rw [cmp_eq_sign_sub, Int.sign_nonpos_iff, sub_nonpos]

theorem cmp_nonneg_iff (v w : Value) : 0 ≤ cmp v w ↔ w.toInt ≤ v.toInt := by
  rw [cmp_eq_sign_sub, Int.sign_nonneg_iff, sub_nonneg]

/-- The signed value that MIN writes (R151). -/
theorem toInt_ite_cmp_nonpos (v w : Value) : (if cmp v w ≤ 0 then v else w).toInt = Min.min v.toInt w.toInt := by
  rw [apply_ite BitVec.toInt, min_def]
  simp only [cmp_nonpos_iff]

/-- The signed value that MAX writes (R152). -/
theorem toInt_ite_cmp_nonneg (v w : Value) : (if cmp v w ≥ 0 then v else w).toInt = Max.max v.toInt w.toInt := by
  rw [apply_ite BitVec.toInt, max_def']
  simp only [ge_iff_le, cmp_nonneg_iff]

/-! What the commands answer. -/

/-- A command that writes one scalar register, as an effect. -/
theorem exec_writesX {i : Instr} {s : State} {d : XReg} {w : Scalar} (h : exec i s = .next (s.setX d w)) :
    ∃ t, exec i s = .next t ∧ WritesX d w s t := ⟨_, h, setX_writesX s d w⟩

section exec

variable (s : State) (d a b : BitVec 4)

theorem exec_add :
    exec (.add d a b) s = .next (s.setV d (BitVec.ofInt 256 ((s.getV a).toInt + (s.getV b).toInt))) := by
  rw [← add_eq_ofInt_add]
  rfl

theorem exec_sub :
    exec (.sub d a b) s = .next (s.setV d (BitVec.ofInt 256 ((s.getV a).toInt - (s.getV b).toInt))) := by
  rw [← sub_eq_ofInt_sub]
  rfl

theorem exec_neg : exec (.neg d a) s = .next (s.setV d (BitVec.ofInt 256 (-(s.getV a).toInt))) := by
  rw [← neg_eq_ofInt_neg]
  rfl

theorem exec_abs : exec (.abs d a) s = .next (s.setV d (BitVec.ofInt 256 |(s.getV a).toInt|)) := by
  rw [← abs_eq_ofInt_abs]
  rfl

theorem exec_nabs : exec (.nabs d a) s = .next (s.setV d (BitVec.ofInt 256 (-|(s.getV a).toInt|))) := by
  rw [← nabs_eq_ofInt_neg_abs]
  rfl

theorem exec_isneg : exec (.isneg d a) s = .next (s.setX d (if (s.getV a).toInt < 0 then 1 else 0)) := by
  simp only [← isNeg_iff_toInt_neg]
  rfl

theorem exec_cmp :
    exec (.cmp d a b) s = .next (s.setX d (BitVec.ofInt 64 ((s.getV a).toInt - (s.getV b).toInt).sign)) := by
  rw [← cmp_eq_sign_sub]
  rfl

theorem exec_ucmp :
    exec (.ucmp d a b) s =
      .next (s.setX d (BitVec.ofInt 64 (((s.getV a).toNat : Int) - (s.getV b).toNat).sign)) := by
  rw [← ucmp_eq_sign_sub]
  rfl

theorem exec_min : exec (.min d a b) s =
    .next (s.setV d (if cmp (s.getV a) (s.getV b) ≤ 0 then s.getV a else s.getV b)) := rfl

theorem exec_max : exec (.max d a b) s =
    .next (s.setV d (if cmp (s.getV a) (s.getV b) ≥ 0 then s.getV a else s.getV b)) := rfl

end exec

/-- Settles O37, by the wrapping sum and difference as integers mod 2^256. -/
theorem addAndSubWrap : Obligations.AddAndSubWrap := fun d a b s =>
  ⟨rfl, rfl, exec_writesV (exec_add s d a b), exec_writesV (exec_sub s d a b)⟩

/-- Settles O38, by negation and absolute value as integers mod 2^256 and the sign bit. -/
theorem signCommands : Obligations.SignCommands := fun d a x s =>
  ⟨rfl, rfl, rfl, rfl, exec_writesV (exec_neg s d a), exec_writesV (exec_abs s d a), exec_writesV (exec_nabs s d a),
    exec_writesX (exec_isneg s x a)⟩

/-- Settles O39, by both three-way compares as signs of exact differences. -/
theorem compareCommands : Obligations.CompareCommands := fun d a b s =>
  ⟨rfl, rfl, exec_writesX (exec_cmp s d a b), exec_writesX (exec_ucmp s d a b)⟩

/-- Settles O40, by the sign of the compare, which says which operand is the lesser. -/
theorem minAndMax : Obligations.MinAndMax := fun d a b s =>
  ⟨rfl, rfl, ⟨_, _, exec_min s d a b, setV_writesV s d _, toInt_ite_cmp_nonpos _ _⟩,
    _, _, exec_max s d a b, setV_writesV s d _, toInt_ite_cmp_nonneg _ _⟩

end Sys2Proof.Machine
end

section
/-! PROOFS. What the multiply, divide and modulo commands answer (spec/43_muldiv.md): the values as a sign and a magnitude, as
the rules compute with them, and the truncations of spec/45_rounding.md as integers. -/

namespace Sys2Proof.Machine

open Sys2Proof.Statements

/-! A sign and a magnitude (43_muldiv R166, R168), and their integer. -/

/-- The integer with a magnitude and, where `negative` holds, a minus sign. -/
def signed (negative : Bool) (m : Nat) : Int := if negative then -m else m

@[simp] theorem signed_false (m : Nat) : signed false m = m := rfl

@[simp] theorem signed_true (m : Nat) : signed true m = -m := rfl

@[simp] theorem natAbs_signed (n : Bool) (m : Nat) : (signed n m).natAbs = m := by
  cases n with
  | false => exact Int.natAbs_natCast m
  | true => exact Int.natAbs_neg m

theorem signed_lt_zero_iff (n : Bool) (m : Nat) : signed n m < 0 ↔ n = true ∧ m ≠ 0 := by
  cases n with
  | false => simp
  | true => simp [Nat.pos_iff_ne_zero]

/-- The sign bit of a magnitude other than 0 is the sign of the integer. -/
theorem signed_eq_ite (n : Bool) {m p : Nat} (h : p = 0 → m = 0) :
    signed n m = if signed n p < 0 then -(m : Int) else m := by
  simp only [signed_lt_zero_iff]
  cases n with
  | false => simp
  | true =>
    by_cases hp : p = 0
    · simp [hp, h hp]
    · simp [hp]

theorem signed_mul (n k : Bool) (m l : Nat) : signed n m * signed k l = signed (n != k) (m * l) := by
  cases n <;> cases k <;> simp

/-- The quotient truncated toward zero is the quotient of the magnitudes, with the sign of a product. -/
theorem signed_tdiv (n k : Bool) (m l : Nat) : (signed n m).tdiv (signed k l) = signed (n != k) (m / l) := by
  cases n <;> cases k <;> simp [Int.neg_tdiv, Int.tdiv_neg]

/-- A magnitude given its sign as the rules do it, by `Neg` (43_muldiv R166, R168). -/
theorem ite_neg_eq_ofInt_signed (n : Bool) (m : Nat) :
    (if n then neg (u256 m) else u256 m) = BitVec.ofInt 256 (signed n m) := by
  cases n with
  | false => exact (BitVec.ofInt_natCast 256 m).symm
  | true =>
    rw [if_pos rfl, neg_eq_ofInt_neg, BitVec.ofInt_neg, BitVec.ofInt_toInt, signed_true, BitVec.ofInt_neg,
      BitVec.ofInt_natCast, u256]

/-- `Abs` as an unsigned number is the magnitude, that of MIN included (42_additive R144). -/
theorem toNat_abs (v : Value) : (abs v).toNat = v.toInt.natAbs := by
  have hlow := BitVec.le_toInt v
  have hhigh := BitVec.toInt_lt (x := v)
  rw [abs_eq_ofInt_abs, Int.abs_eq_natAbs, BitVec.ofInt_natCast, BitVec.toNat_ofNat]
  exact Nat.mod_eq_of_lt (by omega)

/-- A value is its sign bit and its magnitude. -/
theorem toInt_eq_signed (v : Value) : v.toInt = signed (isNeg v) v.toInt.natAbs := by
  by_cases h : isNeg v
  · have hneg := (isNeg_iff_toInt_neg v).1 h
    rw [h, signed_true]
    omega
  · have hnonneg := (not_isNeg_iff_toInt_nonneg v).1 h
    rw [Bool.not_eq_true] at h
    rw [h, signed_false]
    omega

theorem toInt_eq_zero_iff (v : Value) : v.toInt = 0 ↔ v = 0 := by
  rw [← BitVec.toInt_inj, BitVec.ofNat_eq_ofNat, BitVec.toInt_zero]

theorem toInt_mul_toInt_eq_signed (a b : Value) :
    a.toInt * b.toInt = signed (isNeg a != isNeg b) (a.toInt.natAbs * b.toInt.natAbs) := by
  rw [← signed_mul, ← toInt_eq_signed, ← toInt_eq_signed]

/-! Wide products and quotients (43_muldiv R160, R162). -/

theorem toNat_wideMul (x y : BitVec 128) : (wideMul x y).toNat = x.toNat * y.toNat := by
  rw [wideMul, u256, BitVec.toNat_ofNat]
  exact Nat.mod_eq_of_lt (calc
    x.toNat * y.toNat < 2 ^ 128 * 2 ^ 128 := Nat.mul_lt_mul'' x.isLt y.isLt
    _ = 2 ^ 256 := by norm_num)

/-- The precondition of `WideDiv` bounds the quotient by a half. -/
theorem div_lt_of_hi_lt {n q : Nat} (h : n / 2 ^ 128 < q) : n / q < 2 ^ 128 := by
  rw [Nat.div_lt_iff_lt_mul (by positivity)] at h
  rwa [Nat.div_lt_iff_lt_mul (by omega), Nat.mul_comm]

/-- Two halves put together read back as the halves. -/
theorem toNat_u256_halves {h l : Nat} (hh : h < 2 ^ 128) (hl : l < 2 ^ 128) :
    (u256 (h * 2 ^ 128 + l)).toNat % 2 ^ 128 = l ∧ (u256 (h * 2 ^ 128 + l)).toNat / 2 ^ 128 = h := by
  rw [u256, BitVec.toNat_ofNat]
  omega

/-! The fixed-point product (43_muldiv R165, R166). -/

/-- Adding bit 127 after the shift is adding 2^127 before it (R165). -/
theorem div_add_bit_eq_div_add_half (p : Nat) : p / 2 ^ 128 + p / 2 ^ 127 % 2 = (p + 2 ^ 127) / 2 ^ 128 := by omega

/-- The magnitude of a product in units of SMALLEST, rounded half up. -/
def roundedProduct (a b : Value) : Nat := (a.toInt.natAbs * b.toInt.natAbs + 2 ^ 127) / 2 ^ 128

/-- `FxMul` rounds the magnitude and then gives it the sign bits' sign. -/
theorem fxMul_eq_ofInt_signed (a b : Value) :
    fxMul a b = BitVec.ofInt 256 (signed (isNeg a != isNeg b) (roundedProduct a b)) := by
  simp only [roundedProduct, fxMul, fxMulU, toNat_abs, div_add_bit_eq_div_add_half, ite_neg_eq_ofInt_signed]

/-- A magnitude other than 0 has the exact product's sign, and a product of 0 rounds to 0. -/
theorem fxMul_eq_ofInt (a b : Value) : fxMul a b =
    BitVec.ofInt 256 (if a.toInt * b.toInt < 0 then -(roundedProduct a b : Int) else roundedProduct a b) := by
  have hzero : a.toInt.natAbs * b.toInt.natAbs = 0 → roundedProduct a b = 0 := by
    intro h
    rw [roundedProduct, h]
    rfl
  rw [fxMul_eq_ofInt_signed, toInt_mul_toInt_eq_signed, ← signed_eq_ite _ hzero]

/-- The product by an integer is exact mod 2^256: its rounding bit is 0 (43_muldiv R171). -/
theorem fxMul_of_integer (a b : Value) (k : Int) (h : a.toInt = k * 2 ^ 128) :
    fxMul a b = BitVec.ofInt 256 (k * b.toInt) := by
  have hround : roundedProduct a b = (k * b.toInt).natAbs := by
    rw [roundedProduct, ← Int.natAbs_mul, h, mul_right_comm, Int.natAbs_mul, show ((2 : Int) ^ 128).natAbs = 2 ^ 128 from rfl]
    omega
  have hsign : a.toInt * b.toInt < 0 ↔ k * b.toInt < 0 := by
    rw [h, mul_right_comm]
    omega
  simp only [fxMul_eq_ofInt, hround, hsign]
  split <;> congr 1 <;> omega

/-! Truncation to an integer (45_rounding R210, R211, R213). -/

theorem toInt_eq_hi_lo (v : Value) : v.toInt = 2 ^ 128 * (hi v).toInt + (lo v).toNat := by
  have hhalves : hi v ++ lo v = v := BitVec.extractLsb'_append_extractLsb'
  conv_lhs => rw [← hhalves, BitVec.toInt_append]
  rfl

theorem hi_eq_ofInt (v : Value) : hi v = BitVec.ofInt 128 (v.toInt / 2 ^ 128) := by
  have hlo := (lo v).isLt
  have hhi : v.toInt / 2 ^ 128 = (hi v).toInt := by
    rw [toInt_eq_hi_lo]
    omega
  rw [hhi, BitVec.ofInt_toInt]

theorem lo_eq_zero_iff (v : Value) : lo v = 0 ↔ v.toInt % 2 ^ 128 = 0 := by
  have hlo := (lo v).isLt
  rw [toInt_eq_hi_lo, ← BitVec.toNat_inj, show (0 : BitVec 128).toNat = 0 from rfl]
  omega

theorem ofHalves_ofInt_zero (n : Int) : ofHalves (BitVec.ofInt 128 n) 0 = BitVec.ofInt 256 (n * 2 ^ 128) := by
  refine BitVec.eq_of_toNat_eq ?_
  simp only [ofHalves, BitVec.toNat_append, BitVec.toNat_ofInt, BitVec.ofNat_eq_ofNat, BitVec.toNat_ofNat,
    Nat.zero_mod, Nat.or_zero, Nat.shiftLeft_eq]
  omega

/-- FLOOR's function as an integer (R210). -/
theorem floor_eq_ofInt (v : Value) : floor v = BitVec.ofInt 256 (v.toInt / 2 ^ 128 * 2 ^ 128) := by
  rw [floor, hi_eq_ofInt, ofHalves_ofInt_zero]

/-- CEIL's function as an integer (R211). -/
theorem ceil_eq_ofInt (v : Value) : ceil v = BitVec.ofInt 256 (-(-v.toInt / 2 ^ 128) * 2 ^ 128) := by
  have hup : -(-v.toInt / 2 ^ 128) = v.toInt / 2 ^ 128 + if v.toInt % 2 ^ 128 = 0 then 0 else 1 := by
    split <;> omega
  have hcarry : (if v.toInt % 2 ^ 128 = 0 then 0 else 1 : BitVec 128) =
      BitVec.ofInt 128 (if v.toInt % 2 ^ 128 = 0 then 0 else 1) := by split <;> rfl
  simp only [ceil, hi_eq_ofInt, lo_eq_zero_iff]
  rw [hcarry, ← BitVec.ofInt_add, ← hup, ofHalves_ofInt_zero]

/-- `Trunc0` never wraps: it moves a value toward zero (R213). -/
theorem toInt_trunc0 (v : Value) : (trunc0 v).toInt = v.toInt.tdiv (2 ^ 128) * 2 ^ 128 := by
  have hlow := BitVec.le_toInt v
  have hhigh := BitVec.toInt_lt (x := v)
  by_cases h : isNeg v
  · have hneg := (isNeg_iff_toInt_neg v).1 h
    have hup : v.toInt.tdiv (2 ^ 128) = -(-v.toInt / 2 ^ 128) := by
      rw [← Int.tdiv_eq_ediv_of_nonneg (by omega), Int.neg_tdiv, neg_neg]
    rw [trunc0, if_pos h, ceil_eq_ofInt, hup]
    exact BitVec.toInt_ofInt_eq_self (by decide) (by omega) (by omega)
  · have hnonneg := (not_isNeg_iff_toInt_nonneg v).1 h
    rw [trunc0, if_neg h, floor_eq_ofInt, Int.tdiv_eq_ediv_of_nonneg hnonneg]
    exact BitVec.toInt_ofInt_eq_self (by decide) (by omega) (by omega)

/-! The fixed-point quotient (43_muldiv R168). -/

/-- The exact quotient in units of SMALLEST, truncated toward zero. -/
def exactQuotient (a b : Value) : Int := (a.toInt * 2 ^ 128).tdiv b.toInt

theorem two_pow_eq_signed : (2 : Int) ^ 128 = signed false (2 ^ 128) := rfl

/-- The sign and the magnitude of the exact quotient are those R168 computes. -/
theorem exactQuotient_eq_signed (a b : Value) : exactQuotient a b =
    signed (isNeg a != isNeg b) ((abs a).toNat * 2 ^ 128 / (abs b).toNat) := by
  conv_lhs =>
    rw [exactQuotient, toInt_eq_signed a, toInt_eq_signed b, two_pow_eq_signed,
      signed_mul, signed_tdiv, Bool.bne_false]
  rw [toNat_abs, toNat_abs]

/-- The integer part of the exact quotient is the quotient of the patterns. -/
theorem exactQuotient_tdiv (a b : Value) : (exactQuotient a b).tdiv (2 ^ 128) = a.toInt.tdiv b.toInt := by
  rw [exactQuotient_eq_signed, toNat_abs, toNat_abs, two_pow_eq_signed, signed_tdiv,
    Nat.div_div_eq_div_mul, Nat.mul_div_mul_right _ _ (by positivity), Bool.bne_false, ← signed_tdiv, ← toInt_eq_signed,
    ← toInt_eq_signed]

/-- The saturated result, as the statements write it. -/
theorem saturated_eq_ofNat (n : Bool) : saturated n = BitVec.ofNat 256 (if n = true then 2 ^ 255 else maxNat) := by
  cases n <;> rfl

/-- The integer part of the saturated result (R171, R213). -/
theorem saturated_integerPart (n : Bool) :
    (saturated n).toInt.tdiv (2 ^ 128) = if n = true then -2 ^ 127 else 2 ^ 127 - 1 := by
  cases n <;> decide

section quotient

variable {a b : Value}

theorem fxDiv_of_zero (hb : b.toInt = 0) :
    fxDiv a b = (BitVec.ofNat 256 (if a.toInt < 0 then 2 ^ 255 else maxNat), [.dz]) := by
  simp only [fxDiv, if_pos ((toInt_eq_zero_iff b).1 hb), saturated_eq_ofNat, isNeg_iff_toInt_neg]

/-- A divisor other than 0, with the exact quotient in the place of its sign and magnitude. -/
theorem fxDiv_of_toInt_ne_zero (hb : b.toInt ≠ 0) : fxDiv a b =
    if maxNat < (exactQuotient a b).natAbs then (saturated (isNeg a != isNeg b), [.ovf])
    else (BitVec.ofInt 256 (exactQuotient a b), []) := by
  rw [fxDiv_of_ne_zero a b (mt (toInt_eq_zero_iff b).2 hb), ite_neg_eq_ofInt_signed, exactQuotient_eq_signed,
    natAbs_signed]
  rfl

theorem fxDiv_of_fits (hb : b.toInt ≠ 0) (h : (exactQuotient a b).natAbs ≤ maxNat) :
    fxDiv a b = (BitVec.ofInt 256 (exactQuotient a b), []) := by
  rw [fxDiv_of_toInt_ne_zero hb, if_neg (Nat.not_lt.2 h)]

/-- A quotient that overflows is not 0, so its sign is that of the operands' sign bits. -/
theorem fxDiv_of_overflow (hb : b.toInt ≠ 0) (h : maxNat < (exactQuotient a b).natAbs) :
    fxDiv a b = (saturated (exactQuotient a b < 0), [.ovf]) := by
  have hsign : (isNeg a != isNeg b) = decide (exactQuotient a b < 0) := by
    rw [exactQuotient_eq_signed, natAbs_signed] at h
    rw [exactQuotient_eq_signed, Bool.eq_iff_iff, decide_eq_true_iff, signed_lt_zero_iff]
    exact (and_iff_left (Nat.ne_zero_of_lt h)).symm
  rw [fxDiv_of_toInt_ne_zero hb, if_pos h, hsign]

/-! The remainder (43_muldiv R171). -/

theorem fxMod_of_zero (hb : b.toInt = 0) : fxMod a b = fxDiv a b := by
  have hzero := (toInt_eq_zero_iff b).1 hb
  rw [fxMod, fxDiv, if_pos hzero, if_pos hzero]

/-- The integer part of the quotient is multiplied back exactly. -/
theorem fxMod_of_ne_zero (hb : b.toInt ≠ 0) : fxMod a b =
    (BitVec.ofInt 256 (a.toInt - (fxDiv a b).1.toInt.tdiv (2 ^ 128) * b.toInt), (fxDiv a b).2) := by
  rw [fxMod, if_neg (mt (toInt_eq_zero_iff b).2 hb)]
  dsimp only
  rw [fxMul_of_integer _ b _ (toInt_trunc0 _), Int.sub_eq_add_neg, BitVec.ofInt_add, BitVec.ofInt_neg,
    BitVec.ofInt_toInt, BitVec.sub_eq_add_neg]

theorem fxMod_of_fits (hb : b.toInt ≠ 0) (h : (exactQuotient a b).natAbs ≤ maxNat) :
    fxMod a b = (BitVec.ofInt 256 (a.toInt.tmod b.toInt), []) := by
  have hquot : (BitVec.ofInt 256 (exactQuotient a b)).toInt = exactQuotient a b := by
    rw [maxNat] at h
    exact BitVec.toInt_ofInt_eq_self (by decide) (by omega) (by omega)
  rw [fxMod_of_ne_zero hb, fxDiv_of_fits hb h]
  dsimp only
  rw [hquot, exactQuotient_tdiv, Int.tmod_def, mul_comm]

theorem fxMod_of_overflow (hb : b.toInt ≠ 0) (h : maxNat < (exactQuotient a b).natAbs) :
    fxMod a b = (BitVec.ofInt 256
      (a.toInt - (if exactQuotient a b < 0 then -2 ^ 127 else 2 ^ 127 - 1) * b.toInt), [.ovf]) := by
  rw [fxMod_of_ne_zero hb, fxDiv_of_overflow hb h]
  simp only [saturated_integerPart, decide_eq_true_iff]

end quotient

/-! Words whose field checks fail (30_encoding R86). -/

/-- UMUL has no selector above 3. -/
theorem umulHalves_eq_none : ∀ k : BitVec 8, 3 < k.toNat → umulHalves k = none := by decide

theorem decode_umul_eq_error (d a b f : BitVec 4) (k : BitVec 8) (h : f ≠ 0 ∨ 3 < k.toNat) :
    decode (formatR .umul d a b f k) = .error .field := by
  refine decode_eq_error_field_of_decodeFields _ .umul (by simp) ?_
  obtain hf | hk := h
  · simp only [decodeFields, fieldC_formatR, if_neg hf]
  · simp [decodeFields, umulHalves_eq_none k hk]

theorem decode_udiv_eq_error (d a b f : BitVec 4) (k : BitVec 8) (h : f ≠ 0 ∨ 1 < k.toNat) :
    decode (formatR .udiv d a b f k) = .error .field := by
  refine decode_eq_error_field_of_decodeFields _ .udiv (by simp) ?_
  obtain hf | hk := h
  · simp only [decodeFields, fieldC_formatR, if_neg hf]
  · simp [decodeFields, ofSel_eq_none k hk]

/-! What the commands answer. -/

/-- A value written with the flags its computation gave, as an effect. -/
theorem setV_setFlags_writesV_of_eq (s : State) (d : VReg) {r : Value × List Flag} {w : Value} {fs : List Flag}
    (h : r = (w, fs)) : WritesV d w (flagBits fs) s ((s.setV d r.1).setFlags r.2) := by
  rw [h]
  exact setV_setFlags_writesV s d w fs

section exec

variable (s : State) (d a b : BitVec 4)

theorem exec_umul (ha hb : Half) :
    exec (.umul d a b ha hb) s = .next (s.setV d (wideMul (half ha (s.getV a)) (half hb (s.getV b)))) := rfl

theorem exec_udiv (h : Half) : exec (.udiv d a b h) s =
    if half h (s.getV b) = 0 ∨ (hi (s.getV a)).toNat ≥ (half h (s.getV b)).toNat then
      trap (.udiv d a b h) .divPrecond s
    else .next (s.setV d (u256 ((s.getV a).toNat % (half h (s.getV b)).toNat * 2 ^ 128 +
      (s.getV a).toNat / (half h (s.getV b)).toNat))) := rfl

theorem exec_mul : exec (.mul d a b) s = .next (s.setV d (fxMul (s.getV a) (s.getV b))) := rfl

theorem exec_div : exec (.div d a b) s =
    .next ((s.setV d (fxDiv (s.getV a) (s.getV b)).1).setFlags (fxDiv (s.getV a) (s.getV b)).2) := rfl

theorem exec_mod : exec (.mod d a b) s =
    .next ((s.setV d (fxMod (s.getV a) (s.getV b)).1).setFlags (fxMod (s.getV a) (s.getV b)).2) := rfl

end exec

/-- UDIV's check (R163), on the numbers the registers hold. -/
theorem udiv_precond_iff (h : Half) (n v : Value) : half h v = 0 ∨ (hi n).toNat ≥ (half h v).toNat ↔
    (half h v).toNat = 0 ∨ (half h v).toNat ≤ n.toNat / 2 ^ 128 := by
  have hhi : (hi n).toNat = n.toNat / 2 ^ 128 := toNat_half .hi n
  rw [hhi, ← BitVec.toNat_inj, ge_iff_le]
  rfl

/-- Settles O41, by the exact product of the chosen halves and the field and selector checks. -/
theorem umulWritesTheExactProduct : Obligations.UmulWritesTheExactProduct := by
  intro d a b ha hb s x y
  have hprod : (wideMul (half ha (s.getV a)) (half hb (s.getV b))).toNat = x * y := by
    rw [toNat_wideMul, toNat_half, toNat_half]
  have hword : encode (.umul d a b ha hb) =
      wordR 0x40 d a b 0 (BitVec.ofNat 8 ((if ha = .hi then 1 else 0) + (if hb = .hi then 2 else 0))) := by
    cases ha <;> cases hb <;> rfl
  exact ⟨hword, decode_umul_eq_error d a b, _, _, exec_umul s d a b ha hb, setV_writesV s d _, hprod⟩

/-- Settles O42, by the two outcomes of the check on the divisor. -/
theorem udivDividesOrFaults : Obligations.UdivDividesOrFaults := by
  intro d a b h s n q w
  have hword : encode (.udiv d a b h) = w := by cases h <;> rfl
  have hq : (half h (s.getV b)).toNat = q := toNat_half h (s.getV b)
  have hcheck : half h (s.getV b) = 0 ∨ (hi (s.getV a)).toNat ≥ (half h (s.getV b)).toNat ↔
      q = 0 ∨ q ≤ n / 2 ^ 128 := by
    rw [udiv_precond_iff, hq]
  refine ⟨hword, decode_udiv_eq_error d a b, fun hlt => ?quotient, fun hbad => ?fault⟩
  case quotient =>
    have hpos : 0 < q := Nat.zero_lt_of_lt hlt
    have hmod : n % q < 2 ^ 128 := (Nat.mod_lt n hpos).trans (hq ▸ (half h (s.getV b)).isLt)
    rw [exec_udiv, if_neg (mt hcheck.1 (not_or.2 ⟨hpos.ne', Nat.not_le.2 hlt⟩)), hq]
    exact ⟨_, _, rfl, setV_writesV s d _, toNat_u256_halves hmod (div_lt_of_hi_lt hlt)⟩
  case fault =>
    rw [exec_udiv, if_pos (hcheck.2 hbad), ← hword]
    exact trap_faulted s (.udiv d a b h) .divPrecond

/-- Settles O43, by `FxMul` as an integer. -/
theorem mulRoundsHalfAwayFromZero : Obligations.MulRoundsHalfAwayFromZero := by
  intro d a b s x y m
  have hmul := exec_mul s d a b
  rw [fxMul_eq_ofInt] at hmul
  exact ⟨rfl, exec_writesV hmul⟩

/-- Settles O44: one clause for each case of `FxDiv`. -/
theorem divTruncatesAndSaturates : Obligations.DivTruncatesAndSaturates := by
  intro d a b s x y q
  refine ⟨rfl, _, exec_div s d a b, fun hy => ?zero, fun hy hq => ?overflow, fun hy hq => ?fits⟩
  case zero => exact setV_setFlags_writesV_of_eq s d (fxDiv_of_zero hy)
  case overflow =>
    have hdiv := fxDiv_of_overflow (a := s.getV a) hy hq
    simp only [saturated_eq_ofNat, decide_eq_true_iff] at hdiv
    exact setV_setFlags_writesV_of_eq s d hdiv
  case fits => exact setV_setFlags_writesV_of_eq s d (fxDiv_of_fits hy hq)

/-- Settles O45: one clause for each case of the quotient. -/
theorem modIsTheTruncatedRemainder : Obligations.ModIsTheTruncatedRemainder := by
  intro d a b s x y q
  refine ⟨rfl, _, exec_mod s d a b, fun hy => ?zero, fun hy hq => ?overflow, fun hy hq => ?fits⟩
  case zero => exact setV_setFlags_writesV_of_eq s d ((fxMod_of_zero hy).trans (fxDiv_of_zero hy))
  case overflow => exact setV_setFlags_writesV_of_eq s d (fxMod_of_overflow hy hq)
  case fits => exact setV_setFlags_writesV_of_eq s d (fxMod_of_fits hy hq)

end Sys2Proof.Machine
end

section
/-! PROOFS. What SQRT and RSQRT answer (spec/44_sqrt_rsqrt.md): their seeds and their steps on the numbers the values hold, and
the loop as seven of those steps. -/

namespace Sys2Proof.Machine

open Sys2Proof.Statements

/-! Values as numbers. -/

theorem toNat_u256_of_lt {n : Nat} (h : n < 2 ^ 256) : (u256 n).toNat = n := by
  rw [u256, BitVec.toNat_ofNat, Nat.mod_eq_of_lt h]

/-- A value is known from its number. -/
theorem eq_ofNat_of_toNat_eq {v : Value} {n : Nat} (h : v.toNat = n) : v = BitVec.ofNat 256 n := by
  rw [← h, BitVec.ofNat_toNat, BitVec.setWidth_eq]

theorem isNeg_iff_le_toNat (v : Value) : isNeg v = true ↔ 2 ^ 255 ≤ v.toNat := by
  rw [isNeg, BitVec.msb_eq_decide, decide_eq_true_iff]

theorem isNeg_eq_false_iff (v : Value) : isNeg v = false ↔ v.toNat < 2 ^ 255 := by
  rw [← Bool.not_eq_true, isNeg_iff_le_toNat, Nat.not_le]

theorem toNat_shr (v : Value) {n : Nat} (h : n < 256) : (shr v n).toNat = v.toNat / 2 ^ n := by
  rw [shr_eq_ofNat_div v h, BitVec.toNat_ofNat, Nat.mod_eq_of_lt ((Nat.div_le_self ..).trans_lt v.isLt)]

/-! Halves of a value, and where its highest one bit stands. -/

theorem toNat_hi (v : Value) : (hi v).toNat = v.toNat / 2 ^ 128 := toNat_half .hi v

theorem toNat_lo_of_lt {v : Value} (h : v.toNat < 2 ^ 128) : (lo v).toNat = v.toNat :=
  (toNat_half .lo v).trans (Nat.mod_eq_of_lt h)

theorem hi_ne_zero_iff (v : Value) : hi v ≠ 0 ↔ 2 ^ 128 ≤ v.toNat := by
  rw [Ne, ← BitVec.toNat_inj, toNat_hi, BitVec.ofNat_eq_ofNat, BitVec.toNat_ofNat, Nat.zero_mod]
  omega

theorem clz128_hi_add_log2 {v : Value} (h : 2 ^ 128 ≤ v.toNat) :
    clz128 (hi v) + Nat.log2 (v.toNat / 2 ^ 128) = 127 := by
  rw [← toNat_hi]
  exact clz128_add_log2 _ (by rw [toNat_hi]; omega)

theorem clz128_lo_add_log2 {v : Value} (h0 : v.toNat ≠ 0) (h : v.toNat < 2 ^ 128) :
    clz128 (lo v) + Nat.log2 v.toNat = 127 := by
  rw [← toNat_lo_of_lt h] at h0 ⊢
  exact clz128_add_log2 _ h0

/-! The iteration cap (00_scope R5). -/

theorem nrIters_eq : Config.nrIters = 7 := rfl

/-! The square root (R190). -/

/-- The seed is not negative: a value below ONE is shifted left by at most 64. -/
theorem sqrtStart_lt {x : Nat} (h : x < 2 ^ 255) : sqrtStart x < 2 ^ 255 := by
  unfold sqrtStart
  split
  · exact (Nat.div_le_self ..).trans_lt h
  · next hlow =>
    calc x * 2 ^ ((128 - Nat.log2 x) / 2)
        ≤ x * 2 ^ 64 := Nat.mul_le_mul_left _ (Nat.pow_le_pow_right (by decide) (by omega))
      _ < 2 ^ 255 := by omega

theorem toNat_sqrtSeed {x : Value} (h0 : x.toNat ≠ 0) (h : x.toNat < 2 ^ 255) :
    (sqrtSeed x).toNat = sqrtStart x.toNat := by
  have hlt := sqrtStart_lt h
  unfold sqrtSeed
  unfold sqrtStart at hlt ⊢
  simp only [hi_ne_zero_iff]
  split
  · next hhigh =>
    have hclz := clz128_hi_add_log2 hhigh
    have hamount : (127 - clz128 (hi x)) / 2 = Nat.log2 (x.toNat / 2 ^ 128) / 2 := by omega
    rw [hamount, toNat_shr x (by omega)]
  · next hlow =>
    have hclz := clz128_lo_add_log2 h0 (Nat.not_le.1 hlow)
    have hamount : (1 + clz128 (lo x)) / 2 = (128 - Nat.log2 x.toNat) / 2 := by omega
    rw [if_neg hlow] at hlt
    rw [hamount, shl_eq_ofNat_mul x (by omega), BitVec.toNat_ofNat, Nat.mod_eq_of_lt (by omega)]

/-- Operands that are not negative are their own magnitudes, so the quotient saturates at MAX alone (43_muldiv R168). -/
theorem toNat_fxDiv {x e : Value} (hx : x.toNat < 2 ^ 255) (he : e.toNat < 2 ^ 255) :
    (fxDiv x e).1.toNat = quotient x.toNat e.toNat := by
  have hxpos := (isNeg_eq_false_iff x).2 hx
  have hepos := (isNeg_eq_false_iff e).2 he
  have hmax : (saturated false).toNat = maxNat := by decide
  by_cases h0 : e = 0
  · simp [fxDiv, quotient, h0, hxpos, hmax]
  · have hne : e.toNat ≠ 0 := fun h => h0 (BitVec.eq_of_toNat_eq h)
    simp only [fxDiv_of_ne_zero x e h0, abs, hxpos, hepos, Bool.bne_false, Bool.false_eq_true, if_false,
      quotient, if_neg hne]
    split
    · next hover => exact hmax.trans (Nat.min_eq_right (Nat.le_of_lt hover)).symm
    · next hfits => exact (toNat_u256_of_lt (by omega)).trans (Nat.min_eq_left (Nat.not_lt.1 hfits)).symm

theorem toNat_sqrtStep {x e : Value} (hx : x.toNat < 2 ^ 255) (he : e.toNat < 2 ^ 255) :
    (sqrtStep x e).toNat = sqrtNext x.toNat e.toNat := by
  rw [sqrtStep, toNat_shr _ (by decide), BitVec.toNat_add, toNat_fxDiv hx he, sqrtNext, pow_one]

/-- The halving clears the sign bit, so no iterate is negative. -/
theorem sqrtNext_lt (x e : Nat) : sqrtNext x e < 2 ^ 255 := by
  unfold sqrtNext
  omega

theorem toNat_iterate_sqrtStep {x : Value} (hx : x.toNat < 2 ^ 255) (n : Nat) : ∀ e : Value, e.toNat < 2 ^ 255 →
    ((sqrtStep x)^[n] e).toNat = (sqrtNext x.toNat)^[n] e.toNat := by
  induction n with
  | zero => exact fun _ _ => rfl
  | succ n ih =>
    intro e he
    have hstep := toNat_sqrtStep hx he
    rw [Function.iterate_succ_apply, Function.iterate_succ_apply, ih _ (hstep ▸ sqrtNext_lt _ _), hstep]

/-! The three cases of `FxSqrt`. -/

theorem fxSqrt_of_neg {x : Value} (h : 2 ^ 255 ≤ x.toNat) : fxSqrt x = (BitVec.ofNat 256 (2 ^ 255), [.inv]) := by
  rw [fxSqrt, if_pos ((isNeg_iff_le_toNat x).2 h)]
  rfl

theorem fxSqrt_of_zero {x : Value} (h : x.toNat = 0) : fxSqrt x = (0, []) := by
  have hneg := ne_true_of_eq_false ((isNeg_eq_false_iff x).2 (by omega))
  rw [fxSqrt, if_neg hneg, if_pos (BitVec.eq_of_toNat_eq h)]

theorem fxSqrt_of_pos {x : Value} (h0 : 0 < x.toNat) (h : x.toNat < 2 ^ 255) :
    fxSqrt x = (BitVec.ofNat 256 ((sqrtNext x.toNat)^[7] (sqrtStart x.toNat)), []) := by
  have hneg := ne_true_of_eq_false ((isNeg_eq_false_iff x).2 h)
  have hne : x ≠ 0 := fun hx => by simp [hx] at h0
  have hseed := toNat_sqrtSeed (Nat.ne_of_gt h0) h
  have hiter := toNat_iterate_sqrtStep h 7 (sqrtSeed x) (hseed ▸ sqrtStart_lt h)
  rw [hseed] at hiter
  rw [fxSqrt, if_neg hneg, if_neg hne, newton_eq_iterate, nrIters_eq, eq_ofNat_of_toNat_eq hiter]

/-! The reciprocal square root (R193, R194). -/

theorem toNat_rsqrtSeed {x : Value} (h0 : x.toNat ≠ 0) : (rsqrtSeed x).toNat = rsqrtStart x.toNat := by
  unfold rsqrtSeed rsqrtStart
  simp only [hi_ne_zero_iff]
  split
  · next hhigh =>
    have hclz := clz128_hi_add_log2 hhigh
    have hbit : (128 + clz128 (hi x)) / 2 = (255 - Nat.log2 (x.toNat / 2 ^ 128)) / 2 := by omega
    rw [hbit, toNat_u256_of_lt (Nat.pow_lt_pow_right (by decide) (by omega))]
  · next hlow =>
    have hclz := clz128_lo_add_log2 h0 (Nat.not_le.1 hlow)
    have hbit : 128 + clz128 (lo x) / 2 = 128 + (127 - Nat.log2 x.toNat) / 2 := by omega
    rw [hbit, toNat_u256_of_lt (Nat.pow_lt_pow_right (by decide) (by omega))]

theorem toNat_fxMulU (v w : Value) : (fxMulU v w).toNat = Statements.roundedProduct v.toNat w.toNat := by
  rw [fxMulU, u256, BitVec.toNat_ofNat, div_add_bit_eq_div_add_half, Statements.roundedProduct]

theorem toNat_threeHalves_sub (v : Value) :
    (threeHalves - v).toNat = (2 ^ 128 + 2 ^ 127 + (2 ^ 256 - v.toNat)) % 2 ^ 256 := by
  have hconst : threeHalves.toNat = 2 ^ 128 + 2 ^ 127 := by decide
  rw [BitVec.toNat_sub, hconst, Nat.add_comm]

theorem toNat_rsqrtStep (xh e : Value) : (rsqrtStep xh e).toNat = rsqrtNext xh.toNat e.toNat := by
  simp only [rsqrtStep, rsqrtNext, toNat_fxMulU, toNat_threeHalves_sub]

/-! The two cases of `FxRsqrt`. -/

theorem fxRsqrt_of_not_pos {x : Value} (h : 2 ^ 255 ≤ x.toNat ∨ x.toNat = 0) :
    fxRsqrt x = (BitVec.ofNat 256 (2 ^ 255), [.inv]) := by
  have hcase : isNeg x = true ∨ x = 0 := h.imp (isNeg_iff_le_toNat x).2 (BitVec.eq_of_toNat_eq ·)
  rw [fxRsqrt, if_pos hcase]
  rfl

theorem fxRsqrt_of_pos {x : Value} (h0 : 0 < x.toNat) (h : x.toNat < 2 ^ 255) :
    fxRsqrt x = (BitVec.ofNat 256 ((rsqrtNext (x.toNat / 2))^[7] (rsqrtStart x.toNat)), []) := by
  have hneg := ne_true_of_eq_false ((isNeg_eq_false_iff x).2 h)
  have hne : x ≠ 0 := fun hx => by simp [hx] at h0
  have hhalf : (shr x 1).toNat = x.toNat / 2 := toNat_shr x (by decide)
  have hiter := Function.Semiconj.iterate_right (f := BitVec.toNat) (toNat_rsqrtStep (shr x 1)) 7 (rsqrtSeed x)
  rw [hhalf, toNat_rsqrtSeed (Nat.ne_of_gt h0)] at hiter
  rw [fxRsqrt, if_neg (not_or.2 ⟨hneg, hne⟩), newton_eq_iterate, nrIters_eq, eq_ofNat_of_toNat_eq hiter]

/-! What the commands answer. -/

section exec

variable (s : State) (d a : VReg)

theorem exec_sqrt : exec (.sqrt d a) s =
    .next ((s.setV d (fxSqrt (s.getV a)).1).setFlags (fxSqrt (s.getV a)).2) := rfl

theorem exec_rsqrt : exec (.rsqrt d a) s =
    .next ((s.setV d (fxRsqrt (s.getV a)).1).setFlags (fxRsqrt (s.getV a)).2) := rfl

end exec

/-- Settles O46: one clause for each case of `FxSqrt`. -/
theorem sqrtGivesTheSeventhIterate : Obligations.SqrtGivesTheSeventhIterate := by
  intro d a s x
  refine ⟨rfl, _, exec_sqrt s d a, fun hneg => ?negative, fun hzero => ?zero, fun hpos hlt => ?positive⟩
  case negative => exact setV_setFlags_writesV_of_eq s d (fxSqrt_of_neg hneg)
  case zero => exact setV_setFlags_writesV_of_eq s d (fxSqrt_of_zero hzero)
  case positive => exact setV_setFlags_writesV_of_eq s d (fxSqrt_of_pos hpos hlt)

/-- Settles O47: one clause for each case of `FxRsqrt`. -/
theorem rsqrtGivesTheSeventhIterate : Obligations.RsqrtGivesTheSeventhIterate := by
  intro d a s x
  refine ⟨rfl, _, exec_rsqrt s d a, fun hnot => ?notPositive, fun hpos hlt => ?positive⟩
  case notPositive => exact setV_setFlags_writesV_of_eq s d (fxRsqrt_of_not_pos hnot)
  case positive => exact setV_setFlags_writesV_of_eq s d (fxRsqrt_of_pos hpos hlt)

end Sys2Proof.Machine
end

section
/-! PROOFS. What FLOOR, CEIL and ROUND answer (spec/45_rounding.md): ROUND's threshold on the fractional half as rounding the
magnitude half up. FLOOR's and CEIL's functions as integers stand with MOD's truncation above. -/

namespace Sys2Proof.Machine

/-! ROUND's function as an integer (45_rounding R212). -/

theorem natCast_toNat_lo (v : Value) : ((lo v).toNat : Int) = v.toInt % 2 ^ 128 := by
  have hlo := (lo v).isLt
  rw [toInt_eq_hi_lo]
  omega

/-- The nearest multiple of 2^128, half away from zero, as a count of 2^128. -/
def roundHalfAway (z : Int) : Int := signed (decide (z < 0)) ((z.natAbs + 2 ^ 127) / 2 ^ 128)

/-- Rounding the magnitude half up is the floor, plus 1 from a threshold on that is one above the half for a negative number. -/
theorem roundHalfAway_eq_ediv_add (z : Int) :
    roundHalfAway z = z / 2 ^ 128 + if 2 ^ 127 + (if z < 0 then 1 else 0) ≤ z % 2 ^ 128 then 1 else 0 := by
  by_cases h : z < 0
  · rw [roundHalfAway, decide_eq_true h, signed_true, if_pos h]
    split <;> omega
  · rw [roundHalfAway, decide_eq_false h, signed_false, if_neg h]
    split <;> omega

/-- ROUND's comparison of the fractional half with its threshold, on the signed value. -/
theorem round_threshold_iff (v : Value) : 2 ^ 127 + (if isNeg v then 1 else 0) ≤ (lo v).toNat ↔
    2 ^ 127 + (if v.toInt < 0 then 1 else 0) ≤ v.toInt % 2 ^ 128 := by
  rw [← natCast_toNat_lo]
  simp only [isNeg_iff_toInt_neg]
  split <;> omega

/-- The increment of the integer half wraps with the value: 2^128 steps of the half are 2^256 of the value. -/
theorem ofHalves_hi_add_bit (v : Value) (p : Prop) [Decidable p] :
    ofHalves (hi v + if p then 1 else 0) 0 = BitVec.ofInt 256 ((v.toInt / 2 ^ 128 + if p then 1 else 0) * 2 ^ 128) := by
  have hbit : (if p then 1 else 0 : BitVec 128) = BitVec.ofInt 128 (if p then 1 else 0) := by split <;> rfl
  rw [hi_eq_ofInt, hbit, ← BitVec.ofInt_add, ofHalves_ofInt_zero]

/-- ROUND's function as an integer (R212). -/
theorem round_eq_ofInt (v : Value) : round v = BitVec.ofInt 256 (roundHalfAway v.toInt * 2 ^ 128) := by
  rw [round, ofHalves_hi_add_bit, roundHalfAway_eq_ediv_add]
  simp only [round_threshold_iff]

/-! What the commands answer. -/

section exec

variable (s : State) (d a : VReg)

theorem exec_floor :
    exec (.floor d a) s = .next (s.setV d (BitVec.ofInt 256 ((s.getV a).toInt / 2 ^ 128 * 2 ^ 128))) := by
  rw [← floor_eq_ofInt]
  rfl

theorem exec_ceil :
    exec (.ceil d a) s = .next (s.setV d (BitVec.ofInt 256 (-(-(s.getV a).toInt / 2 ^ 128) * 2 ^ 128))) := by
  rw [← ceil_eq_ofInt]
  rfl

theorem exec_round :
    exec (.round d a) s = .next (s.setV d (BitVec.ofInt 256 (roundHalfAway (s.getV a).toInt * 2 ^ 128))) := by
  rw [← round_eq_ofInt]
  rfl

end exec

/-- Settles O48, by the three functions as integers mod 2^256. -/
theorem roundingCommands : Obligations.RoundingCommands := by
  intro d a s z m
  have hsign : roundHalfAway z = if z < 0 then -m else m := by
    simp only [roundHalfAway, signed, decide_eq_true_iff, m]
  have hround := exec_round s d a
  rw [hsign] at hround
  exact ⟨rfl, rfl, rfl, exec_writesV (exec_floor s d a), exec_writesV (exec_ceil s d a), exec_writesV hround⟩

end Sys2Proof.Machine
end

section
/-! PROOFS. What FMTPARSE answers (spec/46_format.md R232, R233): the record of a format string read part by part, and where
the parse of any string stops. -/

namespace Sys2Proof.Machine

open Sys2Proof.Statements

variable (s : State)

/-! The record as control registers (46_format R233). -/

theorem recordFmtctl_eq_ofNat (fr : FormatRecord) : recordFmtctl fr = BitVec.ofNat 5 (fr.sign.code +
    (if fr.zeroPad then 4 else 0) + (if fr.alwaysDecimal then 8 else 0) + (if fr.leftAlign then 16 else 0)) := by
  have hbit (k : Nat) (b : Bool) : k * b.toNat = if b then k else 0 := by cases b <;> simp
  simp only [recordFmtctl, hbit]

theorem exec_fmtparse_of_ok (a : XReg) {fr : FormatRecord} (h : s.formatParse (s.getX a).toNat = .ok fr) :
    exec (.fmtparse a) s = .next (s.setRecord fr) := by
  rw [show exec (.fmtparse a) s = execFmtparse a s from rfl, execFmtparse, h]

theorem exec_fmtparse_of_error (a : XReg) {q : Nat} (h : s.formatParse (s.getX a).toNat = .error q) :
    exec (.fmtparse a) s = trap (.fmtparse a) (s.rangeTrap q) s := by
  rw [show exec (.fmtparse a) s = execFmtparse a s from rfl, execFmtparse, h]

/-! Where the parse stops when the string runs off DMEM (46_format R232). -/

theorem memByte_error_eq_max {p q : Nat} (h : s.memByte p = .error q) : q = max p s.dmemSize := by
  have := s.memByte_error p q h
  omega

theorem scanPrecision_error {p q : Nat} {fr : FormatRecord} (h : s.scanPrecision p fr = .error q) :
    q = max p s.dmemSize := by
  unfold State.scanPrecision at h
  split at h
  · next hbyte =>
    cases h
    exact memByte_error_eq_max s hbyte
  · next hbyte =>
    have hin := s.memByte_ok_lt p _ hbyte
    split at h
    · split at h
      · next hscan =>
        cases h
        have := (s.scanNumber_end _ (p + 1) 0 rfl).2 _ hscan
        omega
      · cases h
    · cases h

theorem skipPercent_ok {a p : Nat} (h : s.skipPercent a = .ok p) : a < s.dmemSize ∧ a ≤ p ∧ p ≤ a + 1 := by
  unfold State.skipPercent at h
  split at h
  · cases h
  · next hbyte =>
    have hin := s.memByte_ok_lt a _ hbyte
    cases h
    split <;> omega

theorem skipPercent_error {a q : Nat} (h : s.skipPercent a = .error q) : q = max a s.dmemSize := by
  unfold State.skipPercent at h
  split at h
  · next hbyte =>
    cases h
    exact memByte_error_eq_max s hbyte
  · cases h

/-- The parse fails at the first byte outside DMEM from its start on: every scan begins where the one before stopped, inside
DMEM or at its end. -/
theorem formatParse_error {a q : Nat} (h : s.formatParse a = .error q) : q = max a s.dmemSize := by
  unfold State.formatParse at h
  split at h
  · next hskip =>
    cases h
    exact skipPercent_error s hskip
  next p hskip =>
  obtain ⟨hin, hle, hle'⟩ := skipPercent_ok s hskip
  obtain ⟨flags_ok, flags_error⟩ := s.scanFlags_end (s.dmemSize - p) p defaultRecord rfl
  split at h
  · next hflags =>
    cases h
    have := flags_error _ hflags
    omega
  next fp hflags =>
  have hfp := flags_ok _ hflags
  obtain ⟨width_ok, width_error⟩ := s.scanNumber_end (s.dmemSize - fp.2) fp.2 0 rfl
  split at h
  · next hwidth =>
    cases h
    have := width_error _ hwidth
    omega
  next wp hwidth =>
  have hwp := width_ok _ hwidth
  have := scanPrecision_error s h
  omega

/-- Settles O52: the record written field by field, or the range trap at the address the parse reports. -/
theorem fmtparseCompletesOrFaults : Obligations.FmtparseCompletesOrFaults := by
  intro a s
  refine ⟨fun fr h => ?record, fun q h => ?fault⟩
  case record =>
    rw [exec_fmtparse_of_ok s a h, State.setRecord, recordFmtctl_eq_ofNat]
    rfl
  case fault =>
    have hq := formatParse_error s h
    have hmax : max q s.dmemSize = q := by omega
    obtain ⟨t, ht, hfault⟩ := trap_faulted s (.fmtparse a) (s.rangeTrap q)
    rw [State.rangeTrap, hmax] at hfault
    exact ⟨hq, t, (exec_fmtparse_of_error s a h).trans ht, hfault⟩

/-! A string in DMEM, read byte by byte. -/

/-- Bytes that stand inside DMEM are bytes the parser reads (46_format R232). -/
theorem bytesAt_of_stringAt (bs : List Byte) : ∀ p, StringAt s p bs → s.BytesAt p bs := by
  induction bs with
  | nil => exact fun _ _ => trivial
  | cons b bs ih =>
    intro p h
    obtain ⟨hin, hread⟩ := h
    rw [List.length_cons] at hin
    refine ⟨?head, ih (p + 1) ⟨by omega, fun i hi => ?tail⟩⟩
    case head =>
      rw [memByte_of_lt s p (by omega), show s.mem.read p = b from hread 0 (Nat.zero_lt_succ _)]
    case tail =>
      rw [Nat.add_right_comm p 1 i]
      exact hread (i + 1) (Nat.succ_lt_succ hi)

/-- Bytes up to a readable one leave room for a scan of all of them. -/
theorem length_lt_of_bytesAt {p : Nat} {bs : List Byte} {c : Byte} (h : s.BytesAt p (bs ++ [c])) :
    bs.length < s.dmemSize - p := by
  rw [s.bytesAt_append, s.bytesAt_singleton] at h
  have := s.memByte_ok_lt _ _ h.2
  omega

/-! Decimal digits. -/

theorem isDecimal_asciiDigit {x : Nat} (h : x ≤ 9) : isDecimal (asciiDigit x) = true ∧ (asciiDigit x).toNat - 0x30 = x := by
  simp only [isDecimal, asciiDigit, BitVec.toNat_ofNat, decide_eq_true_eq]
  omega

/-- A byte that is no digit's is no decimal digit. -/
theorem isDecimal_eq_false {c : Byte} (h : ∀ x, x ≤ 9 → asciiDigit x ≠ c) : isDecimal c = false := by
  by_contra hdec
  simp only [isDecimal, decide_eq_true_eq, Bool.not_eq_false] at hdec
  refine h (c.toNat - 0x30) (by omega) (BitVec.eq_of_toNat_eq ?_)
  simp only [asciiDigit, BitVec.toNat_ofNat]
  omega

/-- Saturating at every digit is saturating at the end (46_format R232). -/
theorem foldl_saturating (M : Nat) (ds : List Nat) : ∀ n, ds.foldl (fun n d => min M (10 * n + d)) (min M n) =
    min M (ds.foldl (fun n d => n * 10 + d) n) := by
  induction ds with
  | nil => exact fun _ => rfl
  | cons d ds ih =>
    intro n
    have hstep : min M (10 * min M n + d) = min M (n * 10 + d) := by omega
    rw [List.foldl_cons, List.foldl_cons, hstep, ih]

/-- A decimal number in front of a byte that is no digit, saturated (46_format R232). -/
theorem scanNumber_asciiDigits {ds : List Nat} {c : Byte} {p : Nat} (hds : ∀ x ∈ ds, x ≤ 9) (hc : isDecimal c = false)
    (h : s.BytesAt p (ds.map asciiDigit ++ [c])) :
    s.scanNumber (s.dmemSize - p) p 0 = .ok (min (2 ^ 31 - 1) (digitsValue 10 ds), p + ds.length) := by
  have hroom := length_lt_of_bytesAt s h
  have hdigits : ∀ d ∈ ds.map fun x => (asciiDigit x, x), isDecimal d.1 = true ∧ d.1.toNat - 0x30 = d.2 := by
    simpa using fun x hx => isDecimal_asciiDigit (hds x hx)
  have hbytes : (ds.map fun x => (asciiDigit x, x)).map Prod.fst = ds.map asciiDigit := by rw [List.map_map]; rfl
  have hnumbers : (ds.map fun x => (asciiDigit x, x)).map Prod.snd = ds := by rw [List.map_map]; exact List.map_id ds
  rw [s.scanNumber_eq (ds.map fun x => (asciiDigit x, x)) c hc _ p 0 hdigits (hbytes ▸ h) (by simpa using hroom), hnumbers,
    List.length_map]
  exact congrArg (fun n => Except.ok (n, p + ds.length)) (foldl_saturating (2 ^ 31 - 1) ds 0)

/-! Flag characters. -/

/-- The five flag characters: ' ', '+', '0', '-' and '#' (46_format R232). -/
def flagBytes : List Byte := [32#8, 43#8, 48#8, 45#8, 35#8]

theorem flagChar_isSome_iff (fr : FormatRecord) (c : Byte) : (flagChar fr c).isSome = true ↔ c ∈ flagBytes := by
  simp only [flagChar, flagBytes, List.mem_cons, List.not_mem_nil, or_false]
  split_ifs <;> simp_all

/-- The record with the flags of a list set in it, Plus over Space (46_format R232). -/
def withFlags (fr : FormatRecord) (fs : List Byte) : FormatRecord :=
  { fr with
    sign := if fr.sign = .plus ∨ 43#8 ∈ fs then .plus else if 32#8 ∈ fs then .space else fr.sign
    zeroPad := fr.zeroPad || decide (48#8 ∈ fs)
    alwaysDecimal := fr.alwaysDecimal || decide (35#8 ∈ fs)
    leftAlign := fr.leftAlign || decide (45#8 ∈ fs) }


theorem withFlags_nil (fr : FormatRecord) : withFlags fr [] = fr := by
  cases fr
  simp +contextual [withFlags]

/-- The first flag set before the others; only ' ' depends on what is set, by Plus over Space. -/
theorem withFlags_cons (fr : FormatRecord) {f : Byte} (fs : List Byte) (hf : f ∈ flagBytes) :
    withFlags fr (f :: fs) = withFlags ((flagChar fr f).getD fr) fs := by
  simp only [flagBytes, List.mem_cons, List.not_mem_nil, or_false] at hf
  obtain rfl | rfl | rfl | rfl | rfl := hf
  · by_cases hplus : fr.sign = .plus
    · simp [withFlags, flagChar, hplus]
    · simp [withFlags, flagChar, hplus]
  · simp [withFlags, flagChar]
  · simp [withFlags, flagChar]
  · simp [withFlags, flagChar]
  · simp [withFlags, flagChar]

/-- Setting flags one after the other, as the parser does, is setting each that occurs. -/
theorem foldl_flagChar (fs : List Byte) : ∀ fr : FormatRecord, (∀ f ∈ fs, f ∈ flagBytes) →
    fs.foldl (fun r f => (flagChar r f).getD r) fr = withFlags fr fs := by
  induction fs with
  | nil => exact fun fr _ => (withFlags_nil fr).symm
  | cons f fs ih =>
    intro fr hfs
    obtain ⟨hf, hfs⟩ := List.forall_mem_cons.1 hfs
    rw [List.foldl_cons, ih _ hfs, withFlags_cons fr fs hf]

/-- The flags in front of a byte that is none (46_format R232). -/
theorem scanFlags_flagBytes {fs : List Byte} {c : Byte} {p : Nat} (fr : FormatRecord) (hfs : ∀ f ∈ fs, f ∈ flagBytes)
    (hc : c ∉ flagBytes) (h : s.BytesAt p (fs ++ [c])) :
    s.scanFlags (s.dmemSize - p) p fr = .ok (withFlags fr fs, p + fs.length) := by
  have hnone (fr : FormatRecord) : flagChar fr c = none := by
    rw [← Option.not_isSome_iff_eq_none, flagChar_isSome_iff]
    exact hc
  rw [s.scanFlags_eq fs c hnone _ p fr (fun f hf fr => (flagChar_isSome_iff fr f).2 (hfs f hf)) h (length_lt_of_bytesAt s h),
    foldl_flagChar fs fr hfs]

/-! The parts of a format string (46_format R232). -/

/-- The optional '%' of a format string. -/
def percentText (percent : Bool) : List Byte := if percent then [37] else []

/-- The end of a format string: the optional point with precision digits, and the byte that ends the parse. -/
def precisionText : Option (List Nat) → Byte → List Byte
  | none, last => [last]
  | some ds, last => 46 :: (ds.map asciiDigit ++ [last])

theorem formatText_eq_parts (percent : Bool) (flags : List Byte) (width : List Nat) (prec : Option (List Nat)) (last : Byte) :
    formatText percent flags width prec last =
      percentText percent ++ (flags ++ (width.map asciiDigit ++ precisionText prec last)) := by
  cases prec <;> simp [formatText, percentText, precisionText]

/-- The precision a format string gives: saturating, and -1 without a point. -/
def parsedPrecision : Option (List Nat) → Int
  | none => -1
  | some ds => (min (2 ^ 31 - 1) (digitsValue 10 ds) : Nat)

/-- The record of a format string. -/
def parsedRecord (flags : List Byte) (width : List Nat) (prec : Option (List Nat)) : FormatRecord :=
  { withFlags defaultRecord flags with
    width := min (2 ^ 31 - 1) (digitsValue 10 width)
    precision := parsedPrecision prec }

/-- A string's last bytes stand after its first. -/
theorem bytesAt_right {p : Nat} {bs rest : List Byte} (h : s.BytesAt p (bs ++ rest)) : s.BytesAt (p + bs.length) rest :=
  ((s.bytesAt_append bs rest p).1 h).2

/-- A string's first bytes with the byte after them. -/
theorem bytesAt_append_singleton {p : Nat} {bs rest : List Byte} {c : Byte} (h : s.BytesAt p (bs ++ c :: rest)) :
    s.BytesAt p (bs ++ [c]) := by
  rw [s.bytesAt_append] at h ⊢
  exact ⟨h.1, h.2.1, trivial⟩

section formatString

variable {flags : List Byte} {width : List Nat} {prec : Option (List Nat)} {last : Byte} {p : Nat}

theorem scanPrecision_precisionText (fr : FormatRecord) (hfr : fr.precision = -1) (hprec : ∀ ds ∈ prec, ∀ x ∈ ds, x ≤ 9)
    (hlast : ∀ x, x ≤ 9 → asciiDigit x ≠ last) (hpoint : prec = none → last ≠ 46#8)
    (h : s.BytesAt p (precisionText prec last)) :
    s.scanPrecision p fr = .ok { fr with precision := parsedPrecision prec } := by
  cases prec with
  | none =>
    rw [State.scanPrecision, h.1, parsedPrecision, ← hfr]
    exact if_neg (hpoint rfl)
  | some ds =>
    have hscan := scanNumber_asciiDigits s (hprec ds rfl) (isDecimal_eq_false hlast) h.2
    rw [State.scanPrecision, h.1]
    simp only [if_true, hscan, parsedPrecision]

/-- The byte after the width digits: the point or the last byte, which is no digit. -/
theorem exists_precisionText_eq_cons (prec : Option (List Nat)) (hlast : ∀ x, x ≤ 9 → asciiDigit x ≠ last) :
    ∃ c rest, precisionText prec last = c :: rest ∧ isDecimal c = false := by
  cases prec with
  | none => exact ⟨last, [], rfl, isDecimal_eq_false hlast⟩
  | some ds => exact ⟨46, _, rfl, by decide⟩

theorem asciiDigit_not_mem_flagBytes {x : Nat} (h : x ≤ 9) (h0 : x ≠ 0) : asciiDigit x ∉ flagBytes := by
  have hall : ∀ x : Fin 10, x.val ≠ 0 → asciiDigit x ∉ flagBytes := by decide
  exact hall ⟨x, Nat.lt_succ_of_le h⟩ h0

theorem asciiDigit_ne_percent {x : Nat} (h : x ≤ 9) : asciiDigit x ≠ 37#8 := by
  have hall : ∀ x : Fin 10, asciiDigit x ≠ 37#8 := by decide
  exact hall ⟨x, Nat.lt_succ_of_le h⟩

theorem ne_percent_of_mem_flagBytes {f : Byte} (h : f ∈ flagBytes) : f ≠ 37#8 := by
  rintro rfl
  exact absurd h (by decide)

/-- The byte after the flags: a digit other than 0, the point or the last byte, which is no flag. -/
theorem exists_widthText_eq_cons (hwidth : ∀ x ∈ width, x ≤ 9) (hzero : width.head? ≠ some 0)
    (hflag : prec = none → width = [] → last ∉ flagBytes) :
    ∃ c rest, width.map asciiDigit ++ precisionText prec last = c :: rest ∧ c ∉ flagBytes := by
  cases width with
  | cons x xs =>
    exact ⟨_, _, rfl, asciiDigit_not_mem_flagBytes (hwidth x List.mem_cons_self) fun h => hzero (congrArg some h)⟩
  | nil =>
    cases prec with
    | some ds => exact ⟨46, _, rfl, by decide⟩
    | none => exact ⟨last, [], rfl, hflag rfl rfl⟩

/-- The byte after an optional '%' that is not there: any byte of the string but '%'. -/
theorem exists_flagsText_eq_cons {percent : Bool} (hflags : ∀ f ∈ flags, f ∈ flagBytes) (hwidth : ∀ x ∈ width, x ≤ 9)
    (hlast : prec = none → width = [] → flags = [] → percent = false → last ≠ 37#8) :
    ∃ c rest, flags ++ (width.map asciiDigit ++ precisionText prec last) = c :: rest ∧ (percent = false → c ≠ 37#8) := by
  cases flags with
  | cons f fs => exact ⟨f, _, rfl, fun _ => ne_percent_of_mem_flagBytes (hflags f List.mem_cons_self)⟩
  | nil =>
    cases width with
    | cons x xs => exact ⟨_, _, rfl, fun _ => asciiDigit_ne_percent (hwidth x List.mem_cons_self)⟩
    | nil =>
      cases prec with
      | some ds => exact ⟨46, _, rfl, fun _ => by decide⟩
      | none => exact ⟨last, [], rfl, hlast rfl rfl rfl⟩

theorem skipPercent_percentText {percent : Bool} {c : Byte} {rest : List Byte} (hc : percent = false → c ≠ 37#8)
    (h : s.BytesAt p (percentText percent ++ c :: rest)) :
    s.skipPercent p = .ok (p + (percentText percent).length) := by
  cases percent with
  | true => rw [State.skipPercent, h.1]; rfl
  | false =>
    rw [State.skipPercent, h.1]
    exact congrArg Except.ok (if_neg (hc rfl))

/-- The parse of a format string, part by part (46_format R232). -/
theorem formatParse_formatText {percent : Bool} (hflags : ∀ f ∈ flags, f ∈ flagBytes) (hwidth : ∀ x ∈ width, x ≤ 9)
    (hzero : width.head? ≠ some 0) (hprec : ∀ ds ∈ prec, ∀ x ∈ ds, x ≤ 9) (hdigit : ∀ x, x ≤ 9 → asciiDigit x ≠ last)
    (hpoint : prec = none → last ≠ 46#8) (hflag : prec = none → width = [] → last ∉ flagBytes)
    (hpercent : prec = none → width = [] → flags = [] → percent = false → last ≠ 37#8)
    (h : s.BytesAt p (formatText percent flags width prec last)) :
    s.formatParse p = .ok (parsedRecord flags width prec) := by
  rw [formatText_eq_parts] at h
  have hflagsAt := bytesAt_right s h
  have hwidthAt := bytesAt_right s hflagsAt
  have hprecAt := bytesAt_right s hwidthAt
  rw [List.length_map] at hprecAt
  have hskip : s.skipPercent p = .ok (p + (percentText percent).length) := by
    obtain ⟨c, rest, hcons, hc⟩ := exists_flagsText_eq_cons hflags hwidth hpercent
    exact skipPercent_percentText s hc (hcons ▸ h)
  obtain ⟨c, rest, hcons, hc⟩ := exists_widthText_eq_cons hwidth hzero hflag
  have hscanFlags := scanFlags_flagBytes s defaultRecord hflags hc (bytesAt_append_singleton s (hcons ▸ hflagsAt))
  obtain ⟨c, rest, hcons, hc⟩ := exists_precisionText_eq_cons prec hdigit
  have hscanWidth := scanNumber_asciiDigits s hwidth hc (bytesAt_append_singleton s (hcons ▸ hwidthAt))
  rw [State.formatParse, hskip]
  simp only [hscanFlags, hscanWidth]
  exact scanPrecision_precisionText s _ rfl hprec hdigit hpoint hprecAt

end formatString

/-! The record's control registers. -/

theorem parsedRecord_sign_code (flags : List Byte) (width : List Nat) (prec : Option (List Nat)) :
    (parsedRecord flags width prec).sign.code = if 43#8 ∈ flags then 2 else if 32#8 ∈ flags then 1 else 0 := by
  simp only [parsedRecord, withFlags, defaultRecord, reduceCtorEq, false_or, apply_ite SignStyle.code]
  rfl

theorem recordFmtctl_parsedRecord (flags : List Byte) (width : List Nat) (prec : Option (List Nat)) :
    recordFmtctl (parsedRecord flags width prec) =
      BitVec.ofNat 5 ((if 43#8 ∈ flags then 2 else if 32#8 ∈ flags then 1 else 0) +
        (if 48#8 ∈ flags then 4 else 0) + (if 35#8 ∈ flags then 8 else 0) + (if 45#8 ∈ flags then 16 else 0)) := by
  rw [recordFmtctl_eq_ofNat, parsedRecord_sign_code]
  simp only [parsedRecord, withFlags, defaultRecord, Bool.false_or, decide_eq_true_eq]

/-- Settles O51, by the parse of the string's parts and the record's control registers. -/
theorem fmtparseReadsAFormatString : Obligations.FmtparseReadsAFormatString := by
  intro a s percent flags width prec last hflags hwidth hzero hprec hdigit hpoint hflag hpercent htext
  have hparse : s.formatParse (s.getX a).toNat = .ok (parsedRecord flags width prec) :=
    formatParse_formatText s hflags hwidth hzero hprec hdigit hpoint hflag hpercent (bytesAt_of_stringAt s _ _ htext)
  refine ⟨rfl, ?_⟩
  rw [exec_fmtparse_of_ok s a hparse, State.setRecord, recordFmtctl_parsedRecord]
  cases prec with
  | none => rfl
  | some ds =>
    have hprecision : BitVec.ofInt 32 (parsedRecord flags width (some ds)).precision =
        BitVec.ofNat 32 (min (2 ^ 31 - 1) (digitsValue 10 ds)) := BitVec.ofInt_natCast ..
    rw [hprecision]
    rfl

end Sys2Proof.Machine
end

section
/-! PROOFS. What the formatter gives (spec/46_format.md R220 to R228): its digits as the decimal of the magnitude, rounded half
up at the last digit, and the sign and the padding put to them. -/

namespace Sys2Proof.Machine

open Sys2Proof.Statements

/-! Digits and the number they denote. -/

/-- Digits, most significant first, as the library's digits, least significant first. -/
theorem digitsValue_eq_ofDigits (b : Nat) (ds : List Nat) : digitsValue b ds = Nat.ofDigits b ds.reverse := by
  rw [digitsValue, Nat.ofDigits_eq_foldr, List.foldr_reverse]
  simp only [Nat.cast_id, Nat.mul_comm, Nat.add_comm]

theorem digitsValue_append (b : Nat) (ds es : List Nat) :
    digitsValue b (ds ++ es) = digitsValue b ds * b ^ es.length + digitsValue b es := by
  rw [digitsValue_eq_ofDigits, List.reverse_append, Nat.ofDigits_append, List.length_reverse, ← digitsValue_eq_ofDigits,
    ← digitsValue_eq_ofDigits, Nat.mul_comm, Nat.add_comm]

theorem digitsValue_cons (b d : Nat) (ds : List Nat) : digitsValue b (d :: ds) = d * b ^ ds.length + digitsValue b ds := by
  simpa [digitsValue] using digitsValue_append b [d] ds

theorem digitsValue_replicate_zero (b n : Nat) : digitsValue b (List.replicate n 0) = 0 := by
  induction n with
  | zero => rfl
  | succ n ih => rw [List.replicate_succ, digitsValue_cons, ih, Nat.zero_mul]

/-! The integer digits (46_format R227). -/

/-- The digit loop gives the library's digits, and one digit for 0. -/
theorem intDigits_eq (k : Nat) : ∀ (n : Nat) (ds : List Nat), n < 10 ^ k → 0 < k →
    intDigits k n ds = (if n = 0 then [0] else (Nat.digits 10 n).reverse) ++ ds := by
  induction k with
  | zero => exact fun _ _ _ h => absurd h (Nat.lt_irrefl 0)
  | succ k ih =>
    intro n ds hn _
    rw [intDigits]
    split
    · next hlast =>
      have hdigit : n % 10 = n := by omega
      rw [hdigit]
      split
      · next h0 => rw [h0]; rfl
      · next h0 => rw [Nat.digits_of_lt 10 n h0 (by omega)]; rfl
    · next hmore =>
      have hk : 0 < k := by
        by_contra h
        obtain rfl : k = 0 := by omega
        omega
      rw [ih _ _ (by omega) hk, if_neg hmore, if_neg (by omega), Nat.digits_def' (by decide : 1 < 10) (by omega : 0 < n),
        List.reverse_cons, List.append_assoc]
      rfl

theorem wholeDigits_eq {n : Nat} (h : n < 10 ^ 78) :
    wholeDigits n = if n = 0 then [0] else (Nat.digits 10 n).reverse := by
  rw [wholeDigits, intDigits_eq 78 n [] h (by decide), List.append_nil]

theorem wholeDigits_le {n : Nat} (h : n < 10 ^ 78) : ∀ x ∈ wholeDigits n, x ≤ 9 := by
  intro x hx
  rw [wholeDigits_eq h] at hx
  split at hx
  · simp_all
  · exact Nat.le_of_lt_succ (Nat.digits_lt_base (by decide) (List.mem_reverse.1 hx))

theorem wholeDigits_ne_nil {n : Nat} (h : n < 10 ^ 78) : wholeDigits n ≠ [] := by
  rw [wholeDigits_eq h]
  split
  · exact List.cons_ne_nil 0 []
  · simpa [Nat.digits_eq_nil_iff_eq_zero]

/-- Only the number 0 has the leading digit 0. -/
theorem wholeDigits_head {n : Nat} (h : n < 10 ^ 78) (hzero : (wholeDigits n).head? = some 0) : wholeDigits n = [0] := by
  rw [wholeDigits_eq h] at hzero ⊢
  split
  · rfl
  · next h0 =>
    rw [if_neg h0, List.head?_reverse] at hzero
    exact absurd (List.getLast_of_getLast?_eq_some hzero) (Nat.getLast_digit_ne_zero 10 h0)

theorem digitsValue_wholeDigits {n : Nat} (h : n < 10 ^ 78) : digitsValue 10 (wholeDigits n) = n := by
  rw [wholeDigits_eq h, digitsValue_eq_ofDigits]
  split
  · next h0 => rw [h0]; rfl
  · rw [List.reverse_reverse, Nat.ofDigits_digits]

/-! The fractional digits (46_format R224). -/

/-- What the digit loop has given after its last digit: the digits of frac / 2^128 cut off after them, with the rest still to
come; all n digits, or fewer where the rest is 0 in automatic mode. -/
structure IsFraction (full : Bool) (n frac : Nat) (r : List Nat × Nat × Bool) : Prop where
  digit_le : ∀ d ∈ r.1, d ≤ 9
  rest_lt : r.2.1 < 2 ^ 128
  value : digitsValue 10 r.1 * 2 ^ 128 + r.2.1 = frac * 10 ^ r.1.length
  length_of_allOut : r.2.2 = true → r.1.length = n
  of_stopped : r.2.2 = false → full = false ∧ r.2.1 = 0 ∧ r.1.length ≤ n
  inexact_before : full = false → ∀ j, j < r.1.length → frac * 10 ^ j % 2 ^ 128 ≠ 0

theorem IsFraction.length_of_full {n frac : Nat} {r : List Nat × Nat × Bool} (h : IsFraction true n frac r) :
    r.1.length = n := by
  cases hout : r.2.2 with
  | true => exact h.length_of_allOut hout
  | false => exact absurd (h.of_stopped hout).1 nofun

theorem IsFraction.length_le {full : Bool} {n frac : Nat} {r : List Nat × Nat × Bool} (h : IsFraction full n frac r) :
    r.1.length ≤ n := by
  cases hout : r.2.2 with
  | true => exact (h.length_of_allOut hout).le
  | false => exact (h.of_stopped hout).2.2

/-- Where the loop gave fewer digits, they are exact. -/
theorem IsFraction.exact_of_length_ne {full : Bool} {n frac : Nat} {r : List Nat × Nat × Bool}
    (h : IsFraction full n frac r) (hne : r.1.length ≠ n) : frac * 10 ^ r.1.length % 2 ^ 128 = 0 := by
  cases hout : r.2.2 with
  | true => exact absurd (h.length_of_allOut hout) hne
  | false => rw [← h.value, (h.of_stopped hout).2.1, add_zero, Nat.mul_mod_left]

/-- One more digit in front, of ten times the fraction. -/
theorem IsFraction.cons {full : Bool} {n frac : Nat} {r : List Nat × Nat × Bool} (hfrac : frac < 2 ^ 128)
    (hgo : ¬ (full = false ∧ frac = 0)) (h : IsFraction full n (frac * 10 % 2 ^ 128) r) :
    IsFraction full (n + 1) frac (frac * 10 / 2 ^ 128 :: r.1, r.2) where
  digit_le := List.forall_mem_cons.2 ⟨by omega, h.digit_le⟩
  rest_lt := h.rest_lt
  value := calc
    digitsValue 10 (frac * 10 / 2 ^ 128 :: r.1) * 2 ^ 128 + r.2.1
        = (2 ^ 128 * (frac * 10 / 2 ^ 128)) * 10 ^ r.1.length + (digitsValue 10 r.1 * 2 ^ 128 + r.2.1) := by
      rw [digitsValue_cons]
      ring
    _ = frac * 10 * 10 ^ r.1.length := by rw [h.value, ← add_mul, Nat.div_add_mod]
    _ = frac * 10 ^ (r.1.length + 1) := by rw [pow_succ', mul_assoc]
  length_of_allOut hout := congrArg Nat.succ (h.length_of_allOut hout)
  of_stopped hstop := by
    obtain ⟨hfull, hrest, hlen⟩ := h.of_stopped hstop
    exact ⟨hfull, hrest, Nat.succ_le_succ hlen⟩
  inexact_before hfull j hj := by
    cases j with
    | zero =>
      rw [pow_zero, mul_one, Nat.mod_eq_of_lt hfrac]
      exact fun h => hgo ⟨hfull, h⟩
    | succ j =>
      have hne := h.inexact_before hfull j (Nat.lt_of_succ_lt_succ hj)
      rwa [Nat.mod_mul_mod, mul_assoc, ← pow_succ'] at hne

theorem fracDigits_isFraction (full : Bool) (n : Nat) : ∀ frac, frac < 2 ^ 128 →
    IsFraction full n frac (fracDigits full n frac) := by
  induction n with
  | zero => exact fun frac hfrac => ⟨nofun, hfrac, by simp [fracDigits, digitsValue], fun _ => rfl, nofun, fun _ _ => nofun⟩
  | succ n ih =>
    intro frac hfrac
    rw [fracDigits]
    split
    · next hstop =>
      obtain ⟨hfull, rfl⟩ := hstop
      exact ⟨nofun, hfrac, rfl, nofun, fun _ => ⟨hfull, rfl, Nat.zero_le _⟩, fun _ _ => nofun⟩
    · next hgo => exact (ih _ (Nat.mod_lt _ (by decide))).cons hfrac hgo

/-! Rounding (46_format R225). -/

theorem bumpDigits_cons (d : Nat) (ds : List Nat) : bumpDigits (d :: ds) =
    if (bumpDigits ds).2 then (if d + 1 ≤ 9 then ((d + 1) :: (bumpDigits ds).1, false) else (0 :: (bumpDigits ds).1, true))
    else (d :: (bumpDigits ds).1, false) := rfl

theorem bumpDigits_length (ds : List Nat) : (bumpDigits ds).1.length = ds.length := by
  induction ds with
  | nil => rfl
  | cons d ds ih =>
    rw [bumpDigits_cons]
    split_ifs <;> exact congrArg Nat.succ ih

theorem bumpDigits_le (ds : List Nat) (h : ∀ d ∈ ds, d ≤ 9) : ∀ d ∈ (bumpDigits ds).1, d ≤ 9 := by
  induction ds with
  | nil => exact nofun
  | cons d ds ih =>
    obtain ⟨hd, hds⟩ := List.forall_mem_cons.1 h
    rw [bumpDigits_cons]
    split_ifs <;> exact List.forall_mem_cons.2 ⟨by omega, ih hds⟩

/-- The number of digits bumped, with the carry that escapes in front of them. -/
def bumpedValue (r : List Nat × Bool) : Nat := (if r.2 then 1 else 0) * 10 ^ r.1.length + digitsValue 10 r.1

theorem bumpedValue_bumpDigits (ds : List Nat) (h : ∀ d ∈ ds, d ≤ 9) :
    bumpedValue (bumpDigits ds) = digitsValue 10 ds + 1 := by
  induction ds with
  | nil => rfl
  | cons d ds ih =>
    obtain ⟨hd, hds⟩ := List.forall_mem_cons.1 h
    have ih := ih hds
    have hlen := bumpDigits_length ds
    rw [bumpDigits_cons, digitsValue_cons, add_assoc, ← ih, ← hlen]
    cases hcarry : (bumpDigits ds).2 with
    | false => simp [bumpedValue, digitsValue_cons, hcarry]
    | true =>
      by_cases hle : d + 1 ≤ 9
      · simp [bumpedValue, digitsValue_cons, hcarry, hle]
        ring
      · obtain rfl : d = 9 := by omega
        simp [bumpedValue, digitsValue_cons, hcarry]
        ring

/-- Rounding half up adds 1 exactly when the rest is at least one half. -/
theorem IsFraction.add_half_div {full : Bool} {n frac : Nat} {r : List Nat × Nat × Bool} (h : IsFraction full n frac r)
    (whole : Nat) : ((whole * 2 ^ 128 + frac) * 10 ^ r.1.length + 2 ^ 127) / 2 ^ 128 =
      whole * 10 ^ r.1.length + digitsValue 10 r.1 + if 2 ^ 127 ≤ r.2.1 then 1 else 0 := by
  have hsplit : (whole * 2 ^ 128 + frac) * 10 ^ r.1.length =
      2 ^ 128 * (whole * 10 ^ r.1.length + digitsValue 10 r.1) + r.2.1 := by
    rw [add_mul, ← h.value]
    ring
  have hrest := h.rest_lt
  rw [hsplit]
  split <;> omega

/-- The digits are bumped exactly when the rest is at least one half: where the loop stopped early the rest is 0. -/
theorem roundedDigits_eq (whole p : Nat) (full : Bool) {frac : Nat} (hfrac : frac < 2 ^ 128) :
    roundedDigits whole frac p full =
      if 2 ^ 127 ≤ (fracDigits full p frac).2.1 then
        ((bumpDigits (fracDigits full p frac).1).1, whole + if (bumpDigits (fracDigits full p frac).1).2 then 1 else 0)
      else ((fracDigits full p frac).1, whole) := by
  have hfraction := fracDigits_isFraction full p frac hfrac
  have hiff : (fracDigits full p frac).2.2 = true ∧ (fracDigits full p frac).2.1 ≥ 2 ^ 127 ↔
      2 ^ 127 ≤ (fracDigits full p frac).2.1 := by
    refine and_iff_right_of_imp fun hhalf => ?_
    by_contra hstop
    obtain ⟨-, hrest, -⟩ := hfraction.of_stopped (Bool.eq_false_of_not_eq_true hstop)
    omega
  rw [roundedDigits]
  simp only [hiff]

section rounded

variable (whole p : Nat) (full : Bool) {frac : Nat} (hfrac : frac < 2 ^ 128)

include hfrac

theorem roundedDigits_length :
    (roundedDigits whole frac p full).1.length = (fracDigits full p frac).1.length := by
  rw [roundedDigits_eq whole p full hfrac]
  split
  · exact bumpDigits_length _
  · rfl

theorem roundedDigits_le : ∀ d ∈ (roundedDigits whole frac p full).1, d ≤ 9 := by
  have hdigit := (fracDigits_isFraction full p frac hfrac).digit_le
  rw [roundedDigits_eq whole p full hfrac]
  split
  · exact bumpDigits_le _ hdigit
  · exact hdigit

theorem roundedDigits_whole_le : (roundedDigits whole frac p full).2 ≤ whole + 1 := by
  rw [roundedDigits_eq whole p full hfrac]
  split_ifs <;> simp

/-- The rounded digits denote the number rounded half up (46_format R225). -/
theorem roundedDigits_value :
    (roundedDigits whole frac p full).2 * 10 ^ (roundedDigits whole frac p full).1.length +
        digitsValue 10 (roundedDigits whole frac p full).1 =
      ((whole * 2 ^ 128 + frac) * 10 ^ (roundedDigits whole frac p full).1.length + 2 ^ 127) / 2 ^ 128 := by
  have hfraction := fracDigits_isFraction full p frac hfrac
  rw [roundedDigits_length whole p full hfrac, hfraction.add_half_div, roundedDigits_eq whole p full hfrac]
  split
  · have hbump := bumpedValue_bumpDigits _ hfraction.digit_le
    rw [bumpedValue, bumpDigits_length] at hbump
    rw [add_mul, add_assoc, hbump, add_assoc]
  · rfl

end rounded

/-! The body (46_format R222, R226, R227). -/

/-- The digits the loop may give: the precision up to the split (46_format R222). -/
def loopDigits (fr : FormatRecord) : Nat := min (recordPrecision fr).1 Config.fmtSplit

/-- The rounded fractional digits and integer part of a magnitude under a record. -/
def recordDigits (m : Nat) (fr : FormatRecord) : List Nat × Nat :=
  roundedDigits (m / 2 ^ 128) (m % 2 ^ 128) (loopDigits fr) (recordPrecision fr).2

/-- The zeros split off the precision (46_format R222). -/
def splitZeros (fr : FormatRecord) : List Nat := List.replicate ((recordPrecision fr).1 - loopDigits fr) 0

theorem recordPrecision_of_nonneg {fr : FormatRecord} (h : 0 ≤ fr.precision) :
    recordPrecision fr = (fr.precision.toNat, true) := if_neg (Int.not_lt.2 h)

theorem recordPrecision_of_neg {fr : FormatRecord} (h : fr.precision < 0) : recordPrecision fr = (39, false) := if_pos h

theorem mod_two_pow_lt (m : Nat) : m % 2 ^ 128 < 2 ^ 128 := Nat.mod_lt _ (by decide)

theorem loopDigits_of_neg {fr : FormatRecord} (h : fr.precision < 0) : loopDigits fr = 39 := by
  rw [loopDigits, recordPrecision_of_neg h]
  rfl

theorem loopDigits_le (fr : FormatRecord) : loopDigits fr ≤ (recordPrecision fr).1 := Nat.min_le_left _ _

/-- Zeros are split off only from a precision above 215. -/
theorem loopDigits_of_splitZeros_ne_nil {fr : FormatRecord} (h : splitZeros fr ≠ []) : loopDigits fr = 215 := by
  rw [splitZeros, Ne, List.replicate_eq_nil_iff, Nat.sub_eq_zero_iff_le] at h
  rw [loopDigits, show Config.fmtSplit = 215 from rfl] at h ⊢
  omega

/-- The loop's digits of the fractional half of a magnitude, under a record. -/
theorem isFraction_of_record (m : Nat) (fr : FormatRecord) : IsFraction (recordPrecision fr).2 (loopDigits fr) (m % 2 ^ 128)
    (fracDigits (recordPrecision fr).2 (loopDigits fr) (m % 2 ^ 128)) :=
  fracDigits_isFraction _ _ _ (mod_two_pow_lt m)

theorem recordDigits_length (m : Nat) (fr : FormatRecord) : (recordDigits m fr).1.length =
    (fracDigits (recordPrecision fr).2 (loopDigits fr) (m % 2 ^ 128)).1.length :=
  roundedDigits_length _ _ _ (mod_two_pow_lt m)

theorem recordDigits_length_of_nonneg (m : Nat) {fr : FormatRecord} (h : 0 ≤ fr.precision) :
    (recordDigits m fr).1.length = loopDigits fr := by
  have hfraction := isFraction_of_record m fr
  rw [recordDigits_length]
  rw [recordPrecision_of_nonneg h] at hfraction ⊢
  exact hfraction.length_of_full

/-- How many fractional digits there are: as many as the loop gives, and the split-off zeros. -/
theorem isDigitCount_length (m : Nat) (fr : FormatRecord) :
    IsDigitCount m fr.precision ((recordDigits m fr).1 ++ splitZeros fr).length := by
  have hle := loopDigits_le fr
  rw [List.length_append, splitZeros, List.length_replicate, IsDigitCount]
  split
  · next h =>
    rw [recordDigits_length_of_nonneg m h, Nat.add_sub_cancel' hle, recordPrecision_of_nonneg h]
    exact (Int.toNat_of_nonneg h).symm
  · next h =>
    have hneg : fr.precision < 0 := Int.not_le.1 h
    have hfraction := isFraction_of_record m fr
    rw [recordDigits_length]
    rw [loopDigits_of_neg hneg, recordPrecision_of_neg hneg] at hfraction ⊢
    have hmod (k : Nat) : m * 10 ^ k % 2 ^ 128 = m % 2 ^ 128 * 10 ^ k % 2 ^ 128 := (Nat.mod_mul_mod ..).symm
    simp only [Nat.sub_self, add_zero, hmod]
    exact ⟨hfraction.length_le, or_iff_not_imp_left.2 hfraction.exact_of_length_ne, hfraction.inexact_before rfl⟩

theorem recordDigits_whole_lt {m : Nat} (hm : m ≤ 2 ^ 255) (fr : FormatRecord) : (recordDigits m fr).2 < 10 ^ 78 := by
  have hle := roundedDigits_whole_le (m / 2 ^ 128) (loopDigits fr) (recordPrecision fr).2 (mod_two_pow_lt m)
  rw [recordDigits]
  omega

theorem recordDigits_value (m : Nat) (fr : FormatRecord) :
    (recordDigits m fr).2 * 10 ^ (recordDigits m fr).1.length + digitsValue 10 (recordDigits m fr).1 =
      (m * 10 ^ (recordDigits m fr).1.length + 2 ^ 127) / 2 ^ 128 := by
  have hvalue := roundedDigits_value (m / 2 ^ 128) (loopDigits fr) (recordPrecision fr).2 (mod_two_pow_lt m)
  rwa [Nat.div_add_mod'] at hvalue

/-- More zeros after the digits, where these are exact or there are none. -/
theorem add_half_div_mul_pow (m n : Nat) (zeros : List Nat) (h : zeros = [] ∨ 128 ≤ n) :
    (m * 10 ^ n + 2 ^ 127) / 2 ^ 128 * 10 ^ zeros.length = (m * 10 ^ (n + zeros.length) + 2 ^ 127) / 2 ^ 128 := by
  obtain rfl | hn := h
  · rw [List.length_nil, pow_zero, mul_one, add_zero]
  · obtain ⟨c, hc⟩ : 2 ^ 128 ∣ m * 10 ^ n :=
      Dvd.dvd.mul_left ((pow_dvd_pow_of_dvd (by decide) 128).trans (pow_dvd_pow 10 hn)) m
    rw [pow_add, ← mul_assoc, hc, mul_assoc]
    have hhalf (x : Nat) : (2 ^ 128 * x + 2 ^ 127) / 2 ^ 128 = x := by omega
    rw [hhalf, hhalf]

/-- All digits of the body together denote the magnitude times 10^k, rounded half up (46_format R223, R225). -/
theorem digitsValue_body {m : Nat} (hm : m ≤ 2 ^ 255) (fr : FormatRecord) :
    digitsValue 10 (wholeDigits (recordDigits m fr).2 ++ ((recordDigits m fr).1 ++ splitZeros fr)) =
      (m * 10 ^ ((recordDigits m fr).1 ++ splitZeros fr).length + 2 ^ 127) / 2 ^ 128 := by
  have hexact : splitZeros fr = [] ∨ 128 ≤ (recordDigits m fr).1.length := by
    refine or_iff_not_imp_left.2 fun hzeros => ?_
    have hloop := loopDigits_of_splitZeros_ne_nil hzeros
    have hprec : 0 ≤ fr.precision := by
      by_contra hneg
      have := loopDigits_of_neg (Int.not_le.1 hneg)
      omega
    rw [recordDigits_length_of_nonneg m hprec, hloop]
    decide
  rw [← List.append_assoc, digitsValue_append, digitsValue_append, digitsValue_wholeDigits (recordDigits_whole_lt hm fr),
    recordDigits_value, add_half_div_mul_pow _ _ _ hexact, List.length_append, splitZeros, digitsValue_replicate_zero,
    add_zero]

theorem mem_splitZeros {fr : FormatRecord} {x : Nat} (h : x ∈ splitZeros fr) : x = 0 := (List.mem_replicate.1 h).2

theorem body_digit_le {m : Nat} (hm : m ≤ 2 ^ 255) (fr : FormatRecord) :
    ∀ x ∈ wholeDigits (recordDigits m fr).2 ++ ((recordDigits m fr).1 ++ splitZeros fr), x ≤ 9 := by
  intro x hx
  rw [List.mem_append, List.mem_append] at hx
  obtain hwhole | hfrac | hzero := hx
  · exact wholeDigits_le (recordDigits_whole_lt hm fr) x hwhole
  · exact roundedDigits_le _ _ _ (mod_two_pow_lt m) x hfrac
  · rw [mem_splitZeros hzero]
    exact Nat.zero_le 9

/-- R226 omits the point exactly for precision 0 without alwaysDecimal. -/
theorem omitPoint_iff (m : Nat) (fr : FormatRecord) :
    (loopDigits fr = 0 ∧ fr.alwaysDecimal = false ∧ (recordDigits m fr).1 = []) ↔
      fr.precision = 0 ∧ fr.alwaysDecimal = false := by
  have hzero : loopDigits fr = 0 ↔ fr.precision = 0 := by
    by_cases hneg : fr.precision < 0
    · rw [loopDigits_of_neg hneg]
      omega
    · rw [loopDigits, recordPrecision_of_nonneg (Int.not_lt.1 hneg), show Config.fmtSplit = 215 from rfl]
      simp only
      omega
  rw [hzero, ← and_assoc]
  refine and_iff_left_of_imp fun h => ?_
  rw [← List.length_eq_zero_iff, recordDigits_length_of_nonneg m h.1.ge, hzero]
  exact h.1

/-! The string as bytes. -/

theorem digitRuns_bytes (ds : List Nat) : Runs.bytes (digitRuns ds) = ds.map asciiDigit := by
  simp only [Runs.bytes_eq_flatMap, digitRuns, List.flatMap_map, List.replicate_one, ← List.map_eq_flatMap]
  rfl

theorem Runs.bytes_singleton (n : Nat) (b : Byte) : Runs.bytes [(n, b)] = List.replicate n b := by
  rw [Runs.bytes_eq_flatMap, List.flatMap_singleton]

theorem bodyRuns_bytes (m : Nat) (fr : FormatRecord) (dp : Byte) : (bodyRuns m fr dp).bytes =
    (wholeDigits (recordDigits m fr).2).map asciiDigit ++
      (if fr.precision = 0 ∧ fr.alwaysDecimal = false then [] else [dp]) ++
      ((recordDigits m fr).1 ++ splitZeros fr).map asciiDigit := by
  have hruns : bodyRuns m fr dp = digitRuns (wholeDigits (recordDigits m fr).2) ++
      (if loopDigits fr = 0 ∧ fr.alwaysDecimal = false ∧ (recordDigits m fr).1 = [] then [] else [(1, dp)]) ++
      digitRuns (recordDigits m fr).1 ++ [((recordPrecision fr).1 - loopDigits fr, 0x30)] := rfl
  rw [hruns]
  simp only [omitPoint_iff, Runs.bytes_append, digitRuns_bytes, Runs.bytes_singleton, List.map_append, splitZeros,
    List.map_replicate, List.append_assoc, apply_ite Runs.bytes]
  rfl

theorem signBytes_eq_signString (negative : Bool) (style : SignStyle) : signBytes negative style = signString negative style := by
  cases negative <;> cases style <;> rfl

/-- The runs of the sign string, written out. -/
theorem sign_bytes (bs : List Byte) : Runs.bytes (bs.map fun b => (1, b)) = bs := by
  simp only [Runs.bytes_eq_flatMap, List.flatMap_map, List.replicate_one, ← List.map_eq_flatMap, List.map_id']

/-- The sign and the padding put to the body (46_format R228). -/
theorem format_bytes (v : Value) (fr : FormatRecord) (dp : Byte) : (format v fr dp).bytes =
    padded fr (signString (decide (v.toInt < 0)) fr.sign) (bodyRuns v.toInt.natAbs fr dp).bytes := by
  have hneg : isNeg v = decide (v.toInt < 0) := by
    rw [Bool.eq_iff_iff, isNeg_iff_toInt_neg, decide_eq_true_iff]
  have hlen (r : Runs) : Runs.length r = r.bytes.length := r.bytes_length.symm
  rw [format, hneg, toNat_abs, signBytes_eq_signString, padded]
  simp only [hlen, apply_ite Runs.bytes, Runs.bytes_append, Runs.bytes_singleton, sign_bytes]

theorem natAbs_toInt_le (v : Value) : v.toInt.natAbs ≤ 2 ^ 255 := by
  have hlow := v.le_toInt
  have hhigh := v.toInt_lt
  omega

/-- Settles O50: the digits are the body's, written out. -/
theorem formattedStringIsTheRoundedDecimal : Obligations.FormattedStringIsTheRoundedDecimal := by
  intro v fr dp m
  have hm : m ≤ 2 ^ 255 := natAbs_toInt_le v
  have hwhole := recordDigits_whole_lt hm fr
  refine ⟨_, wholeDigits (recordDigits m fr).2, (recordDigits m fr).1 ++ splitZeros fr, isDigitCount_length m fr, rfl,
    body_digit_le hm fr, wholeDigits_ne_nil hwhole, wholeDigits_head hwhole, digitsValue_body hm fr, ?_⟩
  rw [format_bytes, bodyRuns_bytes]

end Sys2Proof.Machine
end

section
/-! PROOFS. What FMT and FMTD answer (spec/46_format.md R229 to R231): the three outcomes of WriteBuf, byte by byte. -/

namespace Sys2Proof.Machine

open Sys2Proof.Statements

/-! The bytes WriteBuf writes (46_format R229). -/

theorem bufferBytes_eq (cap : Nat) (r : Runs) :
    bufferBytes cap r = r.bytes.take (min r.bytes.length (cap - 1)) ++ [0] := by
  rw [bufferBytes, Runs.take_eq, Runs.bytes_length]

theorem bufferBytes_getD_of_lt {cap j : Nat} {r : Runs} (h : j < min r.bytes.length (cap - 1)) :
    (bufferBytes cap r).getD j 0 = r.bytes.getD j 0 := by
  rw [bufferBytes_eq, List.getD_append _ _ _ _ (by rw [List.length_take]; omega), List.getD_eq_getElem?_getD,
    List.getElem?_take_of_lt h, List.getD_eq_getElem?_getD]

/-- The NUL stands after the bytes of the string. -/
theorem bufferBytes_getD_last (cap : Nat) (r : Runs) : (bufferBytes cap r).getD (min r.bytes.length (cap - 1)) 0 = 0 := by
  rw [bufferBytes_eq, List.getD_append_right _ _ _ _ (by rw [List.length_take]; omega), List.length_take,
    Nat.min_eq_left (Nat.min_le_left _ _), Nat.sub_self]
  rfl

theorem bufferLength_eq (cap : Nat) (r : Runs) : bufferLength cap r = min r.bytes.length (cap - 1) + 1 := by
  rw [bufferLength, Runs.bytes_length]

theorem flagBits_bufferFlags (cap : Nat) (r : Runs) :
    flagBits (bufferFlags cap r) = if cap - 1 < r.bytes.length then 0b10000 else 0 := by
  rw [bufferFlags, Runs.bytes_length, apply_ite flagBits]
  rfl

/-! What a formatting command answers. -/

/-- The command wrote as much of the string as leaves room for a NUL, and the NUL, at A, the string's length to X[d], and
TRUNC when the string did not fit; it changed nothing else. -/
def WritesString (d : XReg) (A cap : Nat) (str : List Byte) (s t : State) : Prop :=
  let n := min str.length (cap - 1)
  t.getX d = BitVec.ofNat 64 str.length ∧ SameXExcept d s t ∧ SameV s t ∧ SameControl s t ∧
    (∀ j, j < n → t.mem.read (A + j) = str.getD j 0) ∧ t.mem.read (A + n) = 0 ∧ SameMemOutside A (n + 1) s t ∧
    t.status = s.status ||| (if cap - 1 < str.length then 0b10000 else 0)

/-- The store, the length and the flags of WriteBuf, as an effect. -/
theorem store_setX_setFlags_writesString (s : State) (d : XReg) (A cap : Nat) (r : Runs) :
    WritesString d A cap r.bytes s
      (((s.store A (bufferBytes cap r)).setX d (BitVec.ofNat 64 (Runs.length r))).setFlags (bufferFlags cap r)) := by
  have hlen : (bufferBytes cap r).length = min r.bytes.length (cap - 1) + 1 := by
    rw [bufferBytes_length, bufferLength_eq]
  obtain ⟨hread, houtside, -⟩ := store_writesMem s A (bufferBytes cap r)
  rw [hlen] at hread houtside
  refine ⟨by simp, fun x hx => ?_, fun x => by simp, ?_, fun j hj => ?_, ?_, fun q hq => ?_, ?_⟩
  · simp [State.setX_getX_ne _ _ _ _ hx]
  · simp [SameControl, SameFormat, SameFault, SameModel]
  · rw [← bufferBytes_getD_of_lt hj, ← hread j (Nat.lt_succ_of_lt hj)]
    simp
  · rw [← bufferBytes_getD_last cap r, ← hread _ (Nat.lt_succ_self _)]
    simp
  · rw [← houtside q hq]
    simp
  · rw [State.setFlags_status, flagBits_bufferFlags]
    rfl

section formatTo

variable (s : State) (i : Instr) (d b c : XReg) (r : Runs)

theorem formatTo_of_fits (hcap : 1 ≤ (s.getX c).toNat)
    (hin : (s.getX b).toNat + min r.bytes.length ((s.getX c).toNat - 1) + 1 ≤ s.dmemSize) :
    ∃ t, formatTo i d b c r s = .next t ∧ WritesString d (s.getX b).toNat (s.getX c).toNat r.bytes s t := by
  have hlen := bufferLength_eq (s.getX c).toNat r
  obtain ⟨hzero, -⟩ | ⟨-, hout, -⟩ | ⟨-, -, h⟩ := formatTo_cases s i d b c r
  · omega
  · omega
  · exact ⟨_, h, store_setX_setFlags_writesString s d _ _ r⟩

theorem formatTo_of_capacity_zero (hcap : (s.getX c).toNat = 0) :
    ∃ t, formatTo i d b c r s = .next t ∧ Faulted (encode i) 5 0 s t := by
  obtain ⟨-, h⟩ | ⟨hpos, -⟩ | ⟨hpos, -⟩ := formatTo_cases s i d b c r
  · rw [h]
    exact trap_faulted s i .fmtCapacity
  · exact absurd hcap hpos
  · exact absurd hcap hpos

theorem formatTo_of_outOfRange (hcap : 1 ≤ (s.getX c).toNat)
    (hout : s.dmemSize < (s.getX b).toNat + min r.bytes.length ((s.getX c).toNat - 1) + 1) :
    ∃ t, formatTo i d b c r s = .next t ∧
      Faulted (encode i) 3 (BitVec.ofNat 64 (max (s.getX b).toNat s.dmemSize)) s t := by
  have hlen := bufferLength_eq (s.getX c).toNat r
  obtain ⟨hzero, -⟩ | ⟨-, -, h⟩ | ⟨-, hin, -⟩ := formatTo_cases s i d b c r
  · omega
  · rw [h]
    exact trap_faulted s i (s.rangeTrap _)
  · omega

theorem exec_fmt (a : VReg) : exec (.fmt d a b c) s = formatTo (.fmt d a b c) d b c (s.fmtString a) s := rfl

theorem exec_fmtd (a : VReg) : exec (.fmtd d a b c) s = formatTo (.fmtd d a b c) d b c (s.fmtdString a) s := rfl

end formatTo

/-- Settles O49: FMT and FMTD write their own strings, with WriteBuf's three outcomes. -/
theorem fmtAndFmtdWriteTheString : Obligations.FmtAndFmtdWriteTheString := by
  intro d a b c s i w str hmem
  simp only [List.mem_cons, Prod.mk.injEq, List.not_mem_nil, or_false] at hmem
  obtain ⟨rfl, rfl, rfl⟩ | ⟨rfl, rfl, rfl⟩ := hmem
  · rw [exec_fmt, ← fmtString_bytes]
    exact ⟨rfl, formatTo_of_fits s _ d b c _, formatTo_of_capacity_zero s _ d b c _, formatTo_of_outOfRange s _ d b c _⟩
  · rw [exec_fmtd, ← fmtdString_bytes]
    exact ⟨rfl, formatTo_of_fits s _ d b c _, formatTo_of_capacity_zero s _ d b c _, formatTo_of_outOfRange s _ d b c _⟩

end Sys2Proof.Machine
end

section
/-! PROOFS. What CSRR and CSRW answer (spec/49_control.md): the read value and the write rule of each control register as
numbers, and the words the decoder rejects. -/

namespace Sys2Proof.Machine

open Sys2Proof.Statements

/-! The read values (49_control R290). -/

/-- Sign extension, as the signed value mod 2^64. -/
theorem signExtend_eq_ofNat (p : BitVec 32) : p.signExtend 64 = BitVec.ofNat 64 (p.toInt % 2 ^ 64).toNat := by
  refine BitVec.eq_of_toNat_eq ?_
  rw [BitVec.signExtend, BitVec.toNat_ofInt, BitVec.toNat_ofNat]
  omega

/-- The number CSRR reads from a register. -/
def csrNat (s : State) : Csr → Nat
  | .cfg => s.dmemSize
  | .status => s.status.toNat
  | .dpchar => s.dpchar.toNat
  | .fmtctl => s.fmtctl.toNat
  | .fmtwidth => s.fmtwidth.toNat
  | .fmtprec => (s.fmtprec.toInt % 2 ^ 64).toNat
  | .fault => s.fault.toNat
  | .fcmd => s.fcmd.toNat
  | .faddr => s.faddr.toNat

theorem csrRead_eq_ofNat (s : State) (c : Csr) : s.csrRead c = BitVec.ofNat 64 (csrNat s c) := by
  cases c with
  | cfg => rfl
  | fmtprec => exact signExtend_eq_ofNat s.fmtprec
  | faddr => rw [csrNat, BitVec.ofNat_toNat, BitVec.setWidth_eq, State.csrRead]
  | status | dpchar | fmtctl | fmtwidth | fault | fcmd => exact (BitVec.ofNat_toNat 64 _).symm

/-! The write rules (49_control R291, 10_state R29 to R33). -/

/-- SIGN = 3 is stored as 0, the other bits as they are (10_state R31). -/
theorem fmtctlStored_eq_ofNat (x : Scalar) :
    fmtctlStored x = BitVec.ofNat 5 (if x.toNat % 4 = 3 then x.toNat - 3 else x.toNat) := by
  have hsign : x.extractLsb' 0 2 = 3#2 ↔ x.toNat % 4 = 3 := by
    rw [← BitVec.toNat_inj, BitVec.extractLsb'_toNat]
    rfl
  have hmask : ∀ f : BitVec 5, f.toNat % 4 = 3 → f &&& 0b11100#5 = f - 3 := by decide
  simp only [fmtctlStored, hsign]
  split
  · next h =>
    rw [hmask _ (by rw [BitVec.toNat_setWidth]; omega)]
    refine BitVec.eq_of_toNat_eq ?_
    rw [BitVec.toNat_sub, BitVec.toNat_setWidth, BitVec.toNat_ofNat, show (3 : BitVec 5).toNat = 3 from rfl]
    omega
  · exact (BitVec.ofNat_toNat 5 x).symm

theorem fmtprecStored_eq_ofInt (x : Scalar) :
    fmtprecStored x = BitVec.ofInt 32 (if x.toInt < 0 then -1 else min x.toInt (2 ^ 31 - 1)) := by
  unfold fmtprecStored
  split <;> rfl

/-! Words whose field checks fail (30_encoding R86). -/

/-- CSRR's selector names no register for 6, 7 and from 0x0B on (10_state R27). -/
theorem ofNumber_eq_none : ∀ n : BitVec 8, n = 6 ∨ n = 7 ∨ 0x0B ≤ n → Csr.ofNumber n = none := by decide

/-- CSRW's selector names no writable register for 0 and from 6 on (10_state R27). -/
theorem filter_writable_ofNumber_eq_none :
    ∀ n : BitVec 8, n = 0 ∨ 6 ≤ n → (Csr.ofNumber n).filter (·.writable) = none := by decide

theorem decode_csrr_eq_error (d a b c : BitVec 4) (n : BitVec 8)
    (h : a ≠ 0 ∨ b ≠ 0 ∨ c ≠ 0 ∨ n = 6 ∨ n = 7 ∨ 0x0B ≤ n) : decode (formatR .csrr d a b c n) = .error .field := by
  refine decode_eq_error_field_of_decodeFields _ .csrr (by simp) ?_
  simp only [decodeFields, fieldA_formatR, fieldB_formatR, fieldC_formatR, fieldImm8_formatR]
  by_cases hfields : a = 0 ∧ b = 0 ∧ c = 0
  · obtain ⟨rfl, rfl, rfl⟩ := hfields
    have hnumber : n = 6 ∨ n = 7 ∨ 0x0B ≤ n := by simpa using h
    simp [ofNumber_eq_none n hnumber]
  · rw [if_neg hfields]

theorem decode_csrw_eq_error (d a b c : BitVec 4) (n : BitVec 8)
    (h : d ≠ 0 ∨ b ≠ 0 ∨ c ≠ 0 ∨ n = 0 ∨ 6 ≤ n) : decode (formatR .csrw d a b c n) = .error .field := by
  refine decode_eq_error_field_of_decodeFields _ .csrw (by simp) ?_
  simp only [decodeFields, fieldD_formatR, fieldB_formatR, fieldC_formatR, fieldImm8_formatR]
  by_cases hfields : d = 0 ∧ b = 0 ∧ c = 0
  · obtain ⟨rfl, rfl, rfl⟩ := hfields
    have hnumber : n = 0 ∨ 6 ≤ n := by simpa using h
    simp [filter_writable_ofNumber_eq_none n hnumber]
  · rw [if_neg hfields]

/-! What the commands answer. -/

theorem exec_csrr (s : State) (d : XReg) (c : Csr) : exec (.csrr d c) s = .next (s.setX d (s.csrRead c)) := rfl

theorem exec_csrw (s : State) (c : Csr) (a : XReg) (h : c.writable = true) :
    exec (.csrw c a) s = .next (s.csrWrite c (s.getX a)) := if_pos h

/-- Settles O59, by the read value of each register and the field and selector checks. -/
theorem csrrReadsEveryRegister : Obligations.CsrrReadsEveryRegister := by
  intro d s
  have hexec (c : Csr) : ∃ t, exec (.csrr d c) s = .next t ∧ WritesX d (BitVec.ofNat 64 (csrNat s c)) s t :=
    exec_writesX (csrRead_eq_ofNat s c ▸ exec_csrr s d c)
  refine ⟨fun c n v hmem => ?read, fun hok hrun => ?fault, decode_csrr_eq_error d⟩
  case read =>
    simp only [List.mem_cons, Prod.mk.injEq, List.not_mem_nil, or_false] at hmem
    have hc : n = c.number.toNat ∧ v = csrNat s c := by
      obtain ⟨rfl, rfl, rfl⟩ | ⟨rfl, rfl, rfl⟩ | ⟨rfl, rfl, rfl⟩ | ⟨rfl, rfl, rfl⟩ | ⟨rfl, rfl, rfl⟩ | ⟨rfl, rfl, rfl⟩ |
        ⟨rfl, rfl, rfl⟩ | ⟨rfl, rfl, rfl⟩ | ⟨rfl, rfl, rfl⟩ := hmem <;> exact ⟨rfl, rfl⟩
    obtain ⟨rfl, rfl⟩ := hc
    rw [BitVec.ofNat_toNat, BitVec.setWidth_eq]
    exact ⟨rfl, hexec c⟩
  case fault =>
    obtain ⟨hfault, -, -⟩ := (faultOk_of_ne_faulted s hrun).1 hok
    have hread : csrNat s .fault = 0 := congrArg BitVec.toNat hfault
    have hwrite := hexec .fault
    rwa [hread] at hwrite

/-- Settles O60, by the write rule of each register and the field and selector checks. -/
theorem csrwFollowsTheWriteRules : Obligations.CsrwFollowsTheWriteRules := by
  intro a s n z
  refine ⟨fun c k hmem => ?word, ?status, ?dpchar, ?fmtctl, rfl, ?fmtprec, fun d b c k => decode_csrw_eq_error d a b c k⟩
  case word =>
    simp only [List.mem_cons, Prod.mk.injEq, List.not_mem_nil, or_false] at hmem
    obtain ⟨rfl, rfl⟩ | ⟨rfl, rfl⟩ | ⟨rfl, rfl⟩ | ⟨rfl, rfl⟩ | ⟨rfl, rfl⟩ := hmem <;> rfl
  case status => rw [exec_csrw s .status a rfl, State.csrWrite, BitVec.ofNat_toNat]
  case dpchar => rw [exec_csrw s .dpchar a rfl, State.csrWrite, BitVec.ofNat_toNat]
  case fmtctl => rw [exec_csrw s .fmtctl a rfl, State.csrWrite, fmtctlStored_eq_ofNat]
  case fmtprec => rw [exec_csrw s .fmtprec a rfl, State.csrWrite, fmtprecStored_eq_ofInt]

end Sys2Proof.Machine
end

section
/-! PROOFS. What the host's transactions answer outside BUSY, and that BUSY ends (spec/60_exceptions.md R300 to R306, R321 to
R323; spec/70_reset_and_hazards.md R355). -/

namespace Sys2Proof.Machine

open Sys2Proof.Statements

variable (s : State)

/-! Steps and runs. -/

/-- Outside BUSY a step takes the host's next transaction and serves it. -/
theorem step_serve (hrun : s.run = .idle ∨ s.run = .faulted) {x : HostTxn} {rest : List HostTxn}
    (hhost : s.host = x :: rest) : step s = .next (s.dropTxn.serve x) := by
  rw [step_of_not_busy s hrun, portStep, hhost]

theorem dropTxn_eq {x : HostTxn} {rest : List HostTxn} (hhost : s.host = x :: rest) :
    s.dropTxn = { s with host := rest } := by
  rw [State.dropTxn, hhost, List.tail_cons]

/-- A run begins with a step. -/
theorem core_run_succ {t : State} (n : Nat) (h : step s = .next t) :
    Sys2Proof.core.run (n + 1) s = Sys2Proof.core.run n t := by
  have hstep : Sys2Proof.core.step s = .next t := h
  simp only [Host.Core.run, hstep]

/-- Two transactions outside BUSY, where the first neither ends nor enters BUSY, are served one after the other. -/
theorem core_run_two (hrun : s.run = .idle ∨ s.run = .faulted) {x y : HostTxn} {rest : List HostTxn} {t : State}
    (hhost : s.host = x :: y :: rest) (hserve : s.dropTxn.serve x = t) (htrun : t.run = s.run)
    (hthost : t.host = y :: rest) : Sys2Proof.core.run 2 s = .next (t.dropTxn.serve y) := by
  rw [core_run_succ s 1 (step_serve s hrun hhost), hserve]
  exact core_run_succ t 0 (step_serve t (by rwa [htrun]) hthost)

/-! The end of BUSY. -/

/-- The command of a word leaves BUSY: it completes in IDLE, or it faults (10_state R26). -/
theorem runCommand_run (w : Command) :
    ∃ t, runCommand w s = .next t ∧ (t.run = .idle ∨ t.run = .faulted) := by
  cases hdec : decode w with
  | error e =>
    obtain ⟨t, ht, -, -, -, hrun, -⟩ := runCommand_of_error s w e hdec
    exact ⟨t, ht, .inr hrun⟩
  | ok i =>
    rw [runCommand_of_ok s w i hdec]
    obtain ⟨t, ht, ⟨-, -, -, hrun⟩, -⟩ | ⟨tr, -, htrap⟩ := exec_completesOrTraps i s.endBusy
    · exact ⟨t, ht, .inl hrun⟩
    · exact ⟨_, htrap, .inr rfl⟩

/-- An abandoned command leaves a reset state: what it may have written is DMEM alone (70_reset_and_hazards R342). -/
theorem abandon_eq_applyReset (w : Command) : ∃ u : State, s.abandon w = u.applyReset ∧ u.host = s.host := by
  unfold State.abandon
  split
  · split
    · exact ⟨_, rfl, rfl⟩
    · exact ⟨_, rfl, rfl⟩
  · exact ⟨_, rfl, rfl⟩

/-- A step in BUSY leaves BUSY, or it takes a transaction and BUSY goes on (60_exceptions R322). -/
theorem busyStep_ends_or_drops (w : Command) (hrun : s.run = .busy w) :
    ∃ t, busyStep w s = .next t ∧
      (t.run = .idle ∨ t.run = .faulted ∨ t.run = .busy w ∧ t.host.length + 1 = s.host.length) := by
  obtain ⟨rest, -, hb⟩ | ⟨rest, hh, hb⟩ | ⟨v, rest, hh, hb⟩ | ⟨rest, -, hb⟩ | ⟨-, hb⟩ := busyStep_cases s w
  · obtain ⟨u, hu, -⟩ := abandon_eq_applyReset s.dropTxn w
    exact ⟨_, hb, .inl (by simp [hu])⟩
  · exact ⟨_, hb, .inr (.inr (by simp [hrun, hh]))⟩
  · exact ⟨_, hb, .inr (.inr (by simp [hrun, hh]))⟩
  · obtain ⟨t, ht, hend⟩ := runCommand_run s.dropTxn w
    exact ⟨t, hb.trans ht, by tauto⟩
  · obtain ⟨t, ht, hend⟩ := runCommand_run s w
    exact ⟨t, hb.trans ht, by tauto⟩

/-- Settles O9, by induction on the length of the host's list, which every step that stays in BUSY shortens. -/
theorem busyEndsInBoundedSteps : Obligations.BusyEndsInBoundedSteps := by
  intro s w hrun
  induction hlen : s.host.length using Nat.strong_induction_on generalizing s with
  | _ k ih =>
    obtain ⟨t, ht, hend⟩ := busyStep_ends_or_drops s w hrun
    have hstep : step s = .next t := (step_of_busy s w hrun).trans ht
    obtain hidle | hfaulted | ⟨hbusy, hdrop⟩ := hend
    · exact ⟨1, t, by omega, core_run_succ s 0 hstep, .inl hidle⟩
    · exact ⟨1, t, by omega, core_run_succ s 0 hstep, .inr hfaulted⟩
    · obtain ⟨n, u, hn, hu, hend⟩ := ih t.host.length (by omega) t hbusy rfl
      exact ⟨n + 1, u, by omega, (core_run_succ s n hstep).trans hu, hend⟩

/-- Settles O7, by the fault entry of a word that does not decode, for each way BUSY ends. -/
theorem stepFaultsOnIllegalWords : Obligations.StepFaultsOnIllegalWords := by
  intro s w e hrun hdec code
  have hcode : (illegalTrap e).code = code := by cases e <;> rfl
  have hfault (u : State) : ∃ t, runCommand w u = .next t ∧ Faulted w code 0 u t := by
    rw [← hcode, ← faddr_illegalTrap e]
    exact runCommand_of_error u w e hdec
  refine ⟨fun hwaits => ?_, fun helapse => ?_⟩
  · rw [step_of_busy s w hrun, busyStep_of_hostWaits s w hwaits]
    exact hfault s
  · rw [step_of_busy s w hrun, busyStep_of_elapse s w helapse]
    exact hfault s.dropTxn

/-! Control registers (60_exceptions R305, R321). -/

theorem serve_writeCsr_fault (d : Scalar) : s.serve (.writeCsr 0x08 d) = s.clearFault.reply .done := rfl

theorem serve_readCsr (c : Csr) : s.serve (.readCsr c.number) = s.reply (.csr (s.csrRead c)) := by
  rw [State.serve, State.hostReadCsr, Csr.ofNumber_number]

theorem serve_writeCsr_writable (c : Csr) (d : Scalar) (h : c.writable = true) :
    s.serve (.writeCsr c.number d) = (s.csrWrite c d).reply .done := by
  have hne : c ≠ .fault := by rintro rfl; cases h
  rw [State.serve, State.hostWriteCsr, Csr.ofNumber_number]
  exact (if_neg hne).trans (if_pos h)

/-- Settles O10, by the clearing of a fault. -/
theorem hostWriteToFaultClearsIt : Obligations.HostWriteToFaultClearsIt := by
  intro s d rest hrun hhost
  rw [step_serve s (.inr hrun) hhost, serve_writeCsr_fault, dropTxn_eq s hhost]
  simp only [State.clearFault, State.reply, hrun, if_true]

/-- Settles O15, by the read and the write of a control register that the port and the commands share. -/
theorem hostControlRegisterTransfers : Obligations.HostControlRegisterTransfers := by
  intro s c x rest hrun
  refine ⟨fun hhost => ⟨_, exec_csrr s x c, ?read⟩, fun d hhost hwritable => ⟨_, exec_csrw _ c x hwritable, ?write⟩⟩
  case read =>
    have hread : s.dropTxn.csrRead c = s.csrRead c := by cases c <;> rfl
    rw [step_serve s hrun hhost, serve_readCsr, hread, State.setX_getX_same, dropTxn_eq s hhost, State.reply]
  case write =>
    rw [step_serve s hrun hhost, serve_writeCsr_writable _ c d hwritable, State.setX_getX_same, dropTxn_eq s hhost]
    cases c <;> rfl

/-! Transactions in FAULTED (60_exceptions R306). -/

/-- In FAULTED only RESET and a write to FAULT reach the run state and the fault registers. -/
theorem serve_sameFault (x : HostTxn) (hrun : s.run = .faulted) (hreset : x ≠ .reset)
    (hclear : ∀ d, x ≠ .writeCsr 0x08 d) : SameFault s (s.serve x) := by
  cases x with
  | reset => exact absurd rfl hreset
  | state | elapse => simp [SameFault, State.serve]
  | issue w => simp [SameFault, State.serve, issue_of_ne_idle s w (by simp [hrun])]
  | readV i | readX i => simp only [State.serve, State.hostReadReg]; split <;> simp [SameFault]
  | writeV i b | writeX i b => simp only [State.serve, State.hostWriteReg]; split <;> simp [SameFault]
  | readCsr n => simp only [State.serve, State.hostReadCsr]; split <;> simp [SameFault]
  | readMem a n => simp only [State.serve, State.hostReadMem]; split <;> simp [SameFault]
  | writeMem a bs => simp only [State.serve, State.hostWriteMem]; split <;> simp [SameFault]
  | writeCsr n d =>
    simp only [State.serve, State.hostWriteCsr]
    split
    · next c hc =>
      have hne : c ≠ .fault := by
        rintro rfl
        exact hclear d (by rw [← Csr.number_of_ofNumber n _ hc]; rfl)
      rw [if_neg hne]
      split <;> simp [SameFault]
    · simp [SameFault]

/-- Settles O11, by the host's next transaction. -/
theorem faultedCoreRunsNoCommand : Obligations.FaultedCoreRunsNoCommand := by
  intro s t hrun hstep hreset hclear
  cases hhost : s.host with
  | nil =>
    rw [step_of_not_busy s (.inr hrun), portStep, hhost] at hstep
    cases hstep
    exact ⟨rfl, rfl, rfl, rfl⟩
  | cons x rest =>
    rw [step_serve s (.inr hrun) hhost] at hstep
    cases hstep
    refine serve_sameFault s.dropTxn x hrun ?_ fun d => ?_
    · rintro rfl
      exact hreset (by rw [hhost]; rfl)
    · rintro rfl
      exact hclear d (by rw [hhost]; rfl)

/-! Refusals (60_exceptions R321, R323). -/

theorem hostReadReg_refused {i : Nat} (h : 16 ≤ i) (image : List Byte) : s.hostReadReg i image = s.reply .refused :=
  if_neg (Nat.not_lt.2 h)

theorem hostWriteReg_refused {i : Nat} (h : 16 ≤ i) (t : State) : s.hostWriteReg i t = s.reply .refused :=
  if_neg (Nat.not_lt.2 h)

theorem hostReadCsr_refused {n : BitVec 8} (h : Csr.ofNumber n = none) : s.hostReadCsr n = s.reply .refused := by
  rw [State.hostReadCsr, h]

theorem hostWriteCsr_refused {n : BitVec 8} (h : Csr.ofNumber n = none) (d : Scalar) :
    s.hostWriteCsr n d = s.reply .refused := by
  rw [State.hostWriteCsr, h]

/-- CFG, FCMD and FADDR are defined and not writable (10_state R27). -/
theorem hostWriteCsr_readOnly {n : BitVec 8} (h : n = 0 ∨ n = 9 ∨ n = 10) (d : Scalar) :
    s.hostWriteCsr n d = s.reply .refused := by
  obtain rfl | rfl | rfl := h <;> rfl

theorem hostReadMem_refused {a n : Nat} (h : s.dmemSize < a + n) : s.hostReadMem a n = s.reply .refused :=
  if_neg fun hc => absurd ((inRange_eq_true s a n).1 hc.2) (Nat.not_le.2 h)

theorem hostWriteMem_refused {a : Nat} {bs : List Byte} (h : s.dmemSize < a + bs.length) :
    s.hostWriteMem a bs = s.reply .refused :=
  if_neg fun hc => absurd ((inRange_eq_true s a _).1 hc.2) (Nat.not_le.2 h)

/-- Settles O12: each kind of transaction fails the port's check. -/
theorem refusedTransactionsChangeNothing : Obligations.RefusedTransactionsChangeNothing := by
  intro s x rest hrun hhost hx
  rw [step_serve s hrun hhost]
  suffices h : s.dropTxn.serve x = s.dropTxn.reply .refused by rw [h, dropTxn_eq s hhost, State.reply]
  obtain ⟨i, hi, rfl | rfl | ⟨b, rfl⟩ | ⟨b, rfl⟩⟩ | ⟨n, hn, rfl | ⟨d, rfl⟩⟩ | ⟨n, d, hn, rfl⟩ |
    ⟨a, n, hrange, rfl | ⟨bs, rfl, rfl⟩⟩ := hx
  · exact hostReadReg_refused _ hi _
  · exact hostReadReg_refused _ hi _
  · exact hostWriteReg_refused _ hi _
  · exact hostWriteReg_refused _ hi _
  · exact hostReadCsr_refused _ (ofNumber_eq_none n hn)
  · exact hostWriteCsr_refused _ (ofNumber_eq_none n hn) d
  · exact hostWriteCsr_readOnly _ hn d
  · exact hostReadMem_refused _ hrange
  · exact hostWriteMem_refused _ hrange

/-! Transfers (60_exceptions R321). -/

/-- A register as wide as an image gives back the image it was written from (20_memory R62, R63). -/
theorem leBytes_ofNat_ofLeBytes (bs : List Byte) :
    leBytes bs.length (BitVec.ofNat (8 * bs.length) (ofLeBytes bs)).toNat = bs := by
  rw [BitVec.toNat_ofNat, Nat.mod_eq_of_lt (ofLeBytes_lt bs), leBytes_ofLeBytes]

theorem valueBytes_image (b : Vector Byte 32) : valueBytes (u256 (ofLeBytes b.toList)) = b.toList := by
  have h := leBytes_ofNat_ofLeBytes b.toList
  rwa [Vector.length_toList] at h

theorem scalarBytes_image (b : Vector Byte 8) : scalarBytes (BitVec.ofNat 64 (ofLeBytes b.toList)) = b.toList := by
  have h := leBytes_ofNat_ofLeBytes b.toList
  rwa [Vector.length_toList] at h

section register

variable {i : Nat} (h : i < 16)
include h

theorem serve_writeV (b : Vector Byte 32) :
    s.serve (.writeV i b) = (s.setV (BitVec.ofNat 4 i) (u256 (ofLeBytes b.toList))).reply .done := if_pos h

theorem serve_readV : s.serve (.readV i) = s.reply (.bytes (valueBytes (s.getV (BitVec.ofNat 4 i)))) := if_pos h

theorem serve_writeX (b : Vector Byte 8) :
    s.serve (.writeX i b) = (s.setX (BitVec.ofNat 4 i) (BitVec.ofNat 64 (ofLeBytes b.toList))).reply .done := if_pos h

theorem serve_readX : s.serve (.readX i) = s.reply (.bytes (scalarBytes (s.getX (BitVec.ofNat 4 i)))) := if_pos h

end register

/-- Settles O13: the register holds the number of the image, and the image of that number is the bytes sent. -/
theorem registerTransfersCarryImages : Obligations.RegisterTransfersCarryImages := by
  intro s i rest hrun hi
  refine ⟨fun b hhost => ?value, fun b hhost => ?scalar⟩
  case value =>
    refine ⟨_, core_run_two s hrun hhost (serve_writeV _ hi b) (by simp) (by simp [hhost]), ?_⟩
    have himage : image 32 (u256 (ofLeBytes b.toList)).toNat = b.toList :=
      (image_eq_leBytes 32 _).trans (valueBytes_image b)
    obtain ⟨-, hframe, -⟩ := setV_writesV s (BitVec.ofNat 4 i) (u256 (ofLeBytes b.toList))
    rw [serve_readV _ hi]
    refine ⟨by simp [hhost], by simp [valueBytes_image], by simpa using himage, hframe, ?_⟩
    simp [SameX, SameMem, SameFault, SameFormat]
  case scalar =>
    refine ⟨_, core_run_two s hrun hhost (serve_writeX _ hi b) (by simp) (by simp [hhost]), ?_⟩
    have himage : image 8 (BitVec.ofNat 64 (ofLeBytes b.toList)).toNat = b.toList :=
      (image_eq_leBytes 8 _).trans (scalarBytes_image b)
    obtain ⟨-, hframe, -⟩ := setX_writesX s (BitVec.ofNat 4 i) (BitVec.ofNat 64 (ofLeBytes b.toList))
    rw [serve_readX _ hi]
    refine ⟨by simp [hhost], by simp [scalarBytes_image], by simpa using himage, hframe, ?_⟩
    simp [SameV, SameMem, SameFault, SameFormat]

/-- Bytes written are the bytes read back from the same range (20_memory R60). -/
theorem Memory.readBytes_writeBytes (m : Memory) (a : Nat) (bs : List Byte) :
    (m.writeBytes a bs).readBytes a bs.length = bs := by
  refine List.ext_getElem (by simp) fun i hi hi' => ?_
  have hread := Memory.readBytes_getD (m.writeBytes a bs) bs.length a i hi'
  rw [List.getD_eq_getElem _ _ hi] at hread
  rw [hread]
  simp [Memory.read_writeBytes, hi']

theorem serve_writeMem {a : Nat} {bs : List Byte} (hne : bs ≠ []) (hrange : a + bs.length ≤ s.dmemSize) :
    s.serve (.writeMem a bs) = (s.store a bs).reply .done :=
  if_pos ⟨hne, (inRange_eq_true s a _).2 hrange⟩

theorem serve_readMem {a n : Nat} (hne : n ≠ 0) (hrange : a + n ≤ s.dmemSize) :
    s.serve (.readMem a n) = s.reply (.bytes (s.mem.readBytes a n)) :=
  if_pos ⟨hne, (inRange_eq_true s a n).2 hrange⟩

/-- Settles O14, by the effect of a store and the read of its range. -/
theorem memoryTransfersCarryBytes : Obligations.MemoryTransfersCarryBytes := by
  intro s a bs rest hrun hne hrange hhost
  refine ⟨_, core_run_two s hrun hhost (serve_writeMem s.dropTxn hne hrange) (by simp) (by simp [hhost]), ?_⟩
  obtain ⟨hbytes, hframe, -⟩ := store_writesMem s a bs
  rw [serve_readMem _ (mt List.length_eq_zero_iff.1 hne) (by exact hrange)]
  refine ⟨by simp [hhost], by simp [Memory.readBytes_writeBytes], hbytes, hframe, ?_⟩
  simp [SameV, SameX, SameFault, SameFormat]

end Sys2Proof.Machine
end

section
/-! PROOFS. Power-on and RESET (spec/70_reset_and_hazards.md R340 to R342): the reset values, and the DMEM bytes a command
abandoned in BUSY may leave changed. -/

namespace Sys2Proof.Machine

open Sys2Proof.Statements

variable (s : State)

/-! RESET in each run state. -/

/-- RESET outside BUSY keeps DMEM (70_reset_and_hazards R340). -/
theorem step_reset_of_not_busy (hrun : s.run = .idle ∨ s.run = .faulted) {rest : List HostTxn}
    (hhost : s.host = .reset :: rest) : step s = .next (s.dropTxn.applyReset.reply .done) :=
  step_serve s hrun hhost

/-- RESET during BUSY abandons the command (70_reset_and_hazards R342). -/
theorem step_reset_of_busy {w : Command} (hrun : s.run = .busy w) {rest : List HostTxn}
    (hhost : s.host = .reset :: rest) : step s = .next ((s.dropTxn.abandon w).reply .done) := by
  rw [step_of_busy s w hrun, busyStep, hhost]

/-- RESET in any run state is the RESET event on a state that differs from s in DMEM alone, and only in BUSY. -/
theorem step_reset {rest : List HostTxn} (hhost : s.host = .reset :: rest) :
    ∃ u : State, step s = .next (u.applyReset.reply .done) ∧ u.dmemSize = s.dmemSize ∧ u.host = rest ∧
      (s.run = .idle ∨ s.run = .faulted → u.mem = s.mem) := by
  have hdrop : s.dropTxn.host = rest := by rw [State.dropTxn_host, hhost, List.tail_cons]
  cases hrun : s.run with
  | busy w =>
    obtain ⟨u, hu, huhost⟩ := abandon_eq_applyReset s.dropTxn w
    have hsize : u.dmemSize = s.dmemSize := by
      have h := s.dropTxn.abandon_dmemSize w
      rwa [hu] at h
    exact ⟨u, hu ▸ step_reset_of_busy s hrun hhost, hsize, huhost.trans hdrop, by simp⟩
  | idle => exact ⟨s.dropTxn, step_reset_of_not_busy s (.inl hrun) hhost, rfl, hdrop, fun _ => rfl⟩
  | faulted => exact ⟨s.dropTxn, step_reset_of_not_busy s (.inr hrun) hhost, rfl, hdrop, fun _ => rfl⟩

/-- Settles O16, by the RESET event that ends every run state. -/
theorem resetSetsEveryRegister : Obligations.ResetSetsEveryRegister := by
  intro s rest hhost
  obtain ⟨u, hstep, hsize, hrest, hmem⟩ := step_reset s hhost
  refine ⟨_, hstep, ?_⟩
  have hkept (hrun : s.run = .idle ∨ s.run = .faulted) : SameMem s (u.applyReset.reply .done) := fun a =>
    congrArg (Memory.read · a) (hmem hrun)
  simpa [hsize, hrest] using hkept

/-! Abandoned commands (70_reset_and_hazards R342). -/

/-- Abandoning a command writes over its `storedRange`, as running it does, and over nothing when it has none. -/
theorem abandon_storesIn {w : Command} {i : Instr} (h : decode w = .ok i) :
    StoresIn (storedRange i s) s (s.abandon w) := by
  rw [State.abandon, h]
  cases hrange : storedRange i s with
  | none => simp only [hrange]; rfl
  | some r =>
    simp only [hrange]
    exact ⟨_, freeBytes_length r.2 s.freeIndex, rfl⟩

/-- Abandoning a word that is no command writes nothing. -/
theorem abandon_sameMem_of_error {w : Command} {e : IllegalWord} (h : decode w = .error e) :
    SameMem s (s.abandon w) := by
  intro a
  rw [State.abandon, h]
  rfl

/-- A command other than STV, STX, FMT and FMTD writes no byte (20_memory R65). -/
theorem storedRange_eq_none {i : Instr} (hstv : ∀ d a off, i ≠ .stv d a off) (hstx : ∀ d a off, i ≠ .stx d a off)
    (hfmt : ∀ d a b c, i ≠ .fmt d a b c) (hfmtd : ∀ d a b c, i ≠ .fmtd d a b c) : storedRange i s = none := by
  cases i with
  | stv d a off => exact absurd rfl (hstv d a off)
  | stx d a off => exact absurd rfl (hstx d a off)
  | fmt d a b c => exact absurd rfl (hfmt d a b c)
  | fmtd d a b c => exact absurd rfl (hfmtd d a b c)
  | _ => rfl

/-- Settles O17: the free bytes stand where the abandoned command would have stored. -/
theorem abandonedCommandLeavesOtherBytes : Obligations.AbandonedCommandLeavesOtherBytes := by
  intro s w rest hrun hhost
  have hstores {i : Instr} (h : decode w = .ok i) :
      StoresIn (storedRange i s.dropTxn) s.dropTxn ((s.dropTxn.abandon w).reply .done) := abandon_storesIn s.dropTxn h
  refine ⟨_, step_reset_of_busy s hrun hhost, fun d a off h => ?stv, fun d a off h => ?stx, fun d a b c h => ?fmt,
    fun d a b c h => ?fmtd, fun ⟨hstv, hstx, hfmt, hfmtd⟩ => ?other⟩
  case stv => exact (hstores h).image
  case stx => exact (hstores h).image
  case fmt => exact (hstores h).buffer (fmtString_bytes s.dropTxn a)
  case fmtd => exact (hstores h).buffer (fmtdString_bytes s.dropTxn a)
  case other =>
    cases hdec : decode w with
    | error e => exact abandon_sameMem_of_error s.dropTxn hdec
    | ok i =>
      simp only [hdec, ne_eq, Except.ok.injEq] at hstv hstx hfmt hfmtd
      have hnone := storedRange_eq_none s.dropTxn hstv hstx hfmt hfmtd
      exact StoresIn.sameMem (hnone ▸ hstores hdec)

/-! Power-on. -/

/-- Settles O18, register by register. -/
theorem powerOnState : Obligations.PowerOnState := by
  intro n m s
  refine ⟨fun r => ?_, fun r => ?_, rfl, rfl, ?_⟩
  · simp [s, State.powerOn, State.getV]
  · simp [s, State.powerOn, State.getX]
  · simp only [s, State.powerOn, State.csrRead]
    decide

end Sys2Proof.Machine
end

section
/-! PROOFS. What PARSE answers (spec/47_parse.md R250 to R259): a number read part by part, its value in closed form, and where
the parse of any string stops. -/

namespace Sys2Proof.Machine

open Sys2Proof.Statements

variable (s : State)

/-! Where the parse stops (47_parse R250): each part ends in DMEM or at its end, or fails at the first byte outside. -/

theorem scanSign_end {p : Nat} (hp : p ≤ s.dmemSize) :
    (∀ r, s.scanSign p = .ok r → p ≤ r.2 ∧ r.2 ≤ s.dmemSize) ∧ (∀ q, s.scanSign p = .error q → q = s.dmemSize) := by
  unfold State.scanSign
  split
  · next hbyte => exact ⟨nofun, fun q h => by cases h; have := memByte_error_eq_max s hbyte; omega⟩
  · next hbyte =>
    have := s.memByte_ok_lt p _ hbyte
    refine ⟨fun r h => ?_, nofun⟩
    cases h
    split_ifs <;> constructor <;> dsimp only <;> omega

theorem scanBase_end {p : Nat} (hp : p ≤ s.dmemSize) :
    (∀ r, s.scanBase p = .ok r → p ≤ r.2 ∧ r.2 ≤ s.dmemSize) ∧ (∀ q, s.scanBase p = .error q → q = s.dmemSize) := by
  unfold State.scanBase
  split
  · next hbyte => exact ⟨nofun, fun q h => by cases h; have := memByte_error_eq_max s hbyte; omega⟩
  next hbyte =>
  have := s.memByte_ok_lt p _ hbyte
  split
  · split
    · next hnext => exact ⟨nofun, fun q h => by cases h; have := memByte_error_eq_max s hnext; omega⟩
    · next hnext =>
      have := s.memByte_ok_lt (p + 1) _ hnext
      refine ⟨fun r h => ?_, nofun⟩
      cases h
      split_ifs <;> constructor <;> dsimp only <;> omega
  · exact ⟨fun r h => by cases h; exact ⟨Nat.le_refl p, hp⟩, nofun⟩

theorem scanFraction_end (base : Nat) (dp : Byte) {p : Nat} (hp : p < s.dmemSize) :
    (∀ r, s.scanFraction base dp p = .ok r → p ≤ r.2 ∧ r.2 < s.dmemSize) ∧
    (∀ q, s.scanFraction base dp p = .error q → q = s.dmemSize) := by
  rw [State.scanFraction, memByte_of_lt s p hp]
  dsimp only
  split
  · obtain ⟨digits_ok, digits_error⟩ := s.scanDigits_end base (s.dmemSize - (p + 1)) (p + 1) rfl
    exact ⟨fun r h => by have := digits_ok r h; omega, fun q h => by have := digits_error q h; omega⟩
  · exact ⟨fun r h => by cases h; exact ⟨Nat.le_refl p, hp⟩, nofun⟩

/-- The parse ends in DMEM, or fails at the first byte outside DMEM from its start on: every part begins where the one before
stopped. -/
theorem parse_end (a : Nat) (dp : Byte) :
    (∀ r, s.parse a dp = .ok r → a ≤ r.2 ∧ r.2 < s.dmemSize) ∧
    (∀ q, s.parse a dp = .error q → q = max a s.dmemSize) := by
  obtain ⟨spaces_ok, spaces_error⟩ := s.skipSpaces_end (s.dmemSize - a) a rfl
  unfold State.parse
  split
  · next hspaces => exact ⟨nofun, fun q h => by cases h; exact spaces_error _ hspaces⟩
  next p hspaces =>
  have hp := spaces_ok _ hspaces
  obtain ⟨sign_ok, sign_error⟩ := scanSign_end s (p := p) (by omega)
  split
  · next hsign => exact ⟨nofun, fun q h => by cases h; have := sign_error _ hsign; omega⟩
  next sg hsign =>
  have hsg := sign_ok _ hsign
  obtain ⟨base_ok, base_error⟩ := scanBase_end s hsg.2
  split
  · next hbase => exact ⟨nofun, fun q h => by cases h; have := base_error _ hbase; omega⟩
  next b hbase =>
  have hb := base_ok _ hbase
  obtain ⟨digits_ok, digits_error⟩ := s.scanDigits_end b.1 (s.dmemSize - b.2) b.2 rfl
  split
  · next hdigits => exact ⟨nofun, fun q h => by cases h; have := digits_error _ hdigits; omega⟩
  next is hdigits =>
  have his := digits_ok _ hdigits
  obtain ⟨fraction_ok, fraction_error⟩ := scanFraction_end s b.1 dp his.2
  split
  · next hfraction => exact ⟨nofun, fun q h => by cases h; have := fraction_error _ hfraction; omega⟩
  next fs hfraction =>
  have hfs := fraction_ok _ hfraction
  exact ⟨fun r h => by cases h; dsimp only; omega, nofun⟩

/-! What the command answers (47_parse R258). -/

section exec

variable (d : VReg) (a b : XReg)

theorem exec_parse_of_ok {v : Value} {e : Nat} (h : s.parse (s.getX a).toNat s.dpchar = .ok (v, e)) :
    exec (.parse d a b) s = .next ((s.setV d v).setX b (BitVec.ofNat 64 e)) := by
  rw [show exec (.parse d a b) s = execParse d a b s from rfl, execParse, h]

theorem exec_parse_of_error {q : Nat} (h : s.parse (s.getX a).toNat s.dpchar = .error q) :
    exec (.parse d a b) s = trap (.parse d a b) (s.rangeTrap q) s := by
  rw [show exec (.parse d a b) s = execParse d a b s from rfl, execParse, h]

/-- A parse that succeeds writes its value and its end address, and nothing else. -/
theorem exec_parse_writes {v : Value} {e : Nat} (h : s.parse (s.getX a).toNat s.dpchar = .ok (v, e)) :
    ∃ t, exec (.parse d a b) s = .next t ∧ t.getV d = v ∧ t.getX b = BitVec.ofNat 64 e ∧
      SameVExcept d s t ∧ SameXExcept b s t ∧ SameMem s t ∧ t.status = s.status ∧ SameControl s t := by
  refine ⟨_, exec_parse_of_ok s d a b h, by simp, by simp, fun r hr => ?_, fun r hr => ?_, fun _ => by simp, by simp, ?_⟩
  · simp [State.setV_getV_ne _ _ _ _ hr]
  · simp [State.setX_getX_ne _ _ _ _ hr]
  · simp [SameControl, SameFormat, SameFault, SameModel]

end exec

/-- Settles O54: the value and the end address are written, or the range trap at the address the parse reports. -/
theorem parseCompletesOrFaults : Obligations.ParseCompletesOrFaults := by
  intro d a b s
  obtain ⟨end_ok, end_error⟩ := parse_end s (s.getX a).toNat s.dpchar
  refine ⟨fun v e h => ?number, fun q h => ?fault⟩
  case number =>
    obtain ⟨hle, hlt⟩ := end_ok _ h
    exact ⟨hlt, hle, exec_parse_writes s d a b h⟩
  case fault =>
    have hq := end_error q h
    have hmax : max q s.dmemSize = q := by omega
    obtain ⟨t, ht, hfault⟩ := trap_faulted s (.parse d a b) (s.rangeTrap q)
    rw [State.rangeTrap, hmax] at hfault
    exact ⟨hq, t, (exec_parse_of_error s d a b h).trans ht, hfault⟩

/-! The value (47_parse R255 to R257, R259). -/

/-- Reducing at every digit is reducing at the end (R255). -/
theorem integerPart_eq (base : Nat) (ds : List Nat) : integerPart base ds = digitsValue base ds % 2 ^ 128 := by
  have key : ∀ n, ds.foldl (fun ip d => (ip * base + d) % 2 ^ 128) (n % 2 ^ 128) =
      ds.foldl (fun n d => n * base + d) n % 2 ^ 128 := by
    induction ds with
    | nil => exact fun _ => rfl
    | cons d ds ih =>
      intro n
      rw [List.foldl_cons, List.foldl_cons, ← ih (n * base + d), Nat.add_mod, Nat.mod_mul_mod, ← Nat.add_mod]
  exact key 0

/-- Rounding down at every digit, from the last to the first, is rounding down at the end (R256, R259). -/
theorem fractionPart_eq {base : Nat} (hbase : 0 < base) (ds : List Nat) :
    fractionPart base ds = 2 ^ 128 * digitsValue base ds / base ^ ds.length := by
  induction ds with
  | nil => simp [fractionPart, digitsValue]
  | cons d ds ih =>
    have hpow : 0 < base ^ ds.length := Nat.pow_pos hbase
    calc fractionPart base (d :: ds)
      _ = (d * 2 ^ 128 + 2 ^ 128 * digitsValue base ds / base ^ ds.length) / base := by rw [← ih]; rfl
      _ = (2 ^ 128 * digitsValue base ds + base ^ ds.length * (d * 2 ^ 128)) / base ^ ds.length / base := by
        rw [Nat.add_mul_div_left _ _ hpow, Nat.add_comm]
      _ = 2 ^ 128 * digitsValue base (d :: ds) / base ^ (d :: ds).length := by
        rw [Nat.div_div_eq_div_mul, digitsValue_cons, List.length_cons, Nat.pow_succ]
        congr 1
        ring

/-- The magnitude of a number with integer digits is and fractional digits fs, the fraction rounded down (R259). -/
def numberMagnitude (base : Nat) (is fs : List Nat) : Nat :=
  digitsValue base is % 2 ^ 128 * 2 ^ 128 + 2 ^ 128 * digitsValue base fs / base ^ fs.length

/-- The value of a parsed number, as an integer mod 2^256 (R257). -/
theorem parsedValue_eq_ofInt {base : Nat} (hbase : 0 < base) (negative : Bool) (is fs : List Nat) :
    parsedValue negative (integerPart base is) (fractionPart base fs) =
      BitVec.ofInt 256 (signed negative (numberMagnitude base is fs)) := by
  rw [integerPart_eq, fractionPart_eq hbase]
  exact ite_neg_eq_ofInt_signed negative _

/-! Digits of a base (47_parse R254). -/

/-- The bytes that are skipped or read as a sign before a number (47_parse R251, R252). -/
def leadBytes : List Byte := [0x20#8, 0x09#8, 0x0D#8, 0x0A#8, 0x0B#8, 43#8, 45#8]

theorem digitValue_hexByte {base : Nat} (hbase : base = 10 ∨ base = 16) {x : Nat × Bool} (h : x.1 < base) :
    digitValue base (hexByte x) = some x.1 := by
  have hdecimal : ∀ (d : Fin 10) (u : Bool), digitValue 10 (hexByte (d, u)) = some d.val := by decide
  have hhex : ∀ (d : Fin 16) (u : Bool), digitValue 16 (hexByte (d, u)) = some d.val := by decide
  obtain rfl | rfl := hbase
  · exact hdecimal ⟨x.1, h⟩ x.2
  · exact hhex ⟨x.1, h⟩ x.2

theorem hexByte_not_mem_leadBytes {x : Nat × Bool} (h : x.1 < 16) : hexByte x ∉ leadBytes := by
  have hall : ∀ (d : Fin 16) (u : Bool), hexByte (d, u) ∉ leadBytes := by decide
  exact hall ⟨x.1, h⟩ x.2

/-- No decimal digit reads as the x of a hexadecimal number. -/
theorem hexByte_not_mem_x {x : Nat × Bool} (h : x.1 < 10) : hexByte x ∉ [120#8, 88#8] := by
  have hall : ∀ (d : Fin 10) (u : Bool), hexByte (d, u) ∉ [120#8, 88#8] := by decide
  exact hall ⟨x.1, h⟩ x.2

theorem eq_zero_of_hexByte_eq {x : Nat × Bool} (h : x.1 < 10) (hzero : hexByte x = 0x30) : x.1 = 0 := by
  have hall : ∀ (d : Fin 10) (u : Bool), hexByte (d, u) = 0x30 → d.val = 0 := by decide
  exact hall ⟨x.1, h⟩ x.2 hzero

/-- A byte that is no digit's is no digit of the base. -/
theorem digitValue_eq_none {base : Nat} (hbase : base = 10 ∨ base = 16) {c : Byte}
    (h : ∀ x : Nat × Bool, x.1 < base → hexByte x ≠ c) : digitValue base c = none := by
  have hall : ∀ c : Byte, (∀ v ∈ digitValue 10 c, v < 10 ∧ hexByte (v, false) = c) ∧
      (∀ v ∈ digitValue 16 c, v < 16 ∧ (hexByte (v, false) = c ∨ hexByte (v, true) = c)) := by decide
  rw [Option.eq_none_iff_forall_not_mem]
  intro v hv
  obtain ⟨hdecimal, hhex⟩ := hall c
  obtain rfl | rfl := hbase
  · obtain ⟨hlt, hc⟩ := hdecimal v hv
    exact h (v, false) hlt hc
  · obtain ⟨hlt, hc | hc⟩ := hhex v hv
    · exact h (v, false) hlt hc
    · exact h (v, true) hlt hc

theorem scanDigits_hexByte {base : Nat} (hbase : base = 10 ∨ base = 16) {xs : List (Nat × Bool)}
    (hxs : ∀ x ∈ xs, x.1 < base) {c : Byte} (hc : digitValue base c = none) {p : Nat}
    (h : s.BytesAt p (xs.map hexByte ++ [c])) :
    s.scanDigits base (s.dmemSize - p) p = .ok (xs.map Prod.fst, p + xs.length) := by
  have hread : ∀ e ∈ xs.map fun x => (hexByte x, x.1), digitValue base e.1 = some e.2 := by
    intro e he
    obtain ⟨x, hx, rfl⟩ := List.mem_map.1 he
    exact digitValue_hexByte hbase (hxs x hx)
  have hscan := s.scanDigits_eq base _ c hc (s.dmemSize - p) p hread (by simpa [Function.comp_def] using h)
    (by simpa using length_lt_of_bytesAt s h)
  simpa [Function.comp_def] using hscan

/-! The parts of a number (47_parse R251 to R256). -/

/-- The end of a number: the optional point with fractional digits, and the byte that ends it. -/
def fractionText (dp last : Byte) : Option (List (Nat × Bool)) → List Byte
  | none => [last]
  | some ds => dp :: (ds.map hexByte ++ [last])

theorem numberText_eq_parts (dp last : Byte) (ws sign pre : List Byte) (is : List (Nat × Bool))
    (fs : Option (List (Nat × Bool))) :
    numberText dp last ws sign pre is fs = ws ++ (sign ++ (pre ++ (is.map hexByte ++ fractionText dp last fs))) := by
  cases fs <;> simp [numberText, fractionText]

theorem exists_fractionText_eq_cons (dp last : Byte) (fs : Option (List (Nat × Bool))) :
    ∃ rest, fractionText dp last fs = afterInteger dp last fs :: rest := by
  cases fs with
  | none => exact ⟨[], rfl⟩
  | some ds => exact ⟨_, rfl⟩

section number

variable {dp last : Byte} {sign pre : List Byte} {base : Nat} {is : List (Nat × Bool)} {fs : Option (List (Nat × Bool))}
  {p : Nat}

/-- The base of a number is 10 or 16. -/
theorem base_of_prefix (hpre : (pre, base) ∈ [([], 10), ([48#8, 120#8], 16), ([48#8, 88#8], 16)]) :
    base = 10 ∨ base = 16 := by
  simp only [List.mem_cons, Prod.mk.injEq, List.not_mem_nil, or_false] at hpre
  tauto

/-- The point or the ending byte after the integer digits is no digit. -/
theorem hexByte_ne_afterInteger
    (hdigit : ∀ x : Nat × Bool, x.1 < base → hexByte x ≠ last ∧ (fs ≠ none → hexByte x ≠ dp)) :
    ∀ x : Nat × Bool, x.1 < base → hexByte x ≠ afterInteger dp last fs := by
  intro x hx
  obtain ⟨hlast, hdp⟩ := hdigit x hx
  cases fs with
  | none => exact hlast
  | some ds => exact hdp nofun

/-- A number without a sign begins with a byte that is neither whitespace nor a sign. -/
theorem exists_unsigned_eq_cons (hpre : (pre, base) ∈ [([], 10), ([48#8, 120#8], 16), ([48#8, 88#8], 16)])
    (his : ∀ x ∈ is, x.1 < base) (hstart : pre = [] → is = [] → afterInteger dp last fs ∉ leadBytes) :
    ∃ c rest, pre ++ (is.map hexByte ++ fractionText dp last fs) = c :: rest ∧ c ∉ leadBytes := by
  have hbase := base_of_prefix hpre
  simp only [List.mem_cons, Prod.mk.injEq, List.not_mem_nil, or_false] at hpre
  obtain ⟨rfl, -⟩ | ⟨rfl, -⟩ | ⟨rfl, -⟩ := hpre
  · cases is with
    | nil =>
      obtain ⟨rest, hrest⟩ := exists_fractionText_eq_cons dp last fs
      exact ⟨_, rest, hrest, hstart rfl rfl⟩
    | cons x xs =>
      have hx := his x List.mem_cons_self
      exact ⟨_, _, rfl, hexByte_not_mem_leadBytes (by omega)⟩
  · exact ⟨48, _, rfl, by decide⟩
  · exact ⟨48, _, rfl, by decide⟩

theorem not_space_nor_sign_of_not_mem {c : Byte} (h : c ∉ leadBytes) : isSpace c = false ∧ c ≠ 0x2B ∧ c ≠ 0x2D := by
  simp only [leadBytes, List.mem_cons, not_or, List.not_mem_nil] at h
  simp [isSpace, h]

theorem isSpace_of_mem {c : Byte} (h : c ∈ [0x20#8, 0x09#8, 0x0D#8, 0x0A#8, 0x0B#8]) : isSpace c = true := by
  simpa [isSpace] using h

/-- The whitespace is skipped up to the sign, or up to the number (47_parse R251). -/
theorem skipSpaces_number {ws rest : List Byte} (hws : ∀ c ∈ ws, c ∈ [0x20#8, 0x09#8, 0x0D#8, 0x0A#8, 0x0B#8])
    (hsign : sign ∈ [[], [43#8], [45#8]]) (hrest : sign = [] → ∃ c cs, rest = c :: cs ∧ c ∉ leadBytes)
    (h : s.BytesAt p (ws ++ (sign ++ rest))) : s.skipSpaces (s.dmemSize - p) p = .ok (p + ws.length) := by
  have hhead : ∃ c cs, sign ++ rest = c :: cs ∧ isSpace c = false := by
    simp only [List.mem_cons, List.not_mem_nil, or_false] at hsign
    obtain rfl | rfl | rfl := hsign
    · obtain ⟨c, cs, hcons, hc⟩ := hrest rfl
      exact ⟨c, cs, hcons, (not_space_nor_sign_of_not_mem hc).1⟩
    · exact ⟨43, rest, rfl, by decide⟩
    · exact ⟨45, rest, rfl, by decide⟩
  obtain ⟨c, cs, hcons, hc⟩ := hhead
  have hbytes : s.BytesAt p (ws ++ [c]) := bytesAt_append_singleton s (hcons ▸ h)
  exact s.skipSpaces_eq ws c hc _ p (fun w hw => isSpace_of_mem (hws w hw)) hbytes (length_lt_of_bytesAt s hbytes)

/-- The sign that is there is read (47_parse R252). -/
theorem scanSign_number {rest : List Byte} (hsign : sign ∈ [[], [43#8], [45#8]])
    (hrest : sign = [] → ∃ c cs, rest = c :: cs ∧ c ∉ leadBytes) (h : s.BytesAt p (sign ++ rest)) :
    s.scanSign p = .ok (decide (sign = [45#8]), p + sign.length) := by
  simp only [List.mem_cons, List.not_mem_nil, or_false] at hsign
  obtain rfl | rfl | rfl := hsign
  · obtain ⟨c, cs, rfl, hc⟩ := hrest rfl
    obtain ⟨-, hplus, hminus⟩ := not_space_nor_sign_of_not_mem hc
    rw [State.scanSign, h.1]
    exact congrArg Except.ok ((if_neg hplus).trans (if_neg hminus))
  · rw [State.scanSign, h.1]
    rfl
  · rw [State.scanSign, h.1]
    rfl

/-- A number that does not begin with `0x` or `0X` is decimal (47_parse R253). -/
theorem scanBase_decimal {c : Byte} {cs : List Byte}
    (hc : c = 0x30 → ∃ c' cs', cs = c' :: cs' ∧ c' ∉ [120#8, 88#8]) (h : s.BytesAt p (c :: cs)) :
    s.scanBase p = .ok (10, p) := by
  rw [State.scanBase, h.1]
  dsimp only
  split
  · next hzero =>
    obtain ⟨c', cs', rfl, hc'⟩ := hc hzero
    rw [h.2.1]
    exact congrArg Except.ok (if_neg (by simpa using hc'))
  · rfl

/-- The base is read from the `0x` or `0X` that is there (47_parse R253). -/
theorem scanBase_number (hpre : (pre, base) ∈ [([], 10), ([48#8, 120#8], 16), ([48#8, 88#8], 16)])
    (his : ∀ x ∈ is, x.1 < base) (hafter : ∀ x : Nat × Bool, x.1 < base → hexByte x ≠ afterInteger dp last fs)
    (hprefix : pre = [] → is.map Prod.fst = [0] → afterInteger dp last fs ∉ [120#8, 88#8])
    (h : s.BytesAt p (pre ++ (is.map hexByte ++ fractionText dp last fs))) :
    s.scanBase p = .ok (base, p + pre.length) := by
  simp only [List.mem_cons, Prod.mk.injEq, List.not_mem_nil, or_false] at hpre
  obtain ⟨rest, hrest⟩ := exists_fractionText_eq_cons dp last fs
  obtain ⟨rfl, rfl⟩ | ⟨rfl, rfl⟩ | ⟨rfl, rfl⟩ := hpre
  · rw [hrest] at h
    match is, his, hprefix, h with
    | [], _, _, h => exact scanBase_decimal s (fun hzero => absurd hzero.symm (hafter (0, false) (by decide))) h
    | [x], his, hprefix, h =>
      refine scanBase_decimal s (fun hzero => ⟨_, _, rfl, hprefix rfl ?_⟩) h
      rw [List.map_singleton, eq_zero_of_hexByte_eq (his x List.mem_cons_self) hzero]
    | x :: y :: xs, his, _, h =>
      exact scanBase_decimal s (fun _ => ⟨_, _, rfl, hexByte_not_mem_x (his y (by simp))⟩) h
  · rw [State.scanBase, h.1]
    simp [h.2.1]
  · rw [State.scanBase, h.1]
    simp [h.2.1]

/-- The fraction is read, if a point stands there (47_parse R256). -/
theorem scanFraction_number (hbase : base = 10 ∨ base = 16) (hfs : ∀ ds ∈ fs, ∀ x ∈ ds, x.1 < base)
    (hlast : digitValue base last = none) (hpoint : fs = none → last ≠ dp)
    (h : s.BytesAt p (fractionText dp last fs)) :
    s.scanFraction base dp p = .ok ((fs.getD []).map Prod.fst, p + (fractionText dp last fs).length - 1) := by
  cases fs with
  | none =>
    rw [State.scanFraction, h.1]
    exact if_neg (hpoint rfl)
  | some ds =>
    have hscan := scanDigits_hexByte s hbase (hfs ds rfl) hlast h.2
    rw [State.scanFraction, h.1]
    simp only [if_true, hscan, fractionText, Option.getD_some, List.length_cons, List.length_append, List.length_map,
      List.length_nil]
    congr 2
    omega

/-- The parse of a number, part by part: its value in closed form and the address of the byte that ends it. -/
theorem parse_numberText {ws : List Byte} (hws : ∀ c ∈ ws, c ∈ [0x20#8, 0x09#8, 0x0D#8, 0x0A#8, 0x0B#8])
    (hsign : sign ∈ [[], [43#8], [45#8]])
    (hpre : (pre, base) ∈ [([], 10), ([48#8, 120#8], 16), ([48#8, 88#8], 16)])
    (his : ∀ x ∈ is, x.1 < base) (hfs : ∀ ds ∈ fs, ∀ x ∈ ds, x.1 < base)
    (hdigit : ∀ x : Nat × Bool, x.1 < base → hexByte x ≠ last ∧ (fs ≠ none → hexByte x ≠ dp))
    (hpoint : fs = none → last ≠ dp)
    (hstart : sign = [] → pre = [] → is = [] → afterInteger dp last fs ∉ leadBytes)
    (hprefix : pre = [] → is.map Prod.fst = [0] → afterInteger dp last fs ∉ [120#8, 88#8])
    (h : s.BytesAt p (numberText dp last ws sign pre is fs)) :
    s.parse p dp = .ok (BitVec.ofInt 256 (signed (decide (sign = [45#8]))
        (numberMagnitude base (is.map Prod.fst) ((fs.getD []).map Prod.fst))),
      p + (numberText dp last ws sign pre is fs).length - 1) := by
  rw [numberText_eq_parts] at h ⊢
  have hsignAt := bytesAt_right s h
  have hpreAt := bytesAt_right s hsignAt
  have hintAt := bytesAt_right s hpreAt
  have hfracAt := bytesAt_right s hintAt
  rw [List.length_map] at hfracAt
  have hbase := base_of_prefix hpre
  have hafter := hexByte_ne_afterInteger hdigit
  have hunsigned (hnone : sign = []) := exists_unsigned_eq_cons hpre his (hstart hnone)
  obtain ⟨rest, hrest⟩ := exists_fractionText_eq_cons dp last fs
  have hspaces := skipSpaces_number s hws hsign hunsigned h
  have hscanSign := scanSign_number s hsign hunsigned hsignAt
  have hscanBase := scanBase_number s hpre his hafter hprefix hpreAt
  have hscanInt := scanDigits_hexByte s hbase his (digitValue_eq_none hbase hafter)
    (bytesAt_append_singleton s (hrest ▸ hintAt))
  have hscanFrac := scanFraction_number s hbase hfs (digitValue_eq_none hbase fun x hx => (hdigit x hx).1) hpoint hfracAt
  have hpos : 0 < base := by omega
  have hlen : 0 < (fractionText dp last fs).length := by rw [hrest]; exact Nat.zero_lt_succ _
  simp only [State.parse, hspaces, hscanSign, hscanBase, hscanInt, hscanFrac, parsedValue_eq_ofInt hpos,
    List.length_append, List.length_map]
  congr 2
  omega

end number

/-- Settles O53, by the parse of the number's parts. -/
theorem parseReadsANumber : Obligations.ParseReadsANumber := by
  intro d a b s last ws sign pre base is fs hws hsign hpre his hfs hdigit hpoint hstart hprefix htext frac m
  have hparse := parse_numberText s hws hsign hpre his hfs hdigit hpoint hstart hprefix (bytesAt_of_stringAt s _ _ htext)
  obtain ⟨t, ht, hv, hframe⟩ := exec_parse_writes s d a b hparse
  refine ⟨rfl, t, ht, hv.trans (congrArg _ ?_), hframe⟩
  simp only [signed, decide_eq_true_eq]
  rfl

end Sys2Proof.Machine
end

section
/-! PROOFS. What the conversions answer (spec/48_conversions.md): integers, the fields and the magnitude of a double, and the
rounding to the nearest double, ties to even. -/

namespace Sys2Proof.Machine

open Sys2Proof.Statements

/-! Integers (48_conversions R270, R271). -/

/-- A signed scalar times 2^128 fits a value. -/
theorem toInt_ofInt_mul_two_pow (x : Scalar) : (BitVec.ofInt 256 (x.toInt * 2 ^ 128)).toInt = x.toInt * 2 ^ 128 := by
  have hlow := BitVec.le_toInt x
  have hhigh := BitVec.toInt_lt (x := x)
  exact BitVec.toInt_ofInt_eq_self (by decide) (by omega) (by omega)

/-- The low bits of an integer's pattern are the pattern of its low bits. -/
theorem setWidth_ofInt (n : Int) : (BitVec.ofInt 128 n).setWidth 64 = BitVec.ofInt 64 n := by
  refine BitVec.eq_of_toNat_eq ?_
  simp only [BitVec.toNat_setWidth, BitVec.toNat_ofInt]
  omega

/-- Rounding a negative value with a fraction up from its floor is rounding it toward zero (R271). -/
theorem toIntHalf_eq_ofInt (v : Value) : toIntHalf v = BitVec.ofInt 128 (v.toInt.tdiv (2 ^ 128)) := by
  have hcarry : (if isNeg v ∧ lo v ≠ 0 then 1 else 0 : BitVec 128) =
      BitVec.ofInt 128 (if v.toInt < 0 ∧ v.toInt % 2 ^ 128 ≠ 0 then 1 else 0) := by
    simp only [isNeg_iff_toInt_neg, ne_eq, lo_eq_zero_iff]
    split <;> rfl
  have hround : v.toInt.tdiv (2 ^ 128) =
      v.toInt / 2 ^ 128 + if v.toInt < 0 ∧ v.toInt % 2 ^ 128 ≠ 0 then 1 else 0 := by
    simp only [Int.tdiv_eq_ediv, Int.dvd_iff_emod_eq_zero, show ((2 : Int) ^ 128).sign = 1 from rfl]
    split_ifs <;> omega
  rw [toIntHalf, hcarry, hi_eq_ofInt, ← BitVec.ofInt_add, hround]

theorem exec_fromint (s : State) (d : VReg) (a : XReg) :
    exec (.fromint d a) s = .next (s.setV d (BitVec.ofInt 256 ((s.getX a).toInt * 2 ^ 128))) := rfl

theorem exec_toint (s : State) (d : XReg) (a : VReg) :
    exec (.toint d a) s = .next (s.setX d (BitVec.ofInt 64 ((s.getV a).toInt.tdiv (2 ^ 128)))) := by
  rw [← setWidth_ofInt, ← toIntHalf_eq_ofInt]
  rfl

/-- Settles O55, by the two conversions as integers. -/
theorem integerConversions : Obligations.IntegerConversions := fun v x s =>
  ⟨rfl, rfl, ⟨_, _, exec_fromint s v x, setV_writesV s v _, toInt_ofInt_mul_two_pow _⟩, exec_writesX (exec_toint s x v)⟩

/-! The fields of a double (48_conversions R272). -/

theorem f64Exp_eq (x : Scalar) : f64Exp x = x.toNat / 2 ^ 52 % 2048 := by
  rw [f64Exp, BitVec.extractLsb'_toNat, Nat.shiftRight_eq_div_pow]

theorem f64Frac_eq (x : Scalar) : f64Frac x = x.toNat % 2 ^ 52 := by
  rw [f64Frac, BitVec.extractLsb'_toNat, Nat.shiftRight_zero]

theorem msb_iff (x : Scalar) : x.msb = true ↔ 2 ^ 63 ≤ x.toNat := by
  rw [BitVec.msb_eq_decide, decide_eq_true_iff]

theorem f64IsNaN_iff (x : Scalar) : f64IsNaN x = true ↔ f64Exp x = 2047 ∧ f64Frac x ≠ 0 := decide_eq_true_iff

theorem f64IsInf_iff (x : Scalar) : f64IsInf x = true ↔ f64Exp x = 2047 ∧ f64Frac x = 0 := decide_eq_true_iff

/-- The magnitude of a double's pattern, in units of 2^-1074, as a number of its pattern. -/
theorem f64Mag_eq (x : Scalar) : f64Mag x =
    if x.toNat / 2 ^ 52 % 2048 = 0 then x.toNat % 2 ^ 52
    else (2 ^ 52 + x.toNat % 2 ^ 52) * 2 ^ (x.toNat / 2 ^ 52 % 2048 - 1) := by
  rw [f64Mag, f64Exp_eq, f64Frac_eq]

/-! From a double (48_conversions R273, R274). -/

/-- The magnitude of 2^127, the first past MAX, in units of 2^-1074. -/
def valueBound : Nat := 2 ^ 1201

theorem two_pow_mul_eq_valueBound : 2 ^ 127 * 2 ^ 1074 = valueBound := by
  rw [valueBound, ← pow_add]

/-- The exponent of infinities and NaNs stands for a magnitude past every value's. -/
theorem lt_f64Mag_of_exp {x : Scalar} (h : f64Exp x = 2047) : valueBound < f64Mag x := by
  rw [f64Mag, if_neg (by omega), h]
  exact (pow_lt_pow_right₀ one_lt_two (by decide)).trans_le (Nat.le_mul_of_pos_left _ (by omega))

theorem f64IsInf_or_le_iff (x : Scalar) : f64IsInf x = true ∨ f64Mag x ≥ 2 ^ 127 * 2 ^ 1074 ↔ valueBound ≤ f64Mag x := by
  rw [two_pow_mul_eq_valueBound, ge_iff_le, f64IsInf_iff]
  exact or_iff_right_of_imp fun h => (lt_f64Mag_of_exp h.1).le

theorem f64IsInf_or_lt_iff (x : Scalar) : f64IsInf x = true ∨ f64Mag x > 2 ^ 127 * 2 ^ 1074 ↔ valueBound < f64Mag x := by
  rw [two_pow_mul_eq_valueBound, gt_iff_lt, f64IsInf_iff]
  exact or_iff_right_of_imp fun h => lt_f64Mag_of_exp h.1

/-- The units of a magnitude reduced to those of a value. -/
theorem mul_two_pow_div (m : Nat) : m * 2 ^ 128 / 2 ^ 1074 = m / 2 ^ 946 := by
  rw [show (1074 : Nat) = 946 + 128 from rfl, pow_add, Nat.mul_div_mul_right _ _ (by positivity)]

theorem fromFloat_of_nan {x : Scalar} (h : f64Exp x = 2047 ∧ f64Frac x ≠ 0) : fromFloat x = (0, [.inv]) :=
  if_pos ((f64IsNaN_iff x).2 h)

/-- A double that is a number saturates on either side, or is truncated toward zero (R273). -/
theorem fromFloat_of_not_nan {x : Scalar} (h : ¬ (f64Exp x = 2047 ∧ f64Frac x ≠ 0)) : fromFloat x =
    if x.msb = false ∧ valueBound ≤ f64Mag x then (constValue .max, [.rng])
    else if x.msb = true ∧ valueBound < f64Mag x then (constValue .min, [.rng])
    else (BitVec.ofInt 256 (signed x.msb (f64Mag x / 2 ^ 946)), []) := by
  simp only [fromFloat, mt (f64IsNaN_iff x).1 h, f64IsInf_or_le_iff, f64IsInf_or_lt_iff, mul_two_pow_div,
    ite_neg_eq_ofInt_signed]
  rfl

section number

variable {x : Scalar} (h : ¬ (f64Exp x = 2047 ∧ f64Frac x ≠ 0))
include h

theorem fromFloat_of_le (hsign : x.toNat < 2 ^ 63) (hm : valueBound ≤ f64Mag x) :
    fromFloat x = (constValue .max, [.rng]) := by
  have hmsb : x.msb = false := Bool.eq_false_iff.2 (mt (msb_iff x).1 (Nat.not_le.2 hsign))
  rw [fromFloat_of_not_nan h, if_pos ⟨hmsb, hm⟩]

theorem fromFloat_of_lt_neg (hsign : 2 ^ 63 ≤ x.toNat) (hm : valueBound < f64Mag x) :
    fromFloat x = (constValue .min, [.rng]) := by
  have hmsb : x.msb = true := (msb_iff x).2 hsign
  rw [fromFloat_of_not_nan h, if_neg (by simp [hmsb]), if_pos ⟨hmsb, hm⟩]

end number

theorem fromFloat_of_lt {x : Scalar} (hsign : x.toNat < 2 ^ 63) (hm : f64Mag x < valueBound) :
    fromFloat x = (BitVec.ofNat 256 (f64Mag x / 2 ^ 946), []) := by
  have hmsb : x.msb = false := Bool.eq_false_iff.2 (mt (msb_iff x).1 (Nat.not_le.2 hsign))
  rw [fromFloat_of_not_nan fun h => hm.not_gt (lt_f64Mag_of_exp h.1), if_neg fun h => hm.not_ge h.2,
    if_neg (by simp [hmsb]), hmsb, signed_false, BitVec.ofInt_natCast]

theorem fromFloat_of_neg_le {x : Scalar} (hsign : 2 ^ 63 ≤ x.toNat) (hm : f64Mag x ≤ valueBound) :
    fromFloat x = (BitVec.ofInt 256 (-(f64Mag x / 2 ^ 946 : Nat)), []) := by
  have hmsb : x.msb = true := (msb_iff x).2 hsign
  rw [fromFloat_of_not_nan fun h => hm.not_gt (lt_f64Mag_of_exp h.1), if_neg (by simp [hmsb]),
    if_neg fun h => hm.not_gt h.2, hmsb, signed_true]

theorem exec_fromf (s : State) (d : VReg) (a : XReg) : exec (.fromf d a) s =
    .next ((s.setV d (fromFloat (s.getX a)).1).setFlags (fromFloat (s.getX a)).2) := rfl

/-- Settles O56: one clause for each case of `FromFloat`. -/
theorem fromfConvertsADouble : Obligations.FromfConvertsADouble := by
  intro d a s x e f m
  have hexp : f64Exp (s.getX a) = e := f64Exp_eq _
  have hfrac : f64Frac (s.getX a) = f := f64Frac_eq _
  have hmag : f64Mag (s.getX a) = m := f64Mag_eq _
  refine ⟨rfl, _, exec_fromf s d a, ?_⟩
  rw [← hexp, ← hfrac, ← hmag]
  exact ⟨fun he hf => setV_setFlags_writesV_of_eq s d (fromFloat_of_nan ⟨he, hf⟩),
    fun h hsign hm => setV_setFlags_writesV_of_eq s d (fromFloat_of_le h hsign hm),
    fun h hsign hm => setV_setFlags_writesV_of_eq s d (fromFloat_of_lt_neg h hsign hm),
    fun hsign hm => setV_setFlags_writesV_of_eq s d (fromFloat_of_lt hsign hm),
    fun hsign hm => setV_setFlags_writesV_of_eq s d (fromFloat_of_neg_le hsign hm)⟩

end Sys2Proof.Machine
end

section
/-! PROOFS. The rounding to binary64 (spec/48_conversions.md R272): patterns and their magnitudes rise together, the rounded
pattern is one of the two around the number, and TOF as that rounding of the halves and of their sum (R275, R276). -/

namespace Sys2Proof.Machine

open Sys2Proof.Statements

/-! Patterns and their magnitudes. -/

/-- A pattern is an exponent part k and a significand q that counts 2^k, from 2^52 on unless k is 0. -/
def IsSignificand (k q : Nat) : Prop := (k = 0 ∨ 2 ^ 52 ≤ q) ∧ q < 2 ^ 53

/-- Every pattern has an exponent part and a significand. -/
theorem exists_significand (p : Nat) : ∃ k q, IsSignificand k q ∧ p = k * 2 ^ 52 + q := by
  by_cases h : p < 2 ^ 52
  · exact ⟨0, p, ⟨.inl rfl, by omega⟩, by omega⟩
  · exact ⟨p / 2 ^ 52 - 1, 2 ^ 52 + p % 2 ^ 52, ⟨.inr (by omega), by omega⟩, by omega⟩

/-- A pattern's magnitude; the significand 2^53 carries into the exponent. -/
theorem patternMagnitude_eq {k q : Nat} (hk : k = 0 ∨ 2 ^ 52 ≤ q) (hq : q ≤ 2 ^ 53) :
    patternMagnitude (k * 2 ^ 52 + q) = q * 2 ^ k := by
  obtain hsub | hnormal | rfl : q < 2 ^ 52 ∨ (2 ^ 52 ≤ q ∧ q < 2 ^ 53) ∨ q = 2 ^ 53 := by omega
  · obtain rfl : k = 0 := by omega
    rw [patternMagnitude, if_pos (by omega)]
    omega
  · rw [patternMagnitude, if_neg (by omega), show (k * 2 ^ 52 + q) / 2 ^ 52 - 1 = k by omega,
      show 2 ^ 52 + (k * 2 ^ 52 + q) % 2 ^ 52 = q by omega]
  · rw [patternMagnitude, if_neg (by omega), show (k * 2 ^ 52 + 2 ^ 53) / 2 ^ 52 - 1 = k + 1 by omega,
      show 2 ^ 52 + (k * 2 ^ 52 + 2 ^ 53) % 2 ^ 52 = 2 ^ 52 by omega, pow_succ]
    ring

theorem patternMagnitude_succ {k q : Nat} (h : IsSignificand k q) :
    patternMagnitude (k * 2 ^ 52 + q + 1) = q * 2 ^ k + 2 ^ k := by
  obtain ⟨hk, hq⟩ := h
  rw [Nat.add_assoc, patternMagnitude_eq (by omega) hq, Nat.succ_mul]

theorem patternMagnitude_strictMono : StrictMono patternMagnitude := by
  refine strictMono_nat_of_lt_succ fun p => ?_
  obtain ⟨k, q, h, rfl⟩ := exists_significand p
  rw [patternMagnitude_succ h, patternMagnitude_eq h.1 h.2.le]
  exact Nat.lt_add_of_pos_right (Nat.two_pow_pos k)

/-! Rounding. -/

/-- How many low bits of m are dropped, so that 53 are left. -/
def droppedBits (m : Nat) : Nat := (if m = 0 then 0 else Nat.log2 m + 1) - 53

/-- The rounded pattern before the overflow to infinity. -/
def roundedPattern (m : Nat) : Nat := droppedBits m * 2 ^ 52 + roundEven m (droppedBits m)

theorem rne_eq (m : Nat) : rne m = min (roundedPattern m) (2047 * 2 ^ 52) := rfl

theorem rne_le (m : Nat) : rne m ≤ 2047 * 2 ^ 52 := Nat.min_le_right _ _

/-- The bits that are left are a significand for the exponent part that counts the bits dropped. -/
theorem isSignificand_div (m : Nat) : IsSignificand (droppedBits m) (m / 2 ^ droppedBits m) := by
  by_cases hm : m = 0
  · subst hm
    exact ⟨.inl (by simp [droppedBits]), by simp⟩
  have hlow := Nat.log2_self_le hm
  have hhigh : m < 2 ^ (m.log2 + 1) := Nat.lt_log2_self
  rw [droppedBits, if_neg hm]
  constructor
  · rw [Nat.le_div_iff_mul_le (by positivity), ← pow_add, or_iff_not_imp_left]
    intro hk
    exact (Nat.pow_le_pow_right (by decide) (by omega)).trans hlow
  · rw [Nat.div_lt_iff_lt_mul (by positivity), ← pow_add]
    exact hhigh.trans_le (Nat.pow_le_pow_right (by decide) (by omega))

/-- Rounding gives the lower or the upper neighbour, whichever is nearer, and the even one of two that are equally near. -/
theorem roundEven_cases (m k : Nat) :
    (roundEven m k = m / 2 ^ k ∧
      (2 * (m % 2 ^ k) < 2 ^ k ∨ 2 * (m % 2 ^ k) = 2 ^ k ∧ m / 2 ^ k % 2 = 0)) ∨
    (roundEven m k = m / 2 ^ k + 1 ∧
      (2 ^ k < 2 * (m % 2 ^ k) ∨ 2 * (m % 2 ^ k) = 2 ^ k ∧ m / 2 ^ k % 2 = 1)) := by
  simp only [roundEven]
  split <;> omega

/-- Around every number stand two patterns next to each other; the rounded one is the nearer, and the even one of two that
are equally near. -/
theorem roundedPattern_cases (m : Nat) : ∃ p, patternMagnitude p ≤ m ∧ m < patternMagnitude (p + 1) ∧
    ((roundedPattern m = p ∧ (2 * m < patternMagnitude p + patternMagnitude (p + 1) ∨
        2 * m = patternMagnitude p + patternMagnitude (p + 1) ∧ p % 2 = 0)) ∨
      (roundedPattern m = p + 1 ∧ (patternMagnitude p + patternMagnitude (p + 1) < 2 * m ∨
        2 * m = patternMagnitude p + patternMagnitude (p + 1) ∧ (p + 1) % 2 = 0))) := by
  have hsig := isSignificand_div m
  have hround := roundEven_cases m (droppedBits m)
  have hdiv := Nat.div_add_mod' m (2 ^ droppedBits m)
  have hmod := Nat.mod_lt m (Nat.two_pow_pos (droppedBits m))
  refine ⟨droppedBits m * 2 ^ 52 + m / 2 ^ droppedBits m, ?_⟩
  rw [patternMagnitude_succ hsig, patternMagnitude_eq hsig.1 hsig.2.le, roundedPattern]
  omega

/-- The rounded pattern is the nearest of all patterns, and even where another is equally near: a pattern below the lower
neighbour or above the upper one is farther away, as magnitudes rise. -/
theorem roundedPattern_nearest (m p : Nat) (h : p ≠ roundedPattern m) :
    distance (patternMagnitude (roundedPattern m)) m ≤ distance (patternMagnitude p) m ∧
      (distance (patternMagnitude (roundedPattern m)) m = distance (patternMagnitude p) m → roundedPattern m % 2 = 0) := by
  obtain ⟨l, hlow, hhigh, hround⟩ := roundedPattern_cases m
  have hmono := patternMagnitude_strictMono
  have hplace : patternMagnitude p < patternMagnitude l ∨ p = l ∨ p = l + 1 ∨
      patternMagnitude (l + 1) < patternMagnitude p := by
    rw [hmono.lt_iff_lt, hmono.lt_iff_lt]
    omega
  simp only [distance]
  obtain ⟨hl, hnear⟩ | ⟨hl, hnear⟩ := hround <;> rw [hl] at h ⊢
  · obtain hp | rfl | rfl | hp := hplace
    · omega
    · exact absurd rfl h
    · omega
    · omega
  · obtain hp | rfl | rfl | hp := hplace
    · omega
    · omega
    · exact absurd rfl h
    · omega

/-! Overflow. -/

/-- Halfway between the last pattern p of an exponent and the first pattern q of the next. -/
theorem patternMagnitude_halfway {k p q : Nat} (hp : p = (k + 1) * 2 ^ 52 + (2 ^ 53 - 1)) (hq : q = (k + 1) * 2 ^ 52 + 2 ^ 53) :
    patternMagnitude p + 2 ^ k = (2 ^ 54 - 1) * 2 ^ k ∧ (2 ^ 54 - 1) * 2 ^ k + 2 ^ k = patternMagnitude q := by
  rw [hp, hq, patternMagnitude_eq (by omega) (by omega), patternMagnitude_eq (by omega) (by omega), pow_succ]
  omega

/-- The threshold is halfway between the largest finite pattern and the infinity pattern as if it were a number. -/
theorem patternMagnitude_largest : ∃ h, 0 < h ∧ patternMagnitude (2047 * 2 ^ 52 - 1) + h = (2 ^ 54 - 1) * 2 ^ 2044 ∧
    (2 ^ 54 - 1) * 2 ^ 2044 + h = patternMagnitude (2047 * 2 ^ 52) :=
  ⟨2 ^ 2044, by positivity, patternMagnitude_halfway (by omega) (by omega)⟩

/-- The rounded pattern is finite exactly below the threshold: from there on the infinity pattern, which is even, is at least as
near as the largest finite one, which is odd. -/
theorem roundedPattern_lt_iff (m : Nat) : roundedPattern m < 2047 * 2 ^ 52 ↔ m < (2 ^ 54 - 1) * 2 ^ 2044 := by
  obtain ⟨h, hpos, hfinite, hinfinite⟩ := patternMagnitude_largest
  have hmono := patternMagnitude_strictMono
  constructor
  · intro hlt
    by_contra hm
    obtain ⟨hnear, heven⟩ := roundedPattern_nearest m (2047 * 2 ^ 52) hlt.ne'
    have hle : patternMagnitude (roundedPattern m) ≤ patternMagnitude (2047 * 2 ^ 52 - 1) := hmono.monotone (by omega)
    have heq : patternMagnitude (roundedPattern m) = patternMagnitude (2047 * 2 ^ 52 - 1) := by
      simp only [distance] at hnear
      omega
    have hodd : roundedPattern m = 2047 * 2 ^ 52 - 1 := hmono.injective heq
    have : roundedPattern m % 2 = 0 := heven (by simp only [distance] at hnear ⊢; omega)
    omega
  · intro hm
    by_contra hge
    obtain ⟨hnear, -⟩ := roundedPattern_nearest m (2047 * 2 ^ 52 - 1) (by omega)
    have hle : patternMagnitude (2047 * 2 ^ 52) ≤ patternMagnitude (roundedPattern m) := hmono.monotone (by omega)
    simp only [distance] at hnear
    omega

/-- Settles O58: below the threshold the rounded pattern is the result, and it is the nearest of all patterns. -/
theorem rneIsNearestTiesToEven : Obligations.RneIsNearestTiesToEven := by
  intro m
  refine ⟨fun hm => ?_, fun hm => ?_⟩
  · have hge := mt (roundedPattern_lt_iff m).1 (Nat.not_lt.2 hm)
    rw [rne_eq]
    omega
  · have hlt := (roundedPattern_lt_iff m).2 hm
    have hrne : rne m = roundedPattern m := by
      rw [rne_eq]
      omega
    rw [hrne]
    exact ⟨hlt, fun p _ hp => roundedPattern_nearest m p hp⟩

/-! To a double (48_conversions R275, R276). -/

/-- The magnitude of a rounded number, read back from its pattern. -/
theorem f64Mag_rne (m : Nat) : f64Mag (BitVec.ofNat 64 (rne m)) = patternMagnitude (rne m) := by
  have hle := rne_le m
  have hnat : (BitVec.ofNat 64 (rne m)).toNat = rne m := by
    rw [BitVec.toNat_ofNat]
    omega
  rw [f64Mag_eq, hnat, patternMagnitude, show rne m / 2 ^ 52 % 2048 = rne m / 2 ^ 52 by omega]
  split <;> omega

/-- Setting the sign bit of a pattern without sign. -/
theorem or_signBit {p : Nat} (h : p < 2 ^ 63) :
    BitVec.ofNat 64 p ||| BitVec.ofNat 64 (2 ^ 63) = BitVec.ofNat 64 (p + 2 ^ 63) := by
  refine BitVec.eq_of_toNat_eq ?_
  have hor := Nat.two_pow_add_eq_or_of_lt h 1
  simp only [BitVec.toNat_or, BitVec.toNat_ofNat]
  rw [Nat.mod_eq_of_lt (by omega), Nat.mod_eq_of_lt (by omega), Nat.mod_eq_of_lt (by omega), Nat.lor_comm, Nat.add_comm]
  simpa using hor.symm

/-- The pattern of the rounded sum with the sign bit of the value (R275). -/
theorem toFloat_eq (v : Value) : toFloat v =
    BitVec.ofNat 64 (rne (patternMagnitude (rne (v.toInt.natAbs / 2 ^ 128 * 2 ^ 1074)) +
        patternMagnitude (rne (v.toInt.natAbs % 2 ^ 128 * 2 ^ 1074)) / 2 ^ 128) +
      (if v.toInt < 0 then 2 ^ 63 else 0)) := by
  simp only [toFloat, f64Mag_rne, toNat_abs, isNeg_iff_toInt_neg]
  split
  · rw [or_signBit ((rne_le _).trans_lt (by decide))]
  · rw [Nat.add_zero]

theorem exec_tof (s : State) (d : XReg) (a : VReg) : exec (.tof d a) s = .next (s.setX d (toFloat (s.getV a))) := rfl

/-- Settles O57, by the rounded sum and the sign bit. -/
theorem tofRoundsTheHalvesAndTheirSum : Obligations.TofRoundsTheHalvesAndTheirSum := by
  intro d a s z h f
  have htof := exec_tof s d a
  rw [toFloat_eq] at htof
  exact ⟨rfl, exec_writesX htof⟩

end Sys2Proof.Machine
end
